-- ==== Sys2Proof/Word.lean ====
section
/-! DEFINITION. The word type, the bytes and halfwords it is made of, register numbers, and the closed sets of
names that instructions are written with (conditions, shift types, access widths). -/

namespace Sys2Proof

/-- A 32-bit register, address or status word (00_scope.md R8). -/
abbrev Word := BitVec 32

/-- A byte of memory (20_memory.md R60). -/
abbrev Byte := BitVec 8

/-- A halfword: a narrow instruction, a pixel, a 16-bit register of the `IO` region. -/
abbrev Half := BitVec 16

/-- A register number 0..15 (10_state.md R21). -/
abbrev Reg := BitVec 4

/-- R14, the link register (10_state.md R21). -/
abbrev Reg.lr : Reg := 14#4

/-- R15, the program counter (10_state.md R21). -/
abbrev Reg.pc : Reg := 15#4

/-- The sixteen conditions, in the order of the table of 40_step_and_conditions.md R153 (values 0..15). -/
inductive Cond where
  | eq | ne | cs | cc | mi | pl | vs | vc | hi | ls | ge | lt | gt | le | al | nv
  deriving DecidableEq, Repr

/-- The shift types 0..3 of 30_encoding.md R114. -/
inductive ShiftType where
  | lsl | lsr | asr | ror
  deriving DecidableEq, Repr

/-- The access widths of the bus: n in {1, 2, 4} bytes (20_memory.md R60). -/
inductive Width where
  | byte | half | word
  deriving DecidableEq, Repr

/-- The width in bytes. -/
def Width.bytes : Width → Nat
  | .byte => 1
  | .half => 2
  | .word => 4

end Sys2Proof
end

