-- ==== Sys2Proof/Syntax.lean ====
section
/-! DEFINITION. The instructions: one constructor per row of spec/opcode_table.json (60 wide rows, prefix `w`; 53 narrow
rows, prefix `n`), with the fields that row gives. Fields a rule calls ignored and the table gives no name (the `Rn` of MOV and
MVN, the `Rd` of the tests, bits 2:0 of the narrow BX) are no operands (log 7). A RESERVED pattern (30_encoding.md R140, R141) is
no instruction: the decoder names it and the step does nothing for it. -/

namespace Sys2Proof

/-- An instruction of the admitted set (30_encoding.md R118, R130). `c` is the condition field of a wide instruction (R112), `sf`
its S bit; `p`, `u`, `w` are the P, U, W bits of R117. A register operand is a number 0..15; where the encoding has three
bits only R0..R7 are well formed (Sys2Proof/WellFormed.lean). -/
inductive Instr where
  /-- AND, immediate operand: opcode 0 (41_wide_data_processing.md R180). -/
  | wAndImm (c : Cond) (sf : Bool) (rn rd : Reg) (rot : BitVec 4) (imm8 : BitVec 8)
  /-- AND, register operand shifted by an immediate amount (R180). -/
  | wAndShi (c : Cond) (sf : Bool) (rn rd : Reg) (shamt : BitVec 5) (ty : ShiftType) (rm : Reg)
  /-- AND, register operand shifted by a register amount (R180). -/
  | wAndShr (c : Cond) (sf : Bool) (rn rd : Reg) (rs : Reg) (ty : ShiftType) (rm : Reg)
  /-- EOR, immediate operand: opcode 1 (41_wide_data_processing.md R181). -/
  | wEorImm (c : Cond) (sf : Bool) (rn rd : Reg) (rot : BitVec 4) (imm8 : BitVec 8)
  /-- EOR, register operand shifted by an immediate amount (R181). -/
  | wEorShi (c : Cond) (sf : Bool) (rn rd : Reg) (shamt : BitVec 5) (ty : ShiftType) (rm : Reg)
  /-- EOR, register operand shifted by a register amount (R181). -/
  | wEorShr (c : Cond) (sf : Bool) (rn rd : Reg) (rs : Reg) (ty : ShiftType) (rm : Reg)
  /-- SUB, immediate operand: opcode 2 (41_wide_data_processing.md R182). -/
  | wSubImm (c : Cond) (sf : Bool) (rn rd : Reg) (rot : BitVec 4) (imm8 : BitVec 8)
  /-- SUB, register operand shifted by an immediate amount (R182). -/
  | wSubShi (c : Cond) (sf : Bool) (rn rd : Reg) (shamt : BitVec 5) (ty : ShiftType) (rm : Reg)
  /-- SUB, register operand shifted by a register amount (R182). -/
  | wSubShr (c : Cond) (sf : Bool) (rn rd : Reg) (rs : Reg) (ty : ShiftType) (rm : Reg)
  /-- RSB, immediate operand: opcode 3 (41_wide_data_processing.md R183). -/
  | wRsbImm (c : Cond) (sf : Bool) (rn rd : Reg) (rot : BitVec 4) (imm8 : BitVec 8)
  /-- RSB, register operand shifted by an immediate amount (R183). -/
  | wRsbShi (c : Cond) (sf : Bool) (rn rd : Reg) (shamt : BitVec 5) (ty : ShiftType) (rm : Reg)
  /-- RSB, register operand shifted by a register amount (R183). -/
  | wRsbShr (c : Cond) (sf : Bool) (rn rd : Reg) (rs : Reg) (ty : ShiftType) (rm : Reg)
  /-- ADD, immediate operand: opcode 4 (41_wide_data_processing.md R184). -/
  | wAddImm (c : Cond) (sf : Bool) (rn rd : Reg) (rot : BitVec 4) (imm8 : BitVec 8)
  /-- ADD, register operand shifted by an immediate amount (R184). -/
  | wAddShi (c : Cond) (sf : Bool) (rn rd : Reg) (shamt : BitVec 5) (ty : ShiftType) (rm : Reg)
  /-- ADD, register operand shifted by a register amount (R184). -/
  | wAddShr (c : Cond) (sf : Bool) (rn rd : Reg) (rs : Reg) (ty : ShiftType) (rm : Reg)
  /-- ADC, immediate operand: opcode 5 (41_wide_data_processing.md R185). -/
  | wAdcImm (c : Cond) (sf : Bool) (rn rd : Reg) (rot : BitVec 4) (imm8 : BitVec 8)
  /-- ADC, register operand shifted by an immediate amount (R185). -/
  | wAdcShi (c : Cond) (sf : Bool) (rn rd : Reg) (shamt : BitVec 5) (ty : ShiftType) (rm : Reg)
  /-- ADC, register operand shifted by a register amount (R185). -/
  | wAdcShr (c : Cond) (sf : Bool) (rn rd : Reg) (rs : Reg) (ty : ShiftType) (rm : Reg)
  /-- SBC, immediate operand: opcode 6 (41_wide_data_processing.md R186). -/
  | wSbcImm (c : Cond) (sf : Bool) (rn rd : Reg) (rot : BitVec 4) (imm8 : BitVec 8)
  /-- SBC, register operand shifted by an immediate amount (R186). -/
  | wSbcShi (c : Cond) (sf : Bool) (rn rd : Reg) (shamt : BitVec 5) (ty : ShiftType) (rm : Reg)
  /-- SBC, register operand shifted by a register amount (R186). -/
  | wSbcShr (c : Cond) (sf : Bool) (rn rd : Reg) (rs : Reg) (ty : ShiftType) (rm : Reg)
  /-- RSC, immediate operand: opcode 7 (41_wide_data_processing.md R187). -/
  | wRscImm (c : Cond) (sf : Bool) (rn rd : Reg) (rot : BitVec 4) (imm8 : BitVec 8)
  /-- RSC, register operand shifted by an immediate amount (R187). -/
  | wRscShi (c : Cond) (sf : Bool) (rn rd : Reg) (shamt : BitVec 5) (ty : ShiftType) (rm : Reg)
  /-- RSC, register operand shifted by a register amount (R187). -/
  | wRscShr (c : Cond) (sf : Bool) (rn rd : Reg) (rs : Reg) (ty : ShiftType) (rm : Reg)
  /-- TST, immediate operand: opcode 8 (41_wide_data_processing.md R188). -/
  | wTstImm (c : Cond) (rn : Reg) (rot : BitVec 4) (imm8 : BitVec 8)
  /-- TST, register operand shifted by an immediate amount (R188). -/
  | wTstShi (c : Cond) (rn : Reg) (shamt : BitVec 5) (ty : ShiftType) (rm : Reg)
  /-- TST, register operand shifted by a register amount (R188). -/
  | wTstShr (c : Cond) (rn : Reg) (rs : Reg) (ty : ShiftType) (rm : Reg)
  /-- TEQ, immediate operand: opcode 9 (41_wide_data_processing.md R189). -/
  | wTeqImm (c : Cond) (rn : Reg) (rot : BitVec 4) (imm8 : BitVec 8)
  /-- TEQ, register operand shifted by an immediate amount (R189). -/
  | wTeqShi (c : Cond) (rn : Reg) (shamt : BitVec 5) (ty : ShiftType) (rm : Reg)
  /-- TEQ, register operand shifted by a register amount (R189). -/
  | wTeqShr (c : Cond) (rn : Reg) (rs : Reg) (ty : ShiftType) (rm : Reg)
  /-- CMP, immediate operand: opcode 10 (41_wide_data_processing.md R190). -/
  | wCmpImm (c : Cond) (rn : Reg) (rot : BitVec 4) (imm8 : BitVec 8)
  /-- CMP, register operand shifted by an immediate amount (R190). -/
  | wCmpShi (c : Cond) (rn : Reg) (shamt : BitVec 5) (ty : ShiftType) (rm : Reg)
  /-- CMP, register operand shifted by a register amount (R190). -/
  | wCmpShr (c : Cond) (rn : Reg) (rs : Reg) (ty : ShiftType) (rm : Reg)
  /-- CMN, immediate operand: opcode 11 (41_wide_data_processing.md R191). -/
  | wCmnImm (c : Cond) (rn : Reg) (rot : BitVec 4) (imm8 : BitVec 8)
  /-- CMN, register operand shifted by an immediate amount (R191). -/
  | wCmnShi (c : Cond) (rn : Reg) (shamt : BitVec 5) (ty : ShiftType) (rm : Reg)
  /-- CMN, register operand shifted by a register amount (R191). -/
  | wCmnShr (c : Cond) (rn : Reg) (rs : Reg) (ty : ShiftType) (rm : Reg)
  /-- ORR, immediate operand: opcode 12 (41_wide_data_processing.md R192). -/
  | wOrrImm (c : Cond) (sf : Bool) (rn rd : Reg) (rot : BitVec 4) (imm8 : BitVec 8)
  /-- ORR, register operand shifted by an immediate amount (R192). -/
  | wOrrShi (c : Cond) (sf : Bool) (rn rd : Reg) (shamt : BitVec 5) (ty : ShiftType) (rm : Reg)
  /-- ORR, register operand shifted by a register amount (R192). -/
  | wOrrShr (c : Cond) (sf : Bool) (rn rd : Reg) (rs : Reg) (ty : ShiftType) (rm : Reg)
  /-- MOV, immediate operand: opcode 13 (41_wide_data_processing.md R193). -/
  | wMovImm (c : Cond) (sf : Bool) (rd : Reg) (rot : BitVec 4) (imm8 : BitVec 8)
  /-- MOV, register operand shifted by an immediate amount (R193). -/
  | wMovShi (c : Cond) (sf : Bool) (rd : Reg) (shamt : BitVec 5) (ty : ShiftType) (rm : Reg)
  /-- MOV, register operand shifted by a register amount (R193). -/
  | wMovShr (c : Cond) (sf : Bool) (rd : Reg) (rs : Reg) (ty : ShiftType) (rm : Reg)
  /-- BIC, immediate operand: opcode 14 (41_wide_data_processing.md R194). -/
  | wBicImm (c : Cond) (sf : Bool) (rn rd : Reg) (rot : BitVec 4) (imm8 : BitVec 8)
  /-- BIC, register operand shifted by an immediate amount (R194). -/
  | wBicShi (c : Cond) (sf : Bool) (rn rd : Reg) (shamt : BitVec 5) (ty : ShiftType) (rm : Reg)
  /-- BIC, register operand shifted by a register amount (R194). -/
  | wBicShr (c : Cond) (sf : Bool) (rn rd : Reg) (rs : Reg) (ty : ShiftType) (rm : Reg)
  /-- MVN, immediate operand: opcode 15 (41_wide_data_processing.md R195). -/
  | wMvnImm (c : Cond) (sf : Bool) (rd : Reg) (rot : BitVec 4) (imm8 : BitVec 8)
  /-- MVN, register operand shifted by an immediate amount (R195). -/
  | wMvnShi (c : Cond) (sf : Bool) (rd : Reg) (shamt : BitVec 5) (ty : ShiftType) (rm : Reg)
  /-- MVN, register operand shifted by a register amount (R195). -/
  | wMvnShr (c : Cond) (sf : Bool) (rd : Reg) (rs : Reg) (ty : ShiftType) (rm : Reg)
  /-- B (42_wide_branch_and_system.md R210). -/
  | wB (c : Cond) (imm24 : BitVec 24)
  /-- BL (R211). -/
  | wBl (c : Cond) (imm24 : BitVec 24)
  /-- BX (R212). -/
  | wBx (c : Cond) (rm : Reg)
  /-- SWI; the comment is carried but has no effect (R213). -/
  | wSwi (c : Cond) (comment24 : BitVec 24)
  /-- LDR, 12-bit immediate offset (43_wide_load_store.md R223). -/
  | wLdrImm (c : Cond) (p u w : Bool) (rn rd : Reg) (imm12 : BitVec 12)
  /-- LDR, shifted register offset (R223). -/
  | wLdrReg (c : Cond) (p u w : Bool) (rn rd : Reg) (shamt : BitVec 5) (ty : ShiftType) (rm : Reg)
  /-- STR, 12-bit immediate offset (43_wide_load_store.md R224). -/
  | wStrImm (c : Cond) (p u w : Bool) (rn rd : Reg) (imm12 : BitVec 12)
  /-- STR, shifted register offset (R224). -/
  | wStrReg (c : Cond) (p u w : Bool) (rn rd : Reg) (shamt : BitVec 5) (ty : ShiftType) (rm : Reg)
  /-- LDRB, 12-bit immediate offset (43_wide_load_store.md R225). -/
  | wLdrbImm (c : Cond) (p u w : Bool) (rn rd : Reg) (imm12 : BitVec 12)
  /-- LDRB, shifted register offset (R225). -/
  | wLdrbReg (c : Cond) (p u w : Bool) (rn rd : Reg) (shamt : BitVec 5) (ty : ShiftType) (rm : Reg)
  /-- STRB, 12-bit immediate offset (43_wide_load_store.md R226). -/
  | wStrbImm (c : Cond) (p u w : Bool) (rn rd : Reg) (imm12 : BitVec 12)
  /-- STRB, shifted register offset (R226). -/
  | wStrbReg (c : Cond) (p u w : Bool) (rn rd : Reg) (shamt : BitVec 5) (ty : ShiftType) (rm : Reg)
  /-- LSL by immediate, format N1 (44_narrow_alu.md R241). -/
  | nLslImm (imm5 : BitVec 5) (rs rd : Reg)
  /-- LSR by immediate, format N1 (44_narrow_alu.md R242). -/
  | nLsrImm (imm5 : BitVec 5) (rs rd : Reg)
  /-- ASR by immediate, format N1 (44_narrow_alu.md R243). -/
  | nAsrImm (imm5 : BitVec 5) (rs rd : Reg)
  /-- ADD (register), format N2 (44_narrow_alu.md R244). -/
  | nAddReg (rn rs rd : Reg)
  /-- SUB (register), format N2 (44_narrow_alu.md R245). -/
  | nSubReg (rn rs rd : Reg)
  /-- ADD (3-bit immediate), format N2 (44_narrow_alu.md R246). -/
  | nAddImm3 (imm3 : BitVec 3) (rs rd : Reg)
  /-- SUB (3-bit immediate), format N2 (44_narrow_alu.md R247). -/
  | nSubImm3 (imm3 : BitVec 3) (rs rd : Reg)
  /-- MOV (8-bit immediate), format N3 (44_narrow_alu.md R248). -/
  | nMovImm8 (rd : Reg) (imm8 : BitVec 8)
  /-- CMP (8-bit immediate), format N3 (44_narrow_alu.md R249). -/
  | nCmpImm8 (rd : Reg) (imm8 : BitVec 8)
  /-- ADD (8-bit immediate), format N3 (44_narrow_alu.md R250). -/
  | nAddImm8 (rd : Reg) (imm8 : BitVec 8)
  /-- SUB (8-bit immediate), format N3 (44_narrow_alu.md R251). -/
  | nSubImm8 (rd : Reg) (imm8 : BitVec 8)
  /-- AND (register), format N4, op = 0 (44_narrow_alu.md R252). -/
  | nAnd (rs rd : Reg)
  /-- EOR (register), format N4, op = 1 (44_narrow_alu.md R253). -/
  | nEor (rs rd : Reg)
  /-- LSL (register), format N4, op = 2 (44_narrow_alu.md R254). -/
  | nLslReg (rs rd : Reg)
  /-- LSR (register), format N4, op = 3 (44_narrow_alu.md R255). -/
  | nLsrReg (rs rd : Reg)
  /-- ASR (register), format N4, op = 4 (44_narrow_alu.md R256). -/
  | nAsrReg (rs rd : Reg)
  /-- ADC (register), format N4, op = 5 (44_narrow_alu.md R257). -/
  | nAdc (rs rd : Reg)
  /-- SBC (register), format N4, op = 6 (44_narrow_alu.md R258). -/
  | nSbc (rs rd : Reg)
  /-- ROR (register), format N4, op = 7 (44_narrow_alu.md R259). -/
  | nRorReg (rs rd : Reg)
  /-- TST (register), format N4, op = 8 (44_narrow_alu.md R260). -/
  | nTst (rs rd : Reg)
  /-- NEG (register), format N4, op = 9 (44_narrow_alu.md R261). -/
  | nNeg (rs rd : Reg)
  /-- CMP (register), format N4, op = 10 (44_narrow_alu.md R262). -/
  | nCmpReg (rs rd : Reg)
  /-- CMN (register), format N4, op = 11 (44_narrow_alu.md R263). -/
  | nCmn (rs rd : Reg)
  /-- ORR (register), format N4, op = 12 (44_narrow_alu.md R264). -/
  | nOrr (rs rd : Reg)
  /-- BIC (register), format N4, op = 14 (44_narrow_alu.md R265). -/
  | nBic (rs rd : Reg)
  /-- MVN (register), format N4, op = 15 (44_narrow_alu.md R266). -/
  | nMvn (rs rd : Reg)
  /-- ADD (high registers), format N5 (44_narrow_alu.md R270). -/
  | nAddHigh (rs rd : Reg)
  /-- CMP (high registers), format N5 (44_narrow_alu.md R271). -/
  | nCmpHigh (rs rd : Reg)
  /-- MOV (high registers), format N5 (44_narrow_alu.md R272). -/
  | nMovHigh (rs rd : Reg)
  /-- BX, format N5 (45_narrow_branch_load_store.md R290). -/
  | nBx (rs : Reg)
  /-- LDR (pc-relative), format N6 (45_narrow_branch_load_store.md R291). -/
  | nLdrPc (rd : Reg) (imm8 : BitVec 8)
  /-- STR (5-bit immediate offset), format N9 (45_narrow_branch_load_store.md R292). -/
  | nStrImm (imm5 : BitVec 5) (rb rd : Reg)
  /-- LDR (5-bit immediate offset), format N9 (45_narrow_branch_load_store.md R293). -/
  | nLdrImm (imm5 : BitVec 5) (rb rd : Reg)
  /-- STRB (5-bit immediate offset), format N9 (45_narrow_branch_load_store.md R294). -/
  | nStrbImm (imm5 : BitVec 5) (rb rd : Reg)
  /-- LDRB (5-bit immediate offset), format N9 (45_narrow_branch_load_store.md R295). -/
  | nLdrbImm (imm5 : BitVec 5) (rb rd : Reg)
  /-- BEQ, format N16 with condition 0 (45_narrow_branch_load_store.md R296). -/
  | nBeq (soff8 : BitVec 8)
  /-- BNE, format N16 with condition 1 (45_narrow_branch_load_store.md R296). -/
  | nBne (soff8 : BitVec 8)
  /-- BCS, format N16 with condition 2 (45_narrow_branch_load_store.md R296). -/
  | nBcs (soff8 : BitVec 8)
  /-- BCC, format N16 with condition 3 (45_narrow_branch_load_store.md R296). -/
  | nBcc (soff8 : BitVec 8)
  /-- BMI, format N16 with condition 4 (45_narrow_branch_load_store.md R296). -/
  | nBmi (soff8 : BitVec 8)
  /-- BPL, format N16 with condition 5 (45_narrow_branch_load_store.md R296). -/
  | nBpl (soff8 : BitVec 8)
  /-- BVS, format N16 with condition 6 (45_narrow_branch_load_store.md R296). -/
  | nBvs (soff8 : BitVec 8)
  /-- BVC, format N16 with condition 7 (45_narrow_branch_load_store.md R296). -/
  | nBvc (soff8 : BitVec 8)
  /-- BHI, format N16 with condition 8 (45_narrow_branch_load_store.md R296). -/
  | nBhi (soff8 : BitVec 8)
  /-- BLS, format N16 with condition 9 (45_narrow_branch_load_store.md R296). -/
  | nBls (soff8 : BitVec 8)
  /-- BGE, format N16 with condition 10 (45_narrow_branch_load_store.md R296). -/
  | nBge (soff8 : BitVec 8)
  /-- BLT, format N16 with condition 11 (45_narrow_branch_load_store.md R296). -/
  | nBlt (soff8 : BitVec 8)
  /-- BGT, format N16 with condition 12 (45_narrow_branch_load_store.md R296). -/
  | nBgt (soff8 : BitVec 8)
  /-- BLE, format N16 with condition 13 (45_narrow_branch_load_store.md R296). -/
  | nBle (soff8 : BitVec 8)
  /-- SWI, format N17; the comment is carried but has no effect (45_narrow_branch_load_store.md R297). -/
  | nSwi (comment8 : BitVec 8)
  /-- B (unconditional), format N18 (45_narrow_branch_load_store.md R298). -/
  | nB (off11 : BitVec 11)
  /-- BL prefix, format N19 (45_narrow_branch_load_store.md R299). -/
  | nBlPrefix (off11 : BitVec 11)
  /-- BL suffix, format N19 (45_narrow_branch_load_store.md R300). -/
  | nBlSuffix (off11 : BitVec 11)
  deriving DecidableEq, Repr

end Sys2Proof
end

