-- ==== Sys2Proof/WellFormed.lean ====
section
/-! DEFINITION. Which terms of `Instr` an encoding can hold. Immediates carry their width in their type; what is left to check
is that a register operand of a narrow format with a 3-bit field is one of R0..R7 (30_encoding.md R120; log 12). -/

namespace Sys2Proof

/-- R0..R7: what a 3-bit register field can name (30_encoding.md R120). -/
def Reg.isLow (r : Reg) : Bool := r.toNat < 8

/-- Every register operand fits the field its format gives it. -/
def Instr.wellFormed : Instr → Bool
  | .wAndImm _ _ _ _ _ _ => true
  | .wAndShi _ _ _ _ _ _ _ => true
  | .wAndShr _ _ _ _ _ _ _ => true
  | .wEorImm _ _ _ _ _ _ => true
  | .wEorShi _ _ _ _ _ _ _ => true
  | .wEorShr _ _ _ _ _ _ _ => true
  | .wSubImm _ _ _ _ _ _ => true
  | .wSubShi _ _ _ _ _ _ _ => true
  | .wSubShr _ _ _ _ _ _ _ => true
  | .wRsbImm _ _ _ _ _ _ => true
  | .wRsbShi _ _ _ _ _ _ _ => true
  | .wRsbShr _ _ _ _ _ _ _ => true
  | .wAddImm _ _ _ _ _ _ => true
  | .wAddShi _ _ _ _ _ _ _ => true
  | .wAddShr _ _ _ _ _ _ _ => true
  | .wAdcImm _ _ _ _ _ _ => true
  | .wAdcShi _ _ _ _ _ _ _ => true
  | .wAdcShr _ _ _ _ _ _ _ => true
  | .wSbcImm _ _ _ _ _ _ => true
  | .wSbcShi _ _ _ _ _ _ _ => true
  | .wSbcShr _ _ _ _ _ _ _ => true
  | .wRscImm _ _ _ _ _ _ => true
  | .wRscShi _ _ _ _ _ _ _ => true
  | .wRscShr _ _ _ _ _ _ _ => true
  | .wTstImm _ _ _ _ => true
  | .wTstShi _ _ _ _ _ => true
  | .wTstShr _ _ _ _ _ => true
  | .wTeqImm _ _ _ _ => true
  | .wTeqShi _ _ _ _ _ => true
  | .wTeqShr _ _ _ _ _ => true
  | .wCmpImm _ _ _ _ => true
  | .wCmpShi _ _ _ _ _ => true
  | .wCmpShr _ _ _ _ _ => true
  | .wCmnImm _ _ _ _ => true
  | .wCmnShi _ _ _ _ _ => true
  | .wCmnShr _ _ _ _ _ => true
  | .wOrrImm _ _ _ _ _ _ => true
  | .wOrrShi _ _ _ _ _ _ _ => true
  | .wOrrShr _ _ _ _ _ _ _ => true
  | .wMovImm _ _ _ _ _ => true
  | .wMovShi _ _ _ _ _ _ => true
  | .wMovShr _ _ _ _ _ _ => true
  | .wBicImm _ _ _ _ _ _ => true
  | .wBicShi _ _ _ _ _ _ _ => true
  | .wBicShr _ _ _ _ _ _ _ => true
  | .wMvnImm _ _ _ _ _ => true
  | .wMvnShi _ _ _ _ _ _ => true
  | .wMvnShr _ _ _ _ _ _ => true
  | .wB _ _ => true
  | .wBl _ _ => true
  | .wBx _ _ => true
  | .wSwi _ _ => true
  | .wLdrImm _ _ _ _ _ _ _ => true
  | .wLdrReg _ _ _ _ _ _ _ _ _ => true
  | .wStrImm _ _ _ _ _ _ _ => true
  | .wStrReg _ _ _ _ _ _ _ _ _ => true
  | .wLdrbImm _ _ _ _ _ _ _ => true
  | .wLdrbReg _ _ _ _ _ _ _ _ _ => true
  | .wStrbImm _ _ _ _ _ _ _ => true
  | .wStrbReg _ _ _ _ _ _ _ _ _ => true
  | .nLslImm _ rs rd => Reg.isLow rs && Reg.isLow rd
  | .nLsrImm _ rs rd => Reg.isLow rs && Reg.isLow rd
  | .nAsrImm _ rs rd => Reg.isLow rs && Reg.isLow rd
  | .nAddReg rn rs rd => Reg.isLow rn && Reg.isLow rs && Reg.isLow rd
  | .nSubReg rn rs rd => Reg.isLow rn && Reg.isLow rs && Reg.isLow rd
  | .nAddImm3 _ rs rd => Reg.isLow rs && Reg.isLow rd
  | .nSubImm3 _ rs rd => Reg.isLow rs && Reg.isLow rd
  | .nMovImm8 rd _ => Reg.isLow rd
  | .nCmpImm8 rd _ => Reg.isLow rd
  | .nAddImm8 rd _ => Reg.isLow rd
  | .nSubImm8 rd _ => Reg.isLow rd
  | .nAnd rs rd => Reg.isLow rs && Reg.isLow rd
  | .nEor rs rd => Reg.isLow rs && Reg.isLow rd
  | .nLslReg rs rd => Reg.isLow rs && Reg.isLow rd
  | .nLsrReg rs rd => Reg.isLow rs && Reg.isLow rd
  | .nAsrReg rs rd => Reg.isLow rs && Reg.isLow rd
  | .nAdc rs rd => Reg.isLow rs && Reg.isLow rd
  | .nSbc rs rd => Reg.isLow rs && Reg.isLow rd
  | .nRorReg rs rd => Reg.isLow rs && Reg.isLow rd
  | .nTst rs rd => Reg.isLow rs && Reg.isLow rd
  | .nNeg rs rd => Reg.isLow rs && Reg.isLow rd
  | .nCmpReg rs rd => Reg.isLow rs && Reg.isLow rd
  | .nCmn rs rd => Reg.isLow rs && Reg.isLow rd
  | .nOrr rs rd => Reg.isLow rs && Reg.isLow rd
  | .nBic rs rd => Reg.isLow rs && Reg.isLow rd
  | .nMvn rs rd => Reg.isLow rs && Reg.isLow rd
  | .nAddHigh _ _ => true
  | .nCmpHigh _ _ => true
  | .nMovHigh _ _ => true
  | .nBx _ => true
  | .nLdrPc rd _ => Reg.isLow rd
  | .nStrImm _ rb rd => Reg.isLow rb && Reg.isLow rd
  | .nLdrImm _ rb rd => Reg.isLow rb && Reg.isLow rd
  | .nStrbImm _ rb rd => Reg.isLow rb && Reg.isLow rd
  | .nLdrbImm _ rb rd => Reg.isLow rb && Reg.isLow rd
  | .nBeq _ => true
  | .nBne _ => true
  | .nBcs _ => true
  | .nBcc _ => true
  | .nBmi _ => true
  | .nBpl _ => true
  | .nBvs _ => true
  | .nBvc _ => true
  | .nBhi _ => true
  | .nBls _ => true
  | .nBge _ => true
  | .nBlt _ => true
  | .nBgt _ => true
  | .nBle _ => true
  | .nSwi _ => true
  | .nB _ => true
  | .nBlPrefix _ => true
  | .nBlSuffix _ => true

end Sys2Proof
end

