-- ==== Sys2Proof/Decode.lean ====
section
/-! DEFINITION. The decoder of both instruction sets (30_encoding.md R119, R131), total, with a name for every RESERVED space,
and after it the encoder, written from the format tables of R113 to R127. Bit positions are those of `spec/30_encoding.md`
(decision D1). -/

namespace Sys2Proof

/-- One fetched instruction: a word in wide mode, a halfword in narrow mode (30_encoding.md R110). -/
inductive CodeUnit where
  | wide (w : Word)
  | narrow (h : Half)
  deriving DecidableEq, Repr

/-- The spaces of patterns that are RESERVED: each is a no-op (40_step_and_conditions.md R159). -/
inductive Reserved where
  /-- wide: multiply, multiply-long, swap, halfword and signed transfers (R140 item 1). -/
  | multiplySpace
  /-- wide: status-register transfer (R140 item 2). -/
  | statusTransfer
  /-- wide: undefined-instruction space (R140 item 3). -/
  | undefinedSpace
  /-- wide: block transfer (R140 item 4). -/
  | blockTransfer
  /-- wide: coprocessor data transfer (R140 item 5). -/
  | coprocessorTransfer
  /-- wide: coprocessor operation and register transfer (R140 item 5). -/
  | coprocessorOperation
  /-- narrow: register-offset load and store, formats 7 and 8 (R141). -/
  | registerOffsetTransfer
  /-- narrow: halfword and stack-pointer-relative load and store, formats 10 and 11 (R141). -/
  | halfwordOrStackTransfer
  /-- narrow: address generation, stack adjust, push and pop, formats 12, 13, 14 (R141). -/
  | addressOrPushPop
  /-- narrow: multiple load and store, format 15 (R141). -/
  | multipleTransfer
  /-- narrow: conditional branch with condition 14 (R141). -/
  | branchAlways
  /-- narrow: `h[15:11] = 11101` (R141). -/
  | branchLinkExchange
  /-- narrow: the multiply slot of N4 (R141). -/
  | multiplySlot
  /-- narrow: BX with H1 = 1 (R141). -/
  | branchExchangeHigh
  deriving DecidableEq, Repr

/-- What a pattern decodes to. -/
inductive Decoded where
  | instr (i : Instr)
  | reserved (r : Reserved)
  deriving DecidableEq, Repr

/-! ## Names and their bits -/

/-- Condition values 0..15 (40_step_and_conditions.md R153). -/
def Cond.ofBits (b : BitVec 4) : Cond :=
  match b.toNat with
  | 0 => .eq
  | 1 => .ne
  | 2 => .cs
  | 3 => .cc
  | 4 => .mi
  | 5 => .pl
  | 6 => .vs
  | 7 => .vc
  | 8 => .hi
  | 9 => .ls
  | 10 => .ge
  | 11 => .lt
  | 12 => .gt
  | 13 => .le
  | 14 => .al
  | _ => .nv

/-- The value of a condition's field. -/
def Cond.toBits : Cond → BitVec 4
  | .eq => 0#4
  | .ne => 1#4
  | .cs => 2#4
  | .cc => 3#4
  | .mi => 4#4
  | .pl => 5#4
  | .vs => 6#4
  | .vc => 7#4
  | .hi => 8#4
  | .ls => 9#4
  | .ge => 10#4
  | .lt => 11#4
  | .gt => 12#4
  | .le => 13#4
  | .al => 14#4
  | .nv => 15#4

/-- `type` of 30_encoding.md R114: 0 LSL, 1 LSR, 2 ASR, 3 ROR. -/
def ShiftType.ofBits (b : BitVec 2) : ShiftType :=
  match b.toNat with
  | 0 => .lsl
  | 1 => .lsr
  | 2 => .asr
  | _ => .ror

/-- The value of a shift type's field. -/
def ShiftType.toBits : ShiftType → BitVec 2
  | .lsl => 0#2
  | .lsr => 1#2
  | .asr => 2#2
  | .ror => 3#2

/-! ## Fields of a wide word (30_encoding.md R112 to R117) -/

/-- `cond`, bits 31:28. -/
def condOf (w : Word) : Cond := Cond.ofBits (w.extractLsb' 28 4)

/-- `Rn`, bits 19:16. -/
def fieldRn (w : Word) : Reg := w.extractLsb' 16 4

/-- `Rd`, bits 15:12. -/
def fieldRd (w : Word) : Reg := w.extractLsb' 12 4

/-- `Rm`, bits 3:0. -/
def fieldRm (w : Word) : Reg := w.extractLsb' 0 4

/-- `shamt`, bits 11:7. -/
def fieldShamt (w : Word) : BitVec 5 := w.extractLsb' 7 5

/-- `type`, bits 6:5. -/
def fieldType (w : Word) : ShiftType := ShiftType.ofBits (w.extractLsb' 5 2)

/-- `opcode` of W-DP, bits 24:21. -/
def fieldOpcode (w : Word) : Nat := (w.extractLsb' 21 4).toNat

/-- `w[24:23] = 0b10` and `w[20] = 0`: the status-register-transfer space (30_encoding.md R119, R140 item 2). -/
def isStatusTransfer (w : Word) : Bool := w.extractLsb' 23 2 == 2#2 && !w.getLsbD 20

/-! ## The wide decoder (30_encoding.md R119) -/

/-- W-DP with an immediate operand (30_encoding.md R113, R114 form `imm`). -/
def decodeDpImm (w : Word) : Instr :=
  match fieldOpcode w with
  | 0 => .wAndImm (condOf w) (w.getLsbD 20) (fieldRn w) (fieldRd w) (w.extractLsb' 8 4) (w.extractLsb' 0 8)
  | 1 => .wEorImm (condOf w) (w.getLsbD 20) (fieldRn w) (fieldRd w) (w.extractLsb' 8 4) (w.extractLsb' 0 8)
  | 2 => .wSubImm (condOf w) (w.getLsbD 20) (fieldRn w) (fieldRd w) (w.extractLsb' 8 4) (w.extractLsb' 0 8)
  | 3 => .wRsbImm (condOf w) (w.getLsbD 20) (fieldRn w) (fieldRd w) (w.extractLsb' 8 4) (w.extractLsb' 0 8)
  | 4 => .wAddImm (condOf w) (w.getLsbD 20) (fieldRn w) (fieldRd w) (w.extractLsb' 8 4) (w.extractLsb' 0 8)
  | 5 => .wAdcImm (condOf w) (w.getLsbD 20) (fieldRn w) (fieldRd w) (w.extractLsb' 8 4) (w.extractLsb' 0 8)
  | 6 => .wSbcImm (condOf w) (w.getLsbD 20) (fieldRn w) (fieldRd w) (w.extractLsb' 8 4) (w.extractLsb' 0 8)
  | 7 => .wRscImm (condOf w) (w.getLsbD 20) (fieldRn w) (fieldRd w) (w.extractLsb' 8 4) (w.extractLsb' 0 8)
  | 8 => .wTstImm (condOf w) (fieldRn w) (w.extractLsb' 8 4) (w.extractLsb' 0 8)
  | 9 => .wTeqImm (condOf w) (fieldRn w) (w.extractLsb' 8 4) (w.extractLsb' 0 8)
  | 10 => .wCmpImm (condOf w) (fieldRn w) (w.extractLsb' 8 4) (w.extractLsb' 0 8)
  | 11 => .wCmnImm (condOf w) (fieldRn w) (w.extractLsb' 8 4) (w.extractLsb' 0 8)
  | 12 => .wOrrImm (condOf w) (w.getLsbD 20) (fieldRn w) (fieldRd w) (w.extractLsb' 8 4) (w.extractLsb' 0 8)
  | 13 => .wMovImm (condOf w) (w.getLsbD 20) (fieldRd w) (w.extractLsb' 8 4) (w.extractLsb' 0 8)
  | 14 => .wBicImm (condOf w) (w.getLsbD 20) (fieldRn w) (fieldRd w) (w.extractLsb' 8 4) (w.extractLsb' 0 8)
  | _ => .wMvnImm (condOf w) (w.getLsbD 20) (fieldRd w) (w.extractLsb' 8 4) (w.extractLsb' 0 8)

/-- W-DP with a register shifted by an immediate amount (R114 form `reg-shift-imm`). -/
def decodeDpShi (w : Word) : Instr :=
  match fieldOpcode w with
  | 0 => .wAndShi (condOf w) (w.getLsbD 20) (fieldRn w) (fieldRd w) (fieldShamt w) (fieldType w) (fieldRm w)
  | 1 => .wEorShi (condOf w) (w.getLsbD 20) (fieldRn w) (fieldRd w) (fieldShamt w) (fieldType w) (fieldRm w)
  | 2 => .wSubShi (condOf w) (w.getLsbD 20) (fieldRn w) (fieldRd w) (fieldShamt w) (fieldType w) (fieldRm w)
  | 3 => .wRsbShi (condOf w) (w.getLsbD 20) (fieldRn w) (fieldRd w) (fieldShamt w) (fieldType w) (fieldRm w)
  | 4 => .wAddShi (condOf w) (w.getLsbD 20) (fieldRn w) (fieldRd w) (fieldShamt w) (fieldType w) (fieldRm w)
  | 5 => .wAdcShi (condOf w) (w.getLsbD 20) (fieldRn w) (fieldRd w) (fieldShamt w) (fieldType w) (fieldRm w)
  | 6 => .wSbcShi (condOf w) (w.getLsbD 20) (fieldRn w) (fieldRd w) (fieldShamt w) (fieldType w) (fieldRm w)
  | 7 => .wRscShi (condOf w) (w.getLsbD 20) (fieldRn w) (fieldRd w) (fieldShamt w) (fieldType w) (fieldRm w)
  | 8 => .wTstShi (condOf w) (fieldRn w) (fieldShamt w) (fieldType w) (fieldRm w)
  | 9 => .wTeqShi (condOf w) (fieldRn w) (fieldShamt w) (fieldType w) (fieldRm w)
  | 10 => .wCmpShi (condOf w) (fieldRn w) (fieldShamt w) (fieldType w) (fieldRm w)
  | 11 => .wCmnShi (condOf w) (fieldRn w) (fieldShamt w) (fieldType w) (fieldRm w)
  | 12 => .wOrrShi (condOf w) (w.getLsbD 20) (fieldRn w) (fieldRd w) (fieldShamt w) (fieldType w) (fieldRm w)
  | 13 => .wMovShi (condOf w) (w.getLsbD 20) (fieldRd w) (fieldShamt w) (fieldType w) (fieldRm w)
  | 14 => .wBicShi (condOf w) (w.getLsbD 20) (fieldRn w) (fieldRd w) (fieldShamt w) (fieldType w) (fieldRm w)
  | _ => .wMvnShi (condOf w) (w.getLsbD 20) (fieldRd w) (fieldShamt w) (fieldType w) (fieldRm w)

/-- W-DP with a register shifted by a register amount (R114 form `reg-shift-reg`). -/
def decodeDpShr (w : Word) : Instr :=
  match fieldOpcode w with
  | 0 => .wAndShr (condOf w) (w.getLsbD 20) (fieldRn w) (fieldRd w) (w.extractLsb' 8 4) (fieldType w) (fieldRm w)
  | 1 => .wEorShr (condOf w) (w.getLsbD 20) (fieldRn w) (fieldRd w) (w.extractLsb' 8 4) (fieldType w) (fieldRm w)
  | 2 => .wSubShr (condOf w) (w.getLsbD 20) (fieldRn w) (fieldRd w) (w.extractLsb' 8 4) (fieldType w) (fieldRm w)
  | 3 => .wRsbShr (condOf w) (w.getLsbD 20) (fieldRn w) (fieldRd w) (w.extractLsb' 8 4) (fieldType w) (fieldRm w)
  | 4 => .wAddShr (condOf w) (w.getLsbD 20) (fieldRn w) (fieldRd w) (w.extractLsb' 8 4) (fieldType w) (fieldRm w)
  | 5 => .wAdcShr (condOf w) (w.getLsbD 20) (fieldRn w) (fieldRd w) (w.extractLsb' 8 4) (fieldType w) (fieldRm w)
  | 6 => .wSbcShr (condOf w) (w.getLsbD 20) (fieldRn w) (fieldRd w) (w.extractLsb' 8 4) (fieldType w) (fieldRm w)
  | 7 => .wRscShr (condOf w) (w.getLsbD 20) (fieldRn w) (fieldRd w) (w.extractLsb' 8 4) (fieldType w) (fieldRm w)
  | 8 => .wTstShr (condOf w) (fieldRn w) (w.extractLsb' 8 4) (fieldType w) (fieldRm w)
  | 9 => .wTeqShr (condOf w) (fieldRn w) (w.extractLsb' 8 4) (fieldType w) (fieldRm w)
  | 10 => .wCmpShr (condOf w) (fieldRn w) (w.extractLsb' 8 4) (fieldType w) (fieldRm w)
  | 11 => .wCmnShr (condOf w) (fieldRn w) (w.extractLsb' 8 4) (fieldType w) (fieldRm w)
  | 12 => .wOrrShr (condOf w) (w.getLsbD 20) (fieldRn w) (fieldRd w) (w.extractLsb' 8 4) (fieldType w) (fieldRm w)
  | 13 => .wMovShr (condOf w) (w.getLsbD 20) (fieldRd w) (w.extractLsb' 8 4) (fieldType w) (fieldRm w)
  | 14 => .wBicShr (condOf w) (w.getLsbD 20) (fieldRn w) (fieldRd w) (w.extractLsb' 8 4) (fieldType w) (fieldRm w)
  | _ => .wMvnShr (condOf w) (w.getLsbD 20) (fieldRd w) (w.extractLsb' 8 4) (fieldType w) (fieldRm w)

/-- W-SDT with an immediate offset: (L, B) chooses LDR, STR, LDRB, STRB (R117). -/
def decodeSdtImm (w : Word) : Instr :=
  match w.getLsbD 20, w.getLsbD 22 with
  | true, false => .wLdrImm (condOf w) (w.getLsbD 24) (w.getLsbD 23) (w.getLsbD 21) (fieldRn w) (fieldRd w) (w.extractLsb' 0 12)
  | false, false => .wStrImm (condOf w) (w.getLsbD 24) (w.getLsbD 23) (w.getLsbD 21) (fieldRn w) (fieldRd w) (w.extractLsb' 0 12)
  | true, true => .wLdrbImm (condOf w) (w.getLsbD 24) (w.getLsbD 23) (w.getLsbD 21) (fieldRn w) (fieldRd w) (w.extractLsb' 0 12)
  | false, true => .wStrbImm (condOf w) (w.getLsbD 24) (w.getLsbD 23) (w.getLsbD 21) (fieldRn w) (fieldRd w) (w.extractLsb' 0 12)

/-- W-SDT with a register offset (R117). -/
def decodeSdtReg (w : Word) : Instr :=
  match w.getLsbD 20, w.getLsbD 22 with
  | true, false => .wLdrReg (condOf w) (w.getLsbD 24) (w.getLsbD 23) (w.getLsbD 21) (fieldRn w) (fieldRd w) (fieldShamt w) (fieldType w) (fieldRm w)
  | false, false => .wStrReg (condOf w) (w.getLsbD 24) (w.getLsbD 23) (w.getLsbD 21) (fieldRn w) (fieldRd w) (fieldShamt w) (fieldType w) (fieldRm w)
  | true, true => .wLdrbReg (condOf w) (w.getLsbD 24) (w.getLsbD 23) (w.getLsbD 21) (fieldRn w) (fieldRd w) (fieldShamt w) (fieldType w) (fieldRm w)
  | false, true => .wStrbReg (condOf w) (w.getLsbD 24) (w.getLsbD 23) (w.getLsbD 21) (fieldRn w) (fieldRd w) (fieldShamt w) (fieldType w) (fieldRm w)

/-- Wide decode, first matching line wins (30_encoding.md R119). -/
def decodeWide (w : Word) : Decoded :=
  if w &&& 0x0FFFFFF0#32 = 0x012FFF10#32 then .instr (.wBx (condOf w) (fieldRm w))
  else
    match (w.extractLsb' 25 3).toNat with
    | 0 =>
      if w.getLsbD 4 && w.getLsbD 7 then .reserved .multiplySpace
      else if isStatusTransfer w then .reserved .statusTransfer
      else if w.getLsbD 4 then .instr (decodeDpShr w)
      else .instr (decodeDpShi w)
    | 1 => if isStatusTransfer w then .reserved .statusTransfer else .instr (decodeDpImm w)
    | 2 => .instr (decodeSdtImm w)
    | 3 => if w.getLsbD 4 then .reserved .undefinedSpace else .instr (decodeSdtReg w)
    | 4 => .reserved .blockTransfer
    | 5 =>
      if w.getLsbD 24 then .instr (.wBl (condOf w) (w.extractLsb' 0 24))
      else .instr (.wB (condOf w) (w.extractLsb' 0 24))
    | 6 => .reserved .coprocessorTransfer
    | _ =>
      if w.getLsbD 24 then .instr (.wSwi (condOf w) (w.extractLsb' 0 24))
      else .reserved .coprocessorOperation

/-! ## Fields of a narrow halfword (30_encoding.md R120 to R127) -/

/-- A 3-bit register field names R0..R7 (30_encoding.md R120). -/
def Reg.ofLow (b : BitVec 3) : Reg := 0#1 ++ b

/-- The register field in bits 2:0. -/
def low0 (h : Half) : Reg := Reg.ofLow (h.extractLsb' 0 3)

/-- The register field in bits 5:3. -/
def low3 (h : Half) : Reg := Reg.ofLow (h.extractLsb' 3 3)

/-- The register field in bits 8:6. -/
def low6 (h : Half) : Reg := Reg.ofLow (h.extractLsb' 6 3)

/-- The register field in bits 10:8. -/
def low8 (h : Half) : Reg := Reg.ofLow (h.extractLsb' 8 3)

/-- `Rd = H1 :: Rd3` of N5 (30_encoding.md R125). -/
def highRd (h : Half) : Reg := h.extractLsb' 7 1 ++ h.extractLsb' 0 3

/-- `Rs = H2 :: Rs3` of N5 (30_encoding.md R125). -/
def highRs (h : Half) : Reg := h.extractLsb' 3 4

/-! ## The narrow decoder (30_encoding.md R131) -/

/-- N1 and N2, `h[15:13] = 000`. -/
def decodeN1N2 (h : Half) : Decoded :=
  match (h.extractLsb' 11 2).toNat with
  | 0 => .instr (.nLslImm (h.extractLsb' 6 5) (low3 h) (low0 h))
  | 1 => .instr (.nLsrImm (h.extractLsb' 6 5) (low3 h) (low0 h))
  | 2 => .instr (.nAsrImm (h.extractLsb' 6 5) (low3 h) (low0 h))
  | _ =>
    match h.getLsbD 10, h.getLsbD 9 with
    | false, false => .instr (.nAddReg (low6 h) (low3 h) (low0 h))
    | false, true => .instr (.nSubReg (low6 h) (low3 h) (low0 h))
    | true, false => .instr (.nAddImm3 (h.extractLsb' 6 3) (low3 h) (low0 h))
    | true, true => .instr (.nSubImm3 (h.extractLsb' 6 3) (low3 h) (low0 h))

/-- N3, `h[15:13] = 001`. -/
def decodeN3 (h : Half) : Decoded :=
  match (h.extractLsb' 11 2).toNat with
  | 0 => .instr (.nMovImm8 (low8 h) (h.extractLsb' 0 8))
  | 1 => .instr (.nCmpImm8 (low8 h) (h.extractLsb' 0 8))
  | 2 => .instr (.nAddImm8 (low8 h) (h.extractLsb' 0 8))
  | _ => .instr (.nSubImm8 (low8 h) (h.extractLsb' 0 8))

/-- N4, `h[15:10] = 010000`; op 13 is RESERVED. -/
def decodeN4 (h : Half) : Decoded :=
  match (h.extractLsb' 6 4).toNat with
  | 0 => .instr (.nAnd (low3 h) (low0 h))
  | 1 => .instr (.nEor (low3 h) (low0 h))
  | 2 => .instr (.nLslReg (low3 h) (low0 h))
  | 3 => .instr (.nLsrReg (low3 h) (low0 h))
  | 4 => .instr (.nAsrReg (low3 h) (low0 h))
  | 5 => .instr (.nAdc (low3 h) (low0 h))
  | 6 => .instr (.nSbc (low3 h) (low0 h))
  | 7 => .instr (.nRorReg (low3 h) (low0 h))
  | 8 => .instr (.nTst (low3 h) (low0 h))
  | 9 => .instr (.nNeg (low3 h) (low0 h))
  | 10 => .instr (.nCmpReg (low3 h) (low0 h))
  | 11 => .instr (.nCmn (low3 h) (low0 h))
  | 12 => .instr (.nOrr (low3 h) (low0 h))
  | 13 => .reserved .multiplySlot
  | 14 => .instr (.nBic (low3 h) (low0 h))
  | _ => .instr (.nMvn (low3 h) (low0 h))

/-- N5, `h[15:10] = 010001`; BX with H1 = 1 is RESERVED. -/
def decodeN5 (h : Half) : Decoded :=
  match (h.extractLsb' 8 2).toNat with
  | 0 => .instr (.nAddHigh (highRs h) (highRd h))
  | 1 => .instr (.nCmpHigh (highRs h) (highRd h))
  | 2 => .instr (.nMovHigh (highRs h) (highRd h))
  | _ => if h.getLsbD 7 then .reserved .branchExchangeHigh else .instr (.nBx (highRs h))

/-- N9, `h[15:13] = 011`: (B, L) chooses STR, LDR, STRB, LDRB (30_encoding.md R126). -/
def decodeN9 (h : Half) : Decoded :=
  match h.getLsbD 12, h.getLsbD 11 with
  | false, false => .instr (.nStrImm (h.extractLsb' 6 5) (low3 h) (low0 h))
  | false, true => .instr (.nLdrImm (h.extractLsb' 6 5) (low3 h) (low0 h))
  | true, false => .instr (.nStrbImm (h.extractLsb' 6 5) (low3 h) (low0 h))
  | true, true => .instr (.nLdrbImm (h.extractLsb' 6 5) (low3 h) (low0 h))

/-- N16 and N17, `h[15:12] = 1101`: conditions 0..13 branch, 14 is RESERVED, 15 is SWI. -/
def decodeN16N17 (h : Half) : Decoded :=
  match (h.extractLsb' 8 4).toNat with
  | 0 => .instr (.nBeq (h.extractLsb' 0 8))
  | 1 => .instr (.nBne (h.extractLsb' 0 8))
  | 2 => .instr (.nBcs (h.extractLsb' 0 8))
  | 3 => .instr (.nBcc (h.extractLsb' 0 8))
  | 4 => .instr (.nBmi (h.extractLsb' 0 8))
  | 5 => .instr (.nBpl (h.extractLsb' 0 8))
  | 6 => .instr (.nBvs (h.extractLsb' 0 8))
  | 7 => .instr (.nBvc (h.extractLsb' 0 8))
  | 8 => .instr (.nBhi (h.extractLsb' 0 8))
  | 9 => .instr (.nBls (h.extractLsb' 0 8))
  | 10 => .instr (.nBge (h.extractLsb' 0 8))
  | 11 => .instr (.nBlt (h.extractLsb' 0 8))
  | 12 => .instr (.nBgt (h.extractLsb' 0 8))
  | 13 => .instr (.nBle (h.extractLsb' 0 8))
  | 14 => .reserved .branchAlways
  | _ => .instr (.nSwi (h.extractLsb' 0 8))

/-- N18 and N19, `h[15:13] = 111`. -/
def decodeN18N19 (h : Half) : Decoded :=
  match (h.extractLsb' 11 2).toNat with
  | 0 => .instr (.nB (h.extractLsb' 0 11))
  | 1 => .reserved .branchLinkExchange
  | 2 => .instr (.nBlPrefix (h.extractLsb' 0 11))
  | _ => .instr (.nBlSuffix (h.extractLsb' 0 11))

/-- Narrow decode (30_encoding.md R131). -/
def decodeNarrow (h : Half) : Decoded :=
  match (h.extractLsb' 13 3).toNat with
  | 0 => decodeN1N2 h
  | 1 => decodeN3 h
  | 2 =>
    if h.getLsbD 12 then .reserved .registerOffsetTransfer
    else if h.getLsbD 11 then .instr (.nLdrPc (low8 h) (h.extractLsb' 0 8))
    else if h.getLsbD 10 then decodeN5 h
    else decodeN4 h
  | 3 => decodeN9 h
  | 4 => .reserved .halfwordOrStackTransfer
  | 5 => .reserved .addressOrPushPop
  | 6 => if h.getLsbD 12 then decodeN16N17 h else .reserved .multipleTransfer
  | _ => decodeN18N19 h

/-! ## Decoding what was fetched, and decoding bytes -/

/-- The decoder the width flag selects (30_encoding.md R110). -/
def decode : CodeUnit → Decoded
  | .wide w => decodeWide w
  | .narrow h => decodeNarrow h

/-- Decode the instruction at the front of a list of bytes, lowest address first, little-endian (20_memory.md R67), with the
bytes after it. `none`: fewer bytes than the width needs. -/
def decodeBytes : Bool → List Byte → Option (Decoded × List Byte)
  | false, b0 :: b1 :: b2 :: b3 :: rest => some (decode (.wide (b3 ++ b2 ++ b1 ++ b0)), rest)
  | true, b0 :: b1 :: rest => some (decode (.narrow (b1 ++ b0)), rest)
  | _, _ => none

/-- The four bytes of a number, lowest first. -/
def littleBytes (n : Nat) : List Byte :=
  [BitVec.ofNat 8 n, BitVec.ofNat 8 (n / 0x100), BitVec.ofNat 8 (n / 0x10000), BitVec.ofNat 8 (n / 0x1000000)]

/-- The instruction the decoder reads from an opcode-table word of `nbits` bits: 16 bits is a narrow instruction, more a wide
one; the bits above `nbits` are 0. -/
def decodeTableWord (nbits w : Nat) : Option Instr :=
  match decodeBytes (decide (nbits ≤ 16)) (littleBytes (w % 2 ^ nbits)) with
  | some (.instr i, _) => some i
  | _ => none

/-! ## The encoder -/

/-- W-DP `imm` (30_encoding.md R113, R114). -/
def dpImmWord (c : Cond) (op : BitVec 4) (sf : Bool) (rn rd : Reg) (rot : BitVec 4) (imm8 : BitVec 8) : Word :=
  c.toBits ++ 0b001#3 ++ op ++ BitVec.ofBool sf ++ rn ++ rd ++ rot ++ imm8

/-- W-DP `reg-shift-imm` (R113, R114). -/
def dpShiWord (c : Cond) (op : BitVec 4) (sf : Bool) (rn rd : Reg) (shamt : BitVec 5) (ty : ShiftType) (rm : Reg) : Word :=
  c.toBits ++ 0b000#3 ++ op ++ BitVec.ofBool sf ++ rn ++ rd ++ shamt ++ ty.toBits ++ 0#1 ++ rm

/-- W-DP `reg-shift-reg` (R113, R114). -/
def dpShrWord (c : Cond) (op : BitVec 4) (sf : Bool) (rn rd rs : Reg) (ty : ShiftType) (rm : Reg) : Word :=
  c.toBits ++ 0b000#3 ++ op ++ BitVec.ofBool sf ++ rn ++ rd ++ rs ++ 0#1 ++ ty.toBits ++ 1#1 ++ rm

/-- W-B (R116): `l` is the L bit. -/
def branchWord (c : Cond) (l : Bool) (imm24 : BitVec 24) : Word :=
  c.toBits ++ 0b101#3 ++ BitVec.ofBool l ++ imm24

/-- W-BX (R115). -/
def bxWord (c : Cond) (rm : Reg) : Word := c.toBits ++ 0x12FFF1#24 ++ rm

/-- W-SWI (R117). -/
def swiWord (c : Cond) (comment24 : BitVec 24) : Word := c.toBits ++ 0b1111#4 ++ comment24

/-- W-SDT, immediate offset (R117): `b` byte, `l` load. -/
def sdtImmWord (c : Cond) (p u b w l : Bool) (rn rd : Reg) (imm12 : BitVec 12) : Word :=
  c.toBits ++ 0b010#3 ++ BitVec.ofBool p ++ BitVec.ofBool u ++ BitVec.ofBool b ++ BitVec.ofBool w ++ BitVec.ofBool l
    ++ rn ++ rd ++ imm12

/-- W-SDT, register offset (R117). -/
def sdtRegWord (c : Cond) (p u b w l : Bool) (rn rd : Reg) (shamt : BitVec 5) (ty : ShiftType) (rm : Reg) : Word :=
  c.toBits ++ 0b011#3 ++ BitVec.ofBool p ++ BitVec.ofBool u ++ BitVec.ofBool b ++ BitVec.ofBool w ++ BitVec.ofBool l
    ++ rn ++ rd ++ shamt ++ ty.toBits ++ 0#1 ++ rm

/-- The 3-bit field of a low register. -/
def Reg.low (r : Reg) : BitVec 3 := r.extractLsb' 0 3

/-- N1 (30_encoding.md R121). -/
def n1Half (op : BitVec 2) (imm5 : BitVec 5) (rs rd : Reg) : Half := 0b000#3 ++ op ++ imm5 ++ rs.low ++ rd.low

/-- N2 (R122): `f` is Rn or imm3. -/
def n2Half (i op : BitVec 1) (f : BitVec 3) (rs rd : Reg) : Half := 0b00011#5 ++ i ++ op ++ f ++ rs.low ++ rd.low

/-- N3 (R123). -/
def n3Half (op : BitVec 2) (rd : Reg) (imm8 : BitVec 8) : Half := 0b001#3 ++ op ++ rd.low ++ imm8

/-- N4 (R124). -/
def n4Half (op : BitVec 4) (rs rd : Reg) : Half := 0b010000#6 ++ op ++ rs.low ++ rd.low

/-- N5 (R125): H1 is the top bit of Rd, H2 the top bit of Rs. -/
def n5Half (op : BitVec 2) (rs rd : Reg) : Half := 0b010001#6 ++ op ++ rd.extractLsb' 3 1 ++ rs ++ rd.extractLsb' 0 3

/-- N6 (R126). -/
def n6Half (rd : Reg) (imm8 : BitVec 8) : Half := 0b01001#5 ++ rd.low ++ imm8

/-- N9 (R126): `b` byte, `l` load. -/
def n9Half (b l : BitVec 1) (imm5 : BitVec 5) (rb rd : Reg) : Half := 0b011#3 ++ b ++ l ++ imm5 ++ rb.low ++ rd.low

/-- N16 and N17 (R127): condition 0..13, or 15 for SWI. -/
def n16Half (cond : BitVec 4) (low : BitVec 8) : Half := 0b1101#4 ++ cond ++ low

/-- N18 and N19 (R127): `hi` is `h[15:11]`. -/
def n18Half (hi : BitVec 5) (off11 : BitVec 11) : Half := hi ++ off11

/-- The encoding of a well-formed instruction (30_encoding.md R113 to R127). Ignored fields are written 0 (log 7). -/
def encode : Instr → CodeUnit
  | .wAndImm c sf rn rd rot imm8 => .wide (dpImmWord c 0#4 sf rn rd rot imm8)
  | .wEorImm c sf rn rd rot imm8 => .wide (dpImmWord c 1#4 sf rn rd rot imm8)
  | .wSubImm c sf rn rd rot imm8 => .wide (dpImmWord c 2#4 sf rn rd rot imm8)
  | .wRsbImm c sf rn rd rot imm8 => .wide (dpImmWord c 3#4 sf rn rd rot imm8)
  | .wAddImm c sf rn rd rot imm8 => .wide (dpImmWord c 4#4 sf rn rd rot imm8)
  | .wAdcImm c sf rn rd rot imm8 => .wide (dpImmWord c 5#4 sf rn rd rot imm8)
  | .wSbcImm c sf rn rd rot imm8 => .wide (dpImmWord c 6#4 sf rn rd rot imm8)
  | .wRscImm c sf rn rd rot imm8 => .wide (dpImmWord c 7#4 sf rn rd rot imm8)
  | .wTstImm c rn rot imm8 => .wide (dpImmWord c 8#4 true rn 0#4 rot imm8)
  | .wTeqImm c rn rot imm8 => .wide (dpImmWord c 9#4 true rn 0#4 rot imm8)
  | .wCmpImm c rn rot imm8 => .wide (dpImmWord c 10#4 true rn 0#4 rot imm8)
  | .wCmnImm c rn rot imm8 => .wide (dpImmWord c 11#4 true rn 0#4 rot imm8)
  | .wOrrImm c sf rn rd rot imm8 => .wide (dpImmWord c 12#4 sf rn rd rot imm8)
  | .wMovImm c sf rd rot imm8 => .wide (dpImmWord c 13#4 sf 0#4 rd rot imm8)
  | .wBicImm c sf rn rd rot imm8 => .wide (dpImmWord c 14#4 sf rn rd rot imm8)
  | .wMvnImm c sf rd rot imm8 => .wide (dpImmWord c 15#4 sf 0#4 rd rot imm8)
  | .wAndShi c sf rn rd shamt ty rm => .wide (dpShiWord c 0#4 sf rn rd shamt ty rm)
  | .wEorShi c sf rn rd shamt ty rm => .wide (dpShiWord c 1#4 sf rn rd shamt ty rm)
  | .wSubShi c sf rn rd shamt ty rm => .wide (dpShiWord c 2#4 sf rn rd shamt ty rm)
  | .wRsbShi c sf rn rd shamt ty rm => .wide (dpShiWord c 3#4 sf rn rd shamt ty rm)
  | .wAddShi c sf rn rd shamt ty rm => .wide (dpShiWord c 4#4 sf rn rd shamt ty rm)
  | .wAdcShi c sf rn rd shamt ty rm => .wide (dpShiWord c 5#4 sf rn rd shamt ty rm)
  | .wSbcShi c sf rn rd shamt ty rm => .wide (dpShiWord c 6#4 sf rn rd shamt ty rm)
  | .wRscShi c sf rn rd shamt ty rm => .wide (dpShiWord c 7#4 sf rn rd shamt ty rm)
  | .wTstShi c rn shamt ty rm => .wide (dpShiWord c 8#4 true rn 0#4 shamt ty rm)
  | .wTeqShi c rn shamt ty rm => .wide (dpShiWord c 9#4 true rn 0#4 shamt ty rm)
  | .wCmpShi c rn shamt ty rm => .wide (dpShiWord c 10#4 true rn 0#4 shamt ty rm)
  | .wCmnShi c rn shamt ty rm => .wide (dpShiWord c 11#4 true rn 0#4 shamt ty rm)
  | .wOrrShi c sf rn rd shamt ty rm => .wide (dpShiWord c 12#4 sf rn rd shamt ty rm)
  | .wMovShi c sf rd shamt ty rm => .wide (dpShiWord c 13#4 sf 0#4 rd shamt ty rm)
  | .wBicShi c sf rn rd shamt ty rm => .wide (dpShiWord c 14#4 sf rn rd shamt ty rm)
  | .wMvnShi c sf rd shamt ty rm => .wide (dpShiWord c 15#4 sf 0#4 rd shamt ty rm)
  | .wAndShr c sf rn rd rs ty rm => .wide (dpShrWord c 0#4 sf rn rd rs ty rm)
  | .wEorShr c sf rn rd rs ty rm => .wide (dpShrWord c 1#4 sf rn rd rs ty rm)
  | .wSubShr c sf rn rd rs ty rm => .wide (dpShrWord c 2#4 sf rn rd rs ty rm)
  | .wRsbShr c sf rn rd rs ty rm => .wide (dpShrWord c 3#4 sf rn rd rs ty rm)
  | .wAddShr c sf rn rd rs ty rm => .wide (dpShrWord c 4#4 sf rn rd rs ty rm)
  | .wAdcShr c sf rn rd rs ty rm => .wide (dpShrWord c 5#4 sf rn rd rs ty rm)
  | .wSbcShr c sf rn rd rs ty rm => .wide (dpShrWord c 6#4 sf rn rd rs ty rm)
  | .wRscShr c sf rn rd rs ty rm => .wide (dpShrWord c 7#4 sf rn rd rs ty rm)
  | .wTstShr c rn rs ty rm => .wide (dpShrWord c 8#4 true rn 0#4 rs ty rm)
  | .wTeqShr c rn rs ty rm => .wide (dpShrWord c 9#4 true rn 0#4 rs ty rm)
  | .wCmpShr c rn rs ty rm => .wide (dpShrWord c 10#4 true rn 0#4 rs ty rm)
  | .wCmnShr c rn rs ty rm => .wide (dpShrWord c 11#4 true rn 0#4 rs ty rm)
  | .wOrrShr c sf rn rd rs ty rm => .wide (dpShrWord c 12#4 sf rn rd rs ty rm)
  | .wMovShr c sf rd rs ty rm => .wide (dpShrWord c 13#4 sf 0#4 rd rs ty rm)
  | .wBicShr c sf rn rd rs ty rm => .wide (dpShrWord c 14#4 sf rn rd rs ty rm)
  | .wMvnShr c sf rd rs ty rm => .wide (dpShrWord c 15#4 sf 0#4 rd rs ty rm)
  | .wB c imm24 => .wide (branchWord c false imm24)
  | .wBl c imm24 => .wide (branchWord c true imm24)
  | .wBx c rm => .wide (bxWord c rm)
  | .wSwi c comment24 => .wide (swiWord c comment24)
  | .wLdrImm c p u w rn rd imm12 => .wide (sdtImmWord c p u false w true rn rd imm12)
  | .wLdrReg c p u w rn rd shamt ty rm => .wide (sdtRegWord c p u false w true rn rd shamt ty rm)
  | .wStrImm c p u w rn rd imm12 => .wide (sdtImmWord c p u false w false rn rd imm12)
  | .wStrReg c p u w rn rd shamt ty rm => .wide (sdtRegWord c p u false w false rn rd shamt ty rm)
  | .wLdrbImm c p u w rn rd imm12 => .wide (sdtImmWord c p u true w true rn rd imm12)
  | .wLdrbReg c p u w rn rd shamt ty rm => .wide (sdtRegWord c p u true w true rn rd shamt ty rm)
  | .wStrbImm c p u w rn rd imm12 => .wide (sdtImmWord c p u true w false rn rd imm12)
  | .wStrbReg c p u w rn rd shamt ty rm => .wide (sdtRegWord c p u true w false rn rd shamt ty rm)
  | .nLslImm imm5 rs rd => .narrow (n1Half 0#2 imm5 rs rd)
  | .nLsrImm imm5 rs rd => .narrow (n1Half 1#2 imm5 rs rd)
  | .nAsrImm imm5 rs rd => .narrow (n1Half 2#2 imm5 rs rd)
  | .nAddReg rn rs rd => .narrow (n2Half 0#1 0#1 rn.low rs rd)
  | .nSubReg rn rs rd => .narrow (n2Half 0#1 1#1 rn.low rs rd)
  | .nAddImm3 imm3 rs rd => .narrow (n2Half 1#1 0#1 imm3 rs rd)
  | .nSubImm3 imm3 rs rd => .narrow (n2Half 1#1 1#1 imm3 rs rd)
  | .nMovImm8 rd imm8 => .narrow (n3Half 0#2 rd imm8)
  | .nCmpImm8 rd imm8 => .narrow (n3Half 1#2 rd imm8)
  | .nAddImm8 rd imm8 => .narrow (n3Half 2#2 rd imm8)
  | .nSubImm8 rd imm8 => .narrow (n3Half 3#2 rd imm8)
  | .nAnd rs rd => .narrow (n4Half 0#4 rs rd)
  | .nEor rs rd => .narrow (n4Half 1#4 rs rd)
  | .nLslReg rs rd => .narrow (n4Half 2#4 rs rd)
  | .nLsrReg rs rd => .narrow (n4Half 3#4 rs rd)
  | .nAsrReg rs rd => .narrow (n4Half 4#4 rs rd)
  | .nAdc rs rd => .narrow (n4Half 5#4 rs rd)
  | .nSbc rs rd => .narrow (n4Half 6#4 rs rd)
  | .nRorReg rs rd => .narrow (n4Half 7#4 rs rd)
  | .nTst rs rd => .narrow (n4Half 8#4 rs rd)
  | .nNeg rs rd => .narrow (n4Half 9#4 rs rd)
  | .nCmpReg rs rd => .narrow (n4Half 10#4 rs rd)
  | .nCmn rs rd => .narrow (n4Half 11#4 rs rd)
  | .nOrr rs rd => .narrow (n4Half 12#4 rs rd)
  | .nBic rs rd => .narrow (n4Half 14#4 rs rd)
  | .nMvn rs rd => .narrow (n4Half 15#4 rs rd)
  | .nAddHigh rs rd => .narrow (n5Half 0#2 rs rd)
  | .nCmpHigh rs rd => .narrow (n5Half 1#2 rs rd)
  | .nMovHigh rs rd => .narrow (n5Half 2#2 rs rd)
  | .nBx rs => .narrow (n5Half 3#2 rs 0#4)
  | .nLdrPc rd imm8 => .narrow (n6Half rd imm8)
  | .nStrImm imm5 rb rd => .narrow (n9Half 0#1 0#1 imm5 rb rd)
  | .nLdrImm imm5 rb rd => .narrow (n9Half 0#1 1#1 imm5 rb rd)
  | .nStrbImm imm5 rb rd => .narrow (n9Half 1#1 0#1 imm5 rb rd)
  | .nLdrbImm imm5 rb rd => .narrow (n9Half 1#1 1#1 imm5 rb rd)
  | .nBeq soff8 => .narrow (n16Half 0#4 soff8)
  | .nBne soff8 => .narrow (n16Half 1#4 soff8)
  | .nBcs soff8 => .narrow (n16Half 2#4 soff8)
  | .nBcc soff8 => .narrow (n16Half 3#4 soff8)
  | .nBmi soff8 => .narrow (n16Half 4#4 soff8)
  | .nBpl soff8 => .narrow (n16Half 5#4 soff8)
  | .nBvs soff8 => .narrow (n16Half 6#4 soff8)
  | .nBvc soff8 => .narrow (n16Half 7#4 soff8)
  | .nBhi soff8 => .narrow (n16Half 8#4 soff8)
  | .nBls soff8 => .narrow (n16Half 9#4 soff8)
  | .nBge soff8 => .narrow (n16Half 10#4 soff8)
  | .nBlt soff8 => .narrow (n16Half 11#4 soff8)
  | .nBgt soff8 => .narrow (n16Half 12#4 soff8)
  | .nBle soff8 => .narrow (n16Half 13#4 soff8)
  | .nSwi comment8 => .narrow (n16Half 15#4 comment8)
  | .nB off11 => .narrow (n18Half 0b11100#5 off11)
  | .nBlPrefix off11 => .narrow (n18Half 0b11110#5 off11)
  | .nBlSuffix off11 => .narrow (n18Half 0b11111#5 off11)

/-- The bytes of a code unit, lowest address first (20_memory.md R67). -/
def CodeUnit.toBytes : CodeUnit → List Byte
  | .wide w => [w.extractLsb' 0 8, w.extractLsb' 8 8, w.extractLsb' 16 8, w.extractLsb' 24 8]
  | .narrow h => [h.extractLsb' 0 8, h.extractLsb' 8 8]

end Sys2Proof
end

