-- ==== Sys2Proof/Config.lean ====
section
/-! DEFINITION. What the spec fixes once for the machine (geometry, timing, colours) and its two OPEN parameters, which
are constants without a body: nothing can be proved of their values but their type (00_scope.md R9, R10). -/

namespace Sys2Proof.Config

/-- `STEP_CYCLES` less one. OPEN (00_scope.md R10, 93_implementation_defined.md U4; log 1): no body. -/
opaque stepCyclesLessOne : Nat

/-- `STEP_CYCLES`, the cost of every step: a natural number >= 1 (00_scope.md R10, 40_step_and_conditions.md R157). -/
def stepCycles : Nat := stepCyclesLessOne + 1

/-- `open_bus(addr, 1)`. OPEN (20_memory.md R76; log 2): no body. -/
opaque openBusByte : Word → Byte

/-- `open_bus(addr, 2)`. OPEN (20_memory.md R76; log 2): no body. -/
opaque openBusHalf : Word → Half

/-- `open_bus(addr, 4)`. OPEN (20_memory.md R76; log 2): no body. -/
opaque openBusWord : Word → Word

/-- `open_bus(addr, n)` as a 32-bit value: it is below `2^(8n)` by the type of the constant it comes from. -/
def openBus (a : Word) : Width → Word
  | .byte => (openBusByte a).setWidth 32
  | .half => (openBusHalf a).setWidth 32
  | .word => openBusWord a

/-- `LINE_CYCLES`, cycles per scanline (48_video_timing_unit.md R311). -/
abbrev lineCycles : Nat := 1232

/-- `LINES`, scanlines per frame (48_video_timing_unit.md R311). -/
abbrev lines : Nat := 228

/-- `VIS_W`, visible width in pixels (48_video_timing_unit.md R311). -/
abbrev visW : Nat := 240

/-- `VIS_H`, visible height in lines (48_video_timing_unit.md R311). -/
abbrev visH : Nat := 160

end Sys2Proof.Config
end

