-- ==== Sys2Proof/Machine/State.lean ====
section
/-! DEFINITION. The complete state of the hardware (10_state.md R20), as plain data, the reasons a step can stop, and the state
after reset. -/

namespace Sys2Proof.Machine

/-- The six banks (10_state.md R22, R23). -/
inductive Bank where
  | usr | fiq | irq | svc | abt | und
  deriving DecidableEq, Repr

/-- The 31 physical general registers (10_state.md R22). -/
inductive PhysReg where
  | r0 | r1 | r2 | r3 | r4 | r5 | r6 | r7
  | r8usr | r9usr | r10usr | r11usr | r12usr
  | r8fiq | r9fiq | r10fiq | r11fiq | r12fiq
  | r13usr | r14usr | r13fiq | r14fiq | r13irq | r14irq
  | r13svc | r14svc | r13abt | r14abt | r13und | r14und
  | pc
  deriving DecidableEq, Repr

/-- The 31 physical general registers, each under its own name (10_state.md R22). -/
structure RegFile where
  r0 : Word
  r1 : Word
  r2 : Word
  r3 : Word
  r4 : Word
  r5 : Word
  r6 : Word
  r7 : Word
  r8usr : Word
  r9usr : Word
  r10usr : Word
  r11usr : Word
  r12usr : Word
  r8fiq : Word
  r9fiq : Word
  r10fiq : Word
  r11fiq : Word
  r12fiq : Word
  r13usr : Word
  r14usr : Word
  r13fiq : Word
  r14fiq : Word
  r13irq : Word
  r14irq : Word
  r13svc : Word
  r14svc : Word
  r13abt : Word
  r14abt : Word
  r13und : Word
  r14und : Word
  pc : Word
  deriving DecidableEq, Repr

/-- Every general register 0, and `pc` 0: the base of the boot region (10_state.md R46). -/
def RegFile.zero : RegFile :=
  { r0 := 0, r1 := 0, r2 := 0, r3 := 0, r4 := 0, r5 := 0, r6 := 0, r7 := 0
    r8usr := 0, r9usr := 0, r10usr := 0, r11usr := 0, r12usr := 0
    r8fiq := 0, r9fiq := 0, r10fiq := 0, r11fiq := 0, r12fiq := 0
    r13usr := 0, r14usr := 0, r13fiq := 0, r14fiq := 0, r13irq := 0, r14irq := 0
    r13svc := 0, r14svc := 0, r13abt := 0, r14abt := 0, r13und := 0, r14und := 0
    pc := 0 }

/-- The five saved-status registers (10_state.md R37). -/
structure SpsrFile where
  fiq : Word
  irq : Word
  svc : Word
  abt : Word
  und : Word
  deriving DecidableEq, Repr

/-- Every saved-status register 0 (10_state.md R46). -/
def SpsrFile.zero : SpsrFile := { fiq := 0, irq := 0, svc := 0, abt := 0, und := 0 }

/-- The images the host can load (20_memory.md R90). -/
inductive Image where
  | boot | cartridge | save
  deriving DecidableEq, Repr

/-- An entry of the warning log (20_memory.md R90). -/
inductive Warning where
  /-- the original unmasked address and the width -/
  | misaligned (addr : Word) (n : Width)
  /-- the aligned address and the width -/
  | unmapped (addr : Word) (n : Width)
  /-- the aligned address and the width -/
  | outOfBounds (addr : Word) (n : Width)
  /-- the aligned address and the width -/
  | illegalWrite (addr : Word) (n : Width)
  /-- which image, the bytes supplied, the bytes kept -/
  | oversizeImage (which : Image) (given kept : Nat)
  deriving DecidableEq, Repr

/-- A frame-buffer cell: a triple of 8-bit channels (48_video_timing_unit.md R311, R322). -/
structure Pixel where
  r : Byte
  g : Byte
  b : Byte
  deriving DecidableEq, Repr

/-- One row of the frame buffer: 240 cells. -/
abbrev Row := Vector Pixel Config.visW

/-- The frame buffer: 160 rows of 240 cells; cell (x, y) is the one the spec writes `fb[y*240 + x]` (R323; log 11). -/
abbrev FrameBuffer := Vector Row Config.visH

/-- The Video Timing Unit's own state (10_state.md R43). -/
structure Vtu where
  /-- scanline index, 0..227 -/
  line : Nat
  /-- intra-scanline cycle accumulator, 0..1231 between steps -/
  acc : Nat
  /-- completed frames -/
  frame : Nat
  /-- rendered cells -/
  fb : FrameBuffer
  deriving DecidableEq, Repr

/-- `line`, `acc`, `frame` 0 and every cell (0, 0, 0) (10_state.md R46). -/
def Vtu.zero : Vtu :=
  { line := 0, acc := 0, frame := 0
    fb := Vector.replicate Config.visH (Vector.replicate Config.visW { r := 0, g := 0, b := 0 }) }

/-- The bytes of the nine region buffers as (bus address, byte) pairs in ONE canonical form: addresses strictly rising, no entry
equal to what an unlisted address reads as (`unlistedByte` in Machine/Ops.lean; log 5, log 6). -/
abbrev Memory := List Host.Cell

/-- The complete state of the hardware (10_state.md R20). -/
structure State where
  /-- the 31 physical general registers, `pc` among them (R22) -/
  regs : RegFile
  /-- the status register (R30, R31) -/
  cpsr : Word
  /-- the saved-status registers (R37) -/
  spsr : SpsrFile
  /-- the sum of the costs of every step since reset (R45) -/
  cycles : Nat
  /-- the bytes of the nine region buffers (R41) -/
  mem : Memory
  /-- `CART_LEN` (R41) -/
  cartLen : Nat
  /-- the warning log, oldest entry first (R45) -/
  warnings : List Warning
  /-- the Video Timing Unit (R43) -/
  vtu : Vtu
  /-- the input latch's button mask (R44) -/
  buttons : BitVec 16
  deriving DecidableEq, Repr

/-- Reasons a step stops with a fault: none. "No behaviour of this hardware is `fault` or `stuck`" (93_implementation_defined.md
section 1; 60_exceptions.md R370): nothing raises one, so the type has no constructor (log 9). -/
inductive Fault where
  deriving DecidableEq, Repr

/-- Reasons something is refused. -/
inductive Refusal where
  /-- Raised by `exec` alone, for an instruction that has no meaning yet; no arm of this model uses it. Safe: the run stops. -/
  | notModelled (mnemonic : String)
  /-- Raised by `portStep` alone, never by an instruction or a step: a host call outside the domain of its operation is refused at
  the boundary and leaves the state unchanged (49_input_latch_and_host.md R358; 93_implementation_defined.md U2, U7). Safe: no
  behaviour is claimed for such a call. -/
  | contractViolation (operation : String)
  deriving DecidableEq, Repr

/-- The result of an instruction, a step or a host call. -/
abbrev Outcome := Host.Outcome State Fault Refusal

/-- `CPSR` after reset: N = Z = C = V = 0, bits 27:8 = 0, I = F = 1, T = 0, M = system (10_state.md R46). -/
def resetCpsr : Word := 0x000000DF#32

/-- The machine right after power-on, which is construction followed by `reset()` (10_state.md R46, R47; 70_reset_and_hazards.md
R405): no memory byte listed, no cartridge, no warning, no button held. -/
def State.reset : State :=
  { regs := RegFile.zero, cpsr := resetCpsr, spsr := SpsrFile.zero, cycles := 0, mem := [], cartLen := 0, warnings := []
    vtu := Vtu.zero, buttons := 0 }

end Sys2Proof.Machine
end

