-- ==== Sys2Proof/Machine/Ops.lean ====
section
/-! DEFINITION. The named operations over registers, the status register, memory and the bus. Every read and write of a register
goes through the banking rule here, and every access of the processor and the host to memory through `memRead` and `memWrite`. No
operation takes an exception, because the hardware takes none (60_exceptions.md R370, R377, R378). -/

namespace Sys2Proof.Machine

/-! ## General registers (10_state.md R22 to R24) -/

/-- The value of a physical register. -/
def RegFile.get (f : RegFile) : PhysReg → Word
  | .r0 => f.r0
  | .r1 => f.r1
  | .r2 => f.r2
  | .r3 => f.r3
  | .r4 => f.r4
  | .r5 => f.r5
  | .r6 => f.r6
  | .r7 => f.r7
  | .r8usr => f.r8usr
  | .r9usr => f.r9usr
  | .r10usr => f.r10usr
  | .r11usr => f.r11usr
  | .r12usr => f.r12usr
  | .r8fiq => f.r8fiq
  | .r9fiq => f.r9fiq
  | .r10fiq => f.r10fiq
  | .r11fiq => f.r11fiq
  | .r12fiq => f.r12fiq
  | .r13usr => f.r13usr
  | .r14usr => f.r14usr
  | .r13fiq => f.r13fiq
  | .r14fiq => f.r14fiq
  | .r13irq => f.r13irq
  | .r14irq => f.r14irq
  | .r13svc => f.r13svc
  | .r14svc => f.r14svc
  | .r13abt => f.r13abt
  | .r14abt => f.r14abt
  | .r13und => f.r13und
  | .r14und => f.r14und
  | .pc => f.pc

/-- Write a physical register. -/
def RegFile.set (f : RegFile) (p : PhysReg) (v : Word) : RegFile :=
  match p with
  | .r0 => { f with r0 := v }
  | .r1 => { f with r1 := v }
  | .r2 => { f with r2 := v }
  | .r3 => { f with r3 := v }
  | .r4 => { f with r4 := v }
  | .r5 => { f with r5 := v }
  | .r6 => { f with r6 := v }
  | .r7 => { f with r7 := v }
  | .r8usr => { f with r8usr := v }
  | .r9usr => { f with r9usr := v }
  | .r10usr => { f with r10usr := v }
  | .r11usr => { f with r11usr := v }
  | .r12usr => { f with r12usr := v }
  | .r8fiq => { f with r8fiq := v }
  | .r9fiq => { f with r9fiq := v }
  | .r10fiq => { f with r10fiq := v }
  | .r11fiq => { f with r11fiq := v }
  | .r12fiq => { f with r12fiq := v }
  | .r13usr => { f with r13usr := v }
  | .r14usr => { f with r14usr := v }
  | .r13fiq => { f with r13fiq := v }
  | .r14fiq => { f with r14fiq := v }
  | .r13irq => { f with r13irq := v }
  | .r14irq => { f with r14irq := v }
  | .r13svc => { f with r13svc := v }
  | .r14svc => { f with r14svc := v }
  | .r13abt => { f with r13abt := v }
  | .r14abt => { f with r14abt := v }
  | .r13und => { f with r13und := v }
  | .r14und => { f with r14und := v }
  | .pc => { f with pc := v }

/-- The bank a mode value selects; every value not listed selects `usr` (10_state.md R23). -/
def bankOf (m : BitVec 5) : Bank :=
  match m.toNat with
  | 0b10001 => .fiq
  | 0b10010 => .irq
  | 0b10011 => .svc
  | 0b10111 => .abt
  | 0b11011 => .und
  | _ => .usr

/-- R13 of a bank. -/
def physSp : Bank → PhysReg
  | .usr => .r13usr
  | .fiq => .r13fiq
  | .irq => .r13irq
  | .svc => .r13svc
  | .abt => .r13abt
  | .und => .r13und

/-- R14 of a bank. -/
def physLr : Bank → PhysReg
  | .usr => .r14usr
  | .fiq => .r14fiq
  | .irq => .r14irq
  | .svc => .r14svc
  | .abt => .r14abt
  | .und => .r14und

/-- The banking rule: the physical register that index `r` names in bank `b` (10_state.md R24). -/
def phys (b : Bank) (r : Reg) : PhysReg :=
  match r.toNat with
  | 0 => .r0
  | 1 => .r1
  | 2 => .r2
  | 3 => .r3
  | 4 => .r4
  | 5 => .r5
  | 6 => .r6
  | 7 => .r7
  | 8 => if b = .fiq then .r8fiq else .r8usr
  | 9 => if b = .fiq then .r9fiq else .r9usr
  | 10 => if b = .fiq then .r10fiq else .r10usr
  | 11 => if b = .fiq then .r11fiq else .r11usr
  | 12 => if b = .fiq then .r12fiq else .r12usr
  | 13 => physSp b
  | 14 => physLr b
  | _ => .pc

/-! ## The status register (10_state.md R30, R31) -/

/-- Put `b` in bit `i` of `w`. -/
def setBit (w : Word) (i : Nat) (b : Bool) : Word :=
  (w &&& ~~~(1#32 <<< i)) ||| ((BitVec.ofBool b).setWidth 32 <<< i)

/-- N, bit 31. -/
def State.flagN (s : State) : Bool := s.cpsr.getLsbD 31

/-- Z, bit 30. -/
def State.flagZ (s : State) : Bool := s.cpsr.getLsbD 30

/-- C, bit 29. -/
def State.flagC (s : State) : Bool := s.cpsr.getLsbD 29

/-- V, bit 28. -/
def State.flagV (s : State) : Bool := s.cpsr.getLsbD 28

/-- T, bit 5: 0 wide, 1 narrow. -/
def State.flagT (s : State) : Bool := s.cpsr.getLsbD 5

/-- M, bits 4:0. -/
def State.mode (s : State) : BitVec 5 := s.cpsr.extractLsb' 0 5

/-- The bank the current mode selects. -/
def State.bank (s : State) : Bank := bankOf s.mode

/-- Write N. -/
def State.setN (s : State) (b : Bool) : State := { s with cpsr := setBit s.cpsr 31 b }

/-- Write Z. -/
def State.setZ (s : State) (b : Bool) : State := { s with cpsr := setBit s.cpsr 30 b }

/-- Write C. -/
def State.setC (s : State) (b : Bool) : State := { s with cpsr := setBit s.cpsr 29 b }

/-- Write V. -/
def State.setV (s : State) (b : Bool) : State := { s with cpsr := setBit s.cpsr 28 b }

/-- Write T. -/
def State.setT (s : State) (b : Bool) : State := { s with cpsr := setBit s.cpsr 5 b }

/-! ## Registers of the state -/

/-- `x[r]` (00_scope.md R13; 10_state.md R24). -/
def State.getReg (s : State) (r : Reg) : Word := s.regs.get (phys s.bank r)

/-- `x[r] <- v` (00_scope.md R13; 10_state.md R24): for `r` = 15 the unmasked write of `pc`. -/
def State.setReg (s : State) (r : Reg) (v : Word) : State := { s with regs := s.regs.set (phys s.bank r) v }

/-- `pc` (10_state.md R27). -/
def State.pc (s : State) : Word := s.regs.pc

/-- `pc <- v`, no masking (00_scope.md R16). -/
def State.setPc (s : State) (v : Word) : State := { s with regs := { s.regs with pc := v } }

/-- `BranchTo(t)`: the masked write of `pc` every instruction uses, with the T that holds now (40_step_and_conditions.md R156). -/
def State.branchTo (s : State) (t : Word) : State :=
  s.setPc (if s.flagT then t &&& 0xFFFFFFFE#32 else t &&& 0xFFFFFFFC#32)

/-- The write of a destination register by an instruction that can name R15: a write of R15 is `BranchTo`
(40_step_and_conditions.md R161). -/
def State.writeDest (s : State) (rd : Reg) (v : Word) : State :=
  if rd = Reg.pc then s.branchTo v else s.setReg rd v

/-! ## The warning log (20_memory.md R90, R91) -/

/-- Append one entry. -/
def State.warn (s : State) (w : Warning) : State := { s with warnings := s.warnings ++ [w] }

/-! ## Bytes of the region buffers -/

/-- What a byte nothing has written reads as: the contents at power-on, which are 0 but for DISPSTAT = 0x0004 and KEYINPUT =
0xFFFF (10_state.md R47; log 5). -/
def unlistedByte (a : Nat) : Byte :=
  if a = 0x04000004 then 0x04#8
  else if a = 0x04000130 then 0xFF#8
  else if a = 0x04000131 then 0xFF#8
  else 0#8

/-- The byte at a bus address. -/
def Memory.get : Memory → Nat → Byte
  | [], a => unlistedByte a
  | (k, v) :: rest, a => if k = a then v else Memory.get rest a

/-- Put a byte that must be listed at its place in the rising order. -/
def Memory.insert : Memory → Nat → Byte → Memory
  | [], a, b => [(a, b)]
  | (k, v) :: rest, a, b =>
    if a < k then (a, b) :: (k, v) :: rest
    else if a = k then (a, b) :: rest
    else (k, v) :: Memory.insert rest a b

/-- Take a byte out of the list. -/
def Memory.remove (m : Memory) (a : Nat) : Memory := m.filter (fun c => c.1 != a)

/-- Write a byte, keeping the canonical form: a byte equal to what an unlisted address reads as is taken out. -/
def Memory.set (m : Memory) (a : Nat) (b : Byte) : Memory :=
  if b = unlistedByte a then m.remove a else m.insert a b

/-- `k` lies above the address `lo`, where there is one. -/
def aboveAddress : Option Nat → Nat → Bool
  | none, _ => true
  | some l, k => decide (l < k)

/-- Addresses strictly rising from above `lo`, and every entry worth listing. -/
def Memory.risingFrom : Option Nat → Memory → Bool
  | _, [] => true
  | lo, (k, v) :: rest => aboveAddress lo k && (v != unlistedByte k) && Memory.risingFrom (some k) rest

/-- The canonical form: addresses strictly rising, no entry equal to what an unlisted address reads as. -/
def Memory.wf (m : Memory) : Bool := Memory.risingFrom none m

/-- The little-endian value of `n` bytes from bus address `a`, zero-extended to 32 bits (20_memory.md R65). -/
def Memory.load (m : Memory) (a : Nat) : Width → Word
  | .byte => (m.get a).setWidth 32
  | .half => (m.get (a + 1) ++ m.get a).setWidth 32
  | .word => m.get (a + 3) ++ m.get (a + 2) ++ m.get (a + 1) ++ m.get a

/-- Byte `i` of a word: `v[8i+7:8i]`. -/
def byteOf (v : Word) (i : Nat) : Byte := v.extractLsb' (8 * i) 8

/-- Store the low `n` bytes of `v` from bus address `a` up, each with `put` (20_memory.md R65, R80). -/
def Memory.storeWith (put : Memory → Nat → Byte → Memory) (m : Memory) (a : Nat) (v : Word) : Width → Memory
  | .byte => put m a (byteOf v 0)
  | .half => put (put m a (byteOf v 0)) (a + 1) (byteOf v 1)
  | .word => put (put (put (put m a (byteOf v 0)) (a + 1) (byteOf v 1)) (a + 2) (byteOf v 2)) (a + 3) (byteOf v 3)

/-- A plain little-endian store. -/
def Memory.store (m : Memory) (a : Nat) (n : Width) (v : Word) : Memory := Memory.storeWith Memory.set m a v n

/-! ## The address map (20_memory.md R61 to R64) -/

/-- The nine regions (20_memory.md R61). -/
inductive Region where
  | boot | ewram | iwram | io | pal | vram | oam | cart | save
  deriving DecidableEq, Repr

/-- The base address of a region (20_memory.md R61). -/
def Region.base : Region → Nat
  | .boot => 0x00000000
  | .ewram => 0x02000000
  | .iwram => 0x03000000
  | .io => 0x04000000
  | .pal => 0x05000000
  | .vram => 0x06000000
  | .oam => 0x07000000
  | .cart => 0x08000000
  | .save => 0x0E000000

/-- The length of a region in bytes; that of `CART` is `CART_LEN` (20_memory.md R61). -/
def Region.length (cartLen : Nat) : Region → Nat
  | .boot => 0x4000
  | .ewram => 0x40000
  | .iwram => 0x8000
  | .io => 0x400
  | .pal => 0x400
  | .vram => 0x18000
  | .oam => 0x400
  | .cart => cartLen
  | .save => 0x10000

/-- Read-only to bus writes: `BOOT` and `CART` (20_memory.md R61, R80). -/
def Region.readOnly : Region → Bool
  | .boot => true
  | .cart => true
  | _ => false

/-- The region that a selector byte `addr[31:24]` selects (20_memory.md R62). -/
def regionOf (sel : Nat) : Option Region :=
  match sel with
  | 0x00 => some .boot
  | 0x02 => some .ewram
  | 0x03 => some .iwram
  | 0x04 => some .io
  | 0x05 => some .pal
  | 0x06 => some .vram
  | 0x07 => some .oam
  | 0x08 => some .cart
  | 0x09 => some .cart
  | 0x0E => some .save
  | _ => none

/-- The three results of the address map (20_memory.md R62). -/
inductive MapResult where
  | hit (r : Region) (off : Nat)
  | outOfBounds (r : Region)
  | unmapped
  deriving DecidableEq, Repr

/-- `map(a, n)` for an aligned address (20_memory.md R62). -/
def mapAddr (cartLen : Nat) (a : Word) (n : Width) : MapResult :=
  match regionOf (a.extractLsb' 24 8).toNat with
  | none => .unmapped
  | some r =>
    if a.toNat - r.base + n.bytes ≤ r.length cartLen then .hit r (a.toNat - r.base) else .outOfBounds r

/-- The bus address of byte `off` of a region's buffer (log 6). -/
def Region.key (r : Region) (off : Nat) : Nat := r.base + off

/-! ## Alignment (20_memory.md R70, R71) -/

/-- `addr & ~(n-1)`. -/
def alignTo (a : Word) : Width → Word
  | .byte => a
  | .half => a &&& 0xFFFFFFFE#32
  | .word => a &&& 0xFFFFFFFC#32

/-- `ROR32(v, k)` for k in 0..31 (00_scope.md R17). -/
def ror32 (v : Word) (k : Nat) : Word := (v >>> k) ||| (v <<< (32 - k))

/-- The rotation of a word read: right by 8 times `addr[1:0]`; no other width rotates (20_memory.md R71, R72). -/
def rotateRead (a : Word) (v : Word) : Width → Word
  | .word => ror32 v (8 * (a.extractLsb' 0 2).toNat)
  | _ => v

/-! ## The registers of the `IO` region (20_memory.md R82; 48_video_timing_unit.md R315) -/

/-- `io_wmask(o)`: which bits a bus write of `IO` offset `o` changes (20_memory.md R82). -/
def ioMask (o : Nat) : Byte :=
  if o = 0x004 then 0xF8#8
  else if o = 0x006 then 0x00#8
  else if o = 0x007 then 0x00#8
  else if o = 0x130 then 0x00#8
  else if o = 0x131 then 0x00#8
  else 0xFF#8

/-- A masked store of one byte of the `IO` region at its bus address. -/
def Memory.putIo (m : Memory) (a : Nat) (b : Byte) : Memory :=
  let k := ioMask (a - Region.base .io)
  m.set a ((m.get a &&& ~~~k) ||| (b &&& k))

/-- DISPSTAT bits 2:0 for a scanline and the stored `compare` (48_video_timing_unit.md R313, R315). -/
def statusBits (line : Nat) (compare : Byte) : Byte :=
  (if Config.visH ≤ line then 1#8 else 0#8) ||| (if line = compare.toNat then 4#8 else 0#8)

/-- `VtuRefreshStatus()` (48_video_timing_unit.md R315). -/
def vtuRefresh (line : Nat) (m : Memory) : Memory :=
  let io := Region.base .io
  let m1 := m.set (io + 0x006) (BitVec.ofNat 8 line)
  let m2 := m1.set (io + 0x007) 0#8
  m2.set (io + 0x004) ((m2.get (io + 0x004) &&& 0xF8#8) ||| statusBits line (m2.get (io + 0x005)))

/-! ## The bus (20_memory.md R75, R80) -/

/-- The first line of both bus operations: a misaligned address is recorded. -/
def State.warnAlign (s : State) (a : Word) (n : Width) : State :=
  if alignTo a n = a then s else s.warn (.misaligned a n)

/-- `MemRead(addr, n)`: the value, zero-extended to 32 bits, and the state with the warnings appended (20_memory.md R75). -/
def memRead (a : Word) (n : Width) (s : State) : Word × State :=
  let a' := alignTo a n
  let s1 := s.warnAlign a n
  match mapAddr s.cartLen a' n with
  | .hit r off => (rotateRead a (s.mem.load (r.key off) n) n, s1)
  | .outOfBounds _ => (rotateRead a (Config.openBus a' n) n, s1.warn (.outOfBounds a' n))
  | .unmapped => (rotateRead a (Config.openBus a' n) n, s1.warn (.unmapped a' n))

/-- The memory after a bus write that hits byte `off` of a writable region: the `IO` region stores under its masks, and a write
that touches offsets 0..7 refreshes the display status (20_memory.md R80, R82; 48_video_timing_unit.md R325). -/
def storeHit (r : Region) (off : Nat) (n : Width) (v : Word) (line : Nat) (m : Memory) : Memory :=
  match r with
  | .io =>
    let m1 := Memory.storeWith Memory.putIo m (Region.key .io off) v n
    if off ≤ 0x007 then vtuRefresh line m1 else m1
  | _ => m.store (r.key off) n v

/-- `MemWrite(addr, n, v)` (20_memory.md R80). -/
def memWrite (a : Word) (n : Width) (v : Word) (s : State) : State :=
  let a' := alignTo a n
  let s1 := s.warnAlign a n
  match mapAddr s.cartLen a' n with
  | .unmapped => s1.warn (.unmapped a' n)
  | .outOfBounds _ => s1.warn (.outOfBounds a' n)
  | .hit r off =>
    if r.readOnly then s1.warn (.illegalWrite a' n)
    else { s1 with mem := storeHit r off n v s.vtu.line s.mem }

end Sys2Proof.Machine
end

