-- ==== Sys2Proof/Machine/Operands.lean ====
section
/-! DEFINITION. Every operand form: the two shift functions, the second operand of wide data processing, and the addresses of
loads and stores (41_wide_data_processing.md R170 to R172; 43_wide_load_store.md R220, R221; 30_encoding.md R135). -/

namespace Sys2Proof.Machine

/-- Arithmetic shift right: vacated bits filled with bit 31. -/
def asr32 (v : Word) (n : Nat) : Word := v.sshiftRight n

/-- All 32 bits equal to bit 31: an arithmetic shift by 32 or more. -/
def signFill (v : Word) : Word := if v.getLsbD 31 then 0xFFFFFFFF#32 else 0#32

/-- `ShiftImm(type, n, v, cin)`: an immediate amount 0..31, with the special meanings of 0 (41_wide_data_processing.md R171). -/
def shiftImm (ty : ShiftType) (n : Nat) (v : Word) (cin : Bool) : Word × Bool :=
  match ty with
  | .lsl => if n = 0 then (v, cin) else (v <<< n, v.getLsbD (32 - n))
  | .lsr => if n = 0 then (0#32, v.getLsbD 31) else (v >>> n, v.getLsbD (n - 1))
  | .asr => if n = 0 then (signFill v, v.getLsbD 31) else (asr32 v n, v.getLsbD (n - 1))
  | .ror =>
    if n = 0 then (((BitVec.ofBool cin).setWidth 32 <<< 31) ||| (v >>> 1), v.getLsbD 0)
    else (ror32 v n, v.getLsbD (n - 1))

/-- `ShiftReg(type, n, v, cin)`: a register amount 0..255 (41_wide_data_processing.md R172). -/
def shiftReg (ty : ShiftType) (n : Nat) (v : Word) (cin : Bool) : Word × Bool :=
  if n = 0 then (v, cin)
  else
    match ty with
    | .lsl =>
      if n ≤ 31 then (v <<< n, v.getLsbD (32 - n)) else if n = 32 then (0#32, v.getLsbD 0) else (0#32, false)
    | .lsr =>
      if n ≤ 31 then (v >>> n, v.getLsbD (n - 1)) else if n = 32 then (0#32, v.getLsbD 31) else (0#32, false)
    | .asr => if n ≤ 31 then (asr32 v n, v.getLsbD (n - 1)) else (signFill v, v.getLsbD 31)
    | .ror => if n % 32 = 0 then (v, v.getLsbD 31) else (ror32 v (n % 32), v.getLsbD (n % 32 - 1))

/-- The low byte of a register, which is all a register-specified amount uses (R172). -/
def lowByte (v : Word) : Nat := (v.extractLsb' 0 8).toNat

/-- The three forms of the second operand (30_encoding.md R114). -/
inductive Op2 where
  | imm (rot : BitVec 4) (imm8 : BitVec 8)
  | shi (shamt : BitVec 5) (ty : ShiftType) (rm : Reg)
  | shr (rs : Reg) (ty : ShiftType) (rm : Reg)
  deriving DecidableEq, Repr

/-- The immediate form: the value and the shifter carry-out (41_wide_data_processing.md R170). -/
def op2Imm (rot : BitVec 4) (imm8 : BitVec 8) (cin : Bool) : Word × Bool :=
  let v := ror32 (imm8.setWidth 32) (2 * rot.toNat)
  (v, if rot = 0#4 then cin else v.getLsbD 31)

/-- The second operand and the shifter carry-out (41_wide_data_processing.md R170, R171, R172). -/
def Op2.eval (o : Op2) (s : State) : Word × Bool :=
  match o with
  | .imm rot imm8 => op2Imm rot imm8 s.flagC
  | .shi shamt ty rm => shiftImm ty shamt.toNat (s.getReg rm) s.flagC
  | .shr rs ty rm => shiftReg ty (lowByte (s.getReg rs)) (s.getReg rm) s.flagC

/-- The offset of a wide load or store: an immediate or a shifted register (43_wide_load_store.md R220, R221). -/
inductive SdtOffset where
  | imm (imm12 : BitVec 12)
  | reg (shamt : BitVec 5) (ty : ShiftType) (rm : Reg)
  deriving DecidableEq, Repr

/-- `off` of 43_wide_load_store.md R220; the shifter's carry-out is discarded (R221). -/
def SdtOffset.eval (o : SdtOffset) (s : State) : Word :=
  match o with
  | .imm imm12 => imm12.setWidth 32
  | .reg shamt ty rm => (shiftImm ty shamt.toNat (s.getReg rm) s.flagC).1

/-- `oa`: the base plus or minus the offset (43_wide_load_store.md R220). -/
def offsetAddress (u : Bool) (rn : Reg) (o : SdtOffset) (s : State) : Word :=
  if u then s.getReg rn + o.eval s else s.getReg rn - o.eval s

/-- `addr`: `oa` when pre-indexed, the base when post-indexed (43_wide_load_store.md R220). -/
def transferAddress (p u : Bool) (rn : Reg) (o : SdtOffset) (s : State) : Word :=
  if p then offsetAddress u rn o s else s.getReg rn

/-- `wb`: post-indexed, or pre-indexed with W, and the base not R15 (43_wide_load_store.md R220, R222). -/
def writesBack (p w : Bool) (rn : Reg) : Bool := (!p || w) && rn != Reg.pc

/-- `sext_32(imm24) << 2` (30_encoding.md R135). -/
def wideBranchOffset (imm24 : BitVec 24) : Word := imm24.signExtend 32 <<< 2

/-- `sext_32(soff8) << 1` (30_encoding.md R135). -/
def narrowCondOffset (soff8 : BitVec 8) : Word := soff8.signExtend 32 <<< 1

/-- `sext_32(off11) << 1` (30_encoding.md R135). -/
def narrowBranchOffset (off11 : BitVec 11) : Word := off11.signExtend 32 <<< 1

/-- `sext_32(off11) << 12` (30_encoding.md R135). -/
def blPrefixOffset (off11 : BitVec 11) : Word := off11.signExtend 32 <<< 12

/-- `zext_32(off11) << 1` (30_encoding.md R135). -/
def blSuffixOffset (off11 : BitVec 11) : Word := off11.setWidth 32 <<< 1

/-- The address of the narrow pc-relative load: `(pc & 0xFFFFFFFC) + (zext_32(imm8) << 2)` (45_narrow_branch_load_store.md R291). -/
def literalAddress (imm8 : BitVec 8) (s : State) : Word := (s.pc &&& 0xFFFFFFFC#32) + (imm8.setWidth 32 <<< 2)

/-- The address of a narrow word transfer: `x[Rb] + (zext_32(imm5) << 2)` (R292, R293). -/
def narrowWordAddress (imm5 : BitVec 5) (rb : Reg) (s : State) : Word := s.getReg rb + (imm5.setWidth 32 <<< 2)

/-- The address of a narrow byte transfer: `x[Rb] + zext_32(imm5)` (R294, R295). -/
def narrowByteAddress (imm5 : BitVec 5) (rb : Reg) (s : State) : Word := s.getReg rb + imm5.setWidth 32

end Sys2Proof.Machine
end

