-- ==== Sys2Proof/Machine/Flags.lean ====
section
/-! DEFINITION. Every flag computation: the condition predicate, `AddWithCarry`, and how a result is written with its flags
(40_step_and_conditions.md R153; 00_scope.md R17; 41_wide_data_processing.md R174 to R177; 44_narrow_alu.md section 5). -/

namespace Sys2Proof.Machine

/-- `Cond(c)` (40_step_and_conditions.md R153). -/
def condHolds (c : Cond) (s : State) : Bool :=
  match c with
  | .eq => s.flagZ
  | .ne => !s.flagZ
  | .cs => s.flagC
  | .cc => !s.flagC
  | .mi => s.flagN
  | .pl => !s.flagN
  | .vs => s.flagV
  | .vc => !s.flagV
  | .hi => s.flagC && !s.flagZ
  | .ls => !s.flagC || s.flagZ
  | .ge => s.flagN == s.flagV
  | .lt => s.flagN != s.flagV
  | .gt => !s.flagZ && s.flagN == s.flagV
  | .le => s.flagZ || s.flagN != s.flagV
  | .al => true
  | .nv => false

/-- A wide instruction has its effect when its condition holds and none otherwise (40_step_and_conditions.md R154; log 10). -/
def whenCond (c : Cond) (effect : State → State) (s : State) : Outcome :=
  .next (if condHolds c s then effect s else s)

/-- What `AddWithCarry` returns: `(r, cout, ovf)`. -/
structure AluResult where
  r : Word
  cout : Bool
  ovf : Bool
  deriving DecidableEq, Repr

/-- `AddWithCarry(a, b, cin)`, over unbounded integers (00_scope.md R17). -/
def addWithCarry (a b : Word) (cin : Bool) : AluResult :=
  let u := a.toNat + b.toNat + cin.toNat
  let i := a.toInt + b.toInt + cin.toInt
  { r := BitVec.ofNat 32 u, cout := decide (2 ^ 32 ≤ u), ovf := !decide (-2 ^ 31 ≤ i ∧ i ≤ 2 ^ 31 - 1) }

/-! ## The eight arithmetic operations: operands `a`, `op2` and the C flag at the start (41_wide_data_processing.md R182 to R187) -/

/-- SUB, CMP: `a - op2` (R182, R190). -/
def aluSub (a b : Word) (_cin : Bool) : AluResult := addWithCarry a (~~~b) true

/-- RSB: `op2 - a` (R183). -/
def aluRsb (a b : Word) (_cin : Bool) : AluResult := addWithCarry b (~~~a) true

/-- ADD, CMN: `a + op2` (R184, R191). -/
def aluAdd (a b : Word) (_cin : Bool) : AluResult := addWithCarry a b false

/-- ADC: `a + op2 + C` (R185). -/
def aluAdc (a b : Word) (cin : Bool) : AluResult := addWithCarry a b cin

/-- SBC: `a - op2 - (1 - C)` (R186). -/
def aluSbc (a b : Word) (cin : Bool) : AluResult := addWithCarry a (~~~b) cin

/-- RSC: `op2 - a - (1 - C)` (R187). -/
def aluRsc (a b : Word) (cin : Bool) : AluResult := addWithCarry b (~~~a) cin

/-! ## Writing flags -/

/-- `SetNZ(r)` (00_scope.md R17). -/
def State.setNZ (s : State) (r : Word) : State := (s.setN (r.getLsbD 31)).setZ (r == 0#32)

/-- N, Z from the result and C as given; V unchanged (41_wide_data_processing.md R174). -/
def State.setNZC (s : State) (r : Word) (c : Bool) : State := (s.setNZ r).setC c

/-- All four flags of an arithmetic result (41_wide_data_processing.md R175). -/
def State.setNZCV (s : State) (x : AluResult) : State := ((s.setNZ x.r).setC x.cout).setV x.ovf

/-! ## The destination and the S bit of wide data processing (41_wide_data_processing.md R176) -/

/-- A logical result: `Rd = 15` branches and writes no flag whatever S is. -/
def finishLogical (sf : Bool) (rd : Reg) (r : Word) (sc : Bool) (s : State) : State :=
  if rd = Reg.pc then s.branchTo r
  else if sf then (s.setReg rd r).setNZC r sc
  else s.setReg rd r

/-- An arithmetic result: `Rd = 15` branches and writes no flag whatever S is. -/
def finishArith (sf : Bool) (rd : Reg) (x : AluResult) (s : State) : State :=
  if rd = Reg.pc then s.branchTo x.r
  else if sf then (s.setReg rd x.r).setNZCV x
  else s.setReg rd x.r

end Sys2Proof.Machine
end

