-- ==== Sys2Proof/Machine/NarrowAlu.lean ====
section
/-! DEFINITION. Narrow arithmetic, logic, shift, compare and move instructions (44_narrow_alu.md R240 to R272). All execute
unconditionally and read every operand before writing. -/

namespace Sys2Proof.Machine

/-- A shift result: `x[Rd] <- r; SetNZ(r); C <- c`; V unchanged (44_narrow_alu.md sections 2 and 5). -/
def narrowShift (rd : Reg) (x : Word × Bool) (s : State) : Outcome := .next ((s.setReg rd x.1).setNZC x.1 x.2)

/-- A logical result: `x[Rd] <- r; SetNZ(r)`; C and V unchanged (section 5). -/
def narrowLogical (rd : Reg) (r : Word) (s : State) : Outcome := .next ((s.setReg rd r).setNZ r)

/-- An arithmetic result: `x[Rd] <- r` and all four flags (sections 3, 4 and 5). -/
def narrowArith (rd : Reg) (x : AluResult) (s : State) : Outcome := .next ((s.setReg rd x.r).setNZCV x)

/-- A comparison: the four flags of an arithmetic result, no register. -/
def narrowCompare (x : AluResult) (s : State) : Outcome := .next (s.setNZCV x)

/-- LSL by immediate (R241). -/
def execNLslImm (imm5 : BitVec 5) (rs rd : Reg) (s : State) : Outcome :=
  narrowShift rd (shiftImm .lsl imm5.toNat (s.getReg rs) s.flagC) s

/-- LSR by immediate (R242). -/
def execNLsrImm (imm5 : BitVec 5) (rs rd : Reg) (s : State) : Outcome :=
  narrowShift rd (shiftImm .lsr imm5.toNat (s.getReg rs) s.flagC) s

/-- ASR by immediate (R243). -/
def execNAsrImm (imm5 : BitVec 5) (rs rd : Reg) (s : State) : Outcome :=
  narrowShift rd (shiftImm .asr imm5.toNat (s.getReg rs) s.flagC) s

/-- ADD (register) (R244). -/
def execNAddReg (rn rs rd : Reg) (s : State) : Outcome :=
  narrowArith rd (aluAdd (s.getReg rs) (s.getReg rn) s.flagC) s

/-- SUB (register) (R245). -/
def execNSubReg (rn rs rd : Reg) (s : State) : Outcome :=
  narrowArith rd (aluSub (s.getReg rs) (s.getReg rn) s.flagC) s

/-- ADD (3-bit immediate) (R246). -/
def execNAddImm3 (imm3 : BitVec 3) (rs rd : Reg) (s : State) : Outcome :=
  narrowArith rd (aluAdd (s.getReg rs) (imm3.setWidth 32) s.flagC) s

/-- SUB (3-bit immediate) (R247). -/
def execNSubImm3 (imm3 : BitVec 3) (rs rd : Reg) (s : State) : Outcome :=
  narrowArith rd (aluSub (s.getReg rs) (imm3.setWidth 32) s.flagC) s

/-- MOV (immediate): N is 0, C and V unchanged (R248). -/
def execNMovImm8 (rd : Reg) (imm8 : BitVec 8) (s : State) : Outcome :=
  narrowLogical rd (imm8.setWidth 32) s

/-- CMP (immediate) (R249). -/
def execNCmpImm8 (rd : Reg) (imm8 : BitVec 8) (s : State) : Outcome :=
  narrowCompare (aluSub (s.getReg rd) (imm8.setWidth 32) s.flagC) s

/-- ADD (8-bit immediate) (R250). -/
def execNAddImm8 (rd : Reg) (imm8 : BitVec 8) (s : State) : Outcome :=
  narrowArith rd (aluAdd (s.getReg rd) (imm8.setWidth 32) s.flagC) s

/-- SUB (8-bit immediate) (R251). -/
def execNSubImm8 (rd : Reg) (imm8 : BitVec 8) (s : State) : Outcome :=
  narrowArith rd (aluSub (s.getReg rd) (imm8.setWidth 32) s.flagC) s

/-- AND (R252). -/
def execNAnd (rs rd : Reg) (s : State) : Outcome :=
  narrowLogical rd (s.getReg rd &&& s.getReg rs) s

/-- EOR (R253). -/
def execNEor (rs rd : Reg) (s : State) : Outcome :=
  narrowLogical rd (s.getReg rd ^^^ s.getReg rs) s

/-- LSL (register): the low byte of Rs is the amount (R254). -/
def execNLslReg (rs rd : Reg) (s : State) : Outcome :=
  narrowShift rd (shiftReg .lsl (lowByte (s.getReg rs)) (s.getReg rd) s.flagC) s

/-- LSR (register): the low byte of Rs is the amount (R255). -/
def execNLsrReg (rs rd : Reg) (s : State) : Outcome :=
  narrowShift rd (shiftReg .lsr (lowByte (s.getReg rs)) (s.getReg rd) s.flagC) s

/-- ASR (register): the low byte of Rs is the amount (R256). -/
def execNAsrReg (rs rd : Reg) (s : State) : Outcome :=
  narrowShift rd (shiftReg .asr (lowByte (s.getReg rs)) (s.getReg rd) s.flagC) s

/-- ADC (R257). -/
def execNAdc (rs rd : Reg) (s : State) : Outcome :=
  narrowArith rd (aluAdc (s.getReg rd) (s.getReg rs) s.flagC) s

/-- SBC (R258). -/
def execNSbc (rs rd : Reg) (s : State) : Outcome :=
  narrowArith rd (aluSbc (s.getReg rd) (s.getReg rs) s.flagC) s

/-- ROR (register): the low byte of Rs is the amount (R259). -/
def execNRorReg (rs rd : Reg) (s : State) : Outcome :=
  narrowShift rd (shiftReg .ror (lowByte (s.getReg rs)) (s.getReg rd) s.flagC) s

/-- TST: no register written (R260). -/
def execNTst (rs rd : Reg) (s : State) : Outcome :=
  .next (s.setNZ (s.getReg rd &&& s.getReg rs))

/-- NEG: `Rd = 0 - Rs` (R261). -/
def execNNeg (rs rd : Reg) (s : State) : Outcome :=
  narrowArith rd (aluSub 0#32 (s.getReg rs) s.flagC) s

/-- CMP (register, low) (R262). -/
def execNCmpReg (rs rd : Reg) (s : State) : Outcome :=
  narrowCompare (aluSub (s.getReg rd) (s.getReg rs) s.flagC) s

/-- CMN (R263). -/
def execNCmn (rs rd : Reg) (s : State) : Outcome :=
  narrowCompare (aluAdd (s.getReg rd) (s.getReg rs) s.flagC) s

/-- ORR (R264). -/
def execNOrr (rs rd : Reg) (s : State) : Outcome :=
  narrowLogical rd (s.getReg rd ||| s.getReg rs) s

/-- BIC (R265). -/
def execNBic (rs rd : Reg) (s : State) : Outcome :=
  narrowLogical rd (s.getReg rd &&& ~~~s.getReg rs) s

/-- MVN (R266). -/
def execNMvn (rs rd : Reg) (s : State) : Outcome :=
  narrowLogical rd (~~~s.getReg rs) s

/-- ADD (high registers): no flag; `Rd = 15` branches (R270). -/
def execNAddHigh (rs rd : Reg) (s : State) : Outcome :=
  .next (s.writeDest rd (s.getReg rd + s.getReg rs))

/-- CMP (high registers): flags only, also when `Rd = 15` (R271). -/
def execNCmpHigh (rs rd : Reg) (s : State) : Outcome :=
  narrowCompare (aluSub (s.getReg rd) (s.getReg rs) s.flagC) s

/-- MOV (high registers): no flag; `Rd = 15` branches (R272). -/
def execNMovHigh (rs rd : Reg) (s : State) : Outcome :=
  .next (s.writeDest rd (s.getReg rs))

end Sys2Proof.Machine
end

