-- ==== Sys2Proof/Machine/WideBranch.lean ====
section
/-! DEFINITION. Wide B, BL, BX and SWI (42_wide_branch_and_system.md R210 to R213). While they execute `pc` is `A + 4`. -/

namespace Sys2Proof.Machine

/-- Branch-and-exchange to `t`: T takes bit 0 of the target, then `BranchTo` with the new T (R212; 45_narrow_branch_load_store.md
R290). -/
def State.branchExchange (s : State) (t : Word) : State := (s.setT (t.getLsbD 0)).branchTo t

/-- B (R210). -/
def execWB (c : Cond) (imm24 : BitVec 24) (s : State) : Outcome :=
  whenCond c (fun s => s.branchTo (s.pc + wideBranchOffset imm24)) s

/-- BL: the link is the address of the next instruction (R211). -/
def execWBl (c : Cond) (imm24 : BitVec 24) (s : State) : Outcome :=
  whenCond c (fun s => (s.setReg Reg.lr s.pc).branchTo (s.pc + wideBranchOffset imm24)) s

/-- BX (R212). -/
def execWBx (c : Cond) (rm : Reg) (s : State) : Outcome :=
  whenCond c (fun s => s.branchExchange (s.getReg rm)) s

/-- SWI: a branch to R14 of the current mode and nothing else; it is no trap (R213; 60_exceptions.md R372). -/
def execWSwi (c : Cond) (_comment24 : BitVec 24) (s : State) : Outcome :=
  whenCond c (fun s => s.branchTo (s.getReg Reg.lr)) s

end Sys2Proof.Machine
end

