-- ==== Sys2Proof/Machine/NarrowBranch.lean ====
section
/-! DEFINITION. Narrow branches, branch-and-exchange and software interrupt (45_narrow_branch_load_store.md R290, R296 to R300).
While they execute `pc` is `A + 2`. -/

namespace Sys2Proof.Machine

/-- B<cond>: the condition is the instruction's own (R296). -/
def narrowBranchIf (c : Cond) (soff8 : BitVec 8) (s : State) : Outcome :=
  .next (if condHolds c s then s.branchTo (s.pc + narrowCondOffset soff8) else s)

/-- BX (R290). -/
def execNBx (rs : Reg) (s : State) : Outcome :=
  .next (s.branchExchange (s.getReg rs))

/-- BEQ: condition 0 (R296). -/
def execNBeq (soff8 : BitVec 8) (s : State) : Outcome :=
  narrowBranchIf .eq soff8 s

/-- BNE: condition 1 (R296). -/
def execNBne (soff8 : BitVec 8) (s : State) : Outcome :=
  narrowBranchIf .ne soff8 s

/-- BCS: condition 2 (R296). -/
def execNBcs (soff8 : BitVec 8) (s : State) : Outcome :=
  narrowBranchIf .cs soff8 s

/-- BCC: condition 3 (R296). -/
def execNBcc (soff8 : BitVec 8) (s : State) : Outcome :=
  narrowBranchIf .cc soff8 s

/-- BMI: condition 4 (R296). -/
def execNBmi (soff8 : BitVec 8) (s : State) : Outcome :=
  narrowBranchIf .mi soff8 s

/-- BPL: condition 5 (R296). -/
def execNBpl (soff8 : BitVec 8) (s : State) : Outcome :=
  narrowBranchIf .pl soff8 s

/-- BVS: condition 6 (R296). -/
def execNBvs (soff8 : BitVec 8) (s : State) : Outcome :=
  narrowBranchIf .vs soff8 s

/-- BVC: condition 7 (R296). -/
def execNBvc (soff8 : BitVec 8) (s : State) : Outcome :=
  narrowBranchIf .vc soff8 s

/-- BHI: condition 8 (R296). -/
def execNBhi (soff8 : BitVec 8) (s : State) : Outcome :=
  narrowBranchIf .hi soff8 s

/-- BLS: condition 9 (R296). -/
def execNBls (soff8 : BitVec 8) (s : State) : Outcome :=
  narrowBranchIf .ls soff8 s

/-- BGE: condition 10 (R296). -/
def execNBge (soff8 : BitVec 8) (s : State) : Outcome :=
  narrowBranchIf .ge soff8 s

/-- BLT: condition 11 (R296). -/
def execNBlt (soff8 : BitVec 8) (s : State) : Outcome :=
  narrowBranchIf .lt soff8 s

/-- BGT: condition 12 (R296). -/
def execNBgt (soff8 : BitVec 8) (s : State) : Outcome :=
  narrowBranchIf .gt soff8 s

/-- BLE: condition 13 (R296). -/
def execNBle (soff8 : BitVec 8) (s : State) : Outcome :=
  narrowBranchIf .le soff8 s

/-- SWI: a branch to R14 of the current mode, T unchanged (R297). -/
def execNSwi (_comment8 : BitVec 8) (s : State) : Outcome :=
  .next (s.branchTo (s.getReg Reg.lr))

/-- B, unconditional (R298). -/
def execNB (off11 : BitVec 11) (s : State) : Outcome :=
  .next (s.branchTo (s.pc + narrowBranchOffset off11))

/-- BL prefix: loads R14, no branch (R299). -/
def execNBlPrefix (off11 : BitVec 11) (s : State) : Outcome :=
  .next (s.setReg Reg.lr (s.pc + blPrefixOffset off11))

/-- BL suffix: the target comes from R14, the link has bit 0 set (R300). -/
def execNBlSuffix (off11 : BitVec 11) (s : State) : Outcome :=
  .next ((s.setReg Reg.lr (s.pc ||| 1#32)).branchTo (s.getReg Reg.lr + blSuffixOffset off11))

end Sys2Proof.Machine
end

