-- ==== Sys2Proof/Machine/NarrowMemory.lean ====
section
/-! DEFINITION. Narrow loads and stores (45_narrow_branch_load_store.md R291 to R295). There is no write-back, and the address goes
to the bus unaligned. -/

namespace Sys2Proof.Machine

/-- `x[Rd] <- MemRead(addr, n)`, zero-extended. -/
def narrowLoad (n : Width) (addr : Word) (rd : Reg) (s : State) : Outcome :=
  .next ((memRead addr n s).2.setReg rd (memRead addr n s).1)

/-- `MemWrite(addr, n, x[Rd])`. -/
def narrowStore (n : Width) (addr : Word) (rd : Reg) (s : State) : Outcome :=
  .next (memWrite addr n (s.getReg rd) s)

/-- LDR (pc-relative) (R291). -/
def execNLdrPc (rd : Reg) (imm8 : BitVec 8) (s : State) : Outcome :=
  narrowLoad .word (literalAddress imm8 s) rd s

/-- STR (immediate offset) (R292). -/
def execNStrImm (imm5 : BitVec 5) (rb rd : Reg) (s : State) : Outcome :=
  narrowStore .word (narrowWordAddress imm5 rb s) rd s

/-- LDR (immediate offset) (R293). -/
def execNLdrImm (imm5 : BitVec 5) (rb rd : Reg) (s : State) : Outcome :=
  narrowLoad .word (narrowWordAddress imm5 rb s) rd s

/-- STRB (immediate offset) (R294). -/
def execNStrbImm (imm5 : BitVec 5) (rb rd : Reg) (s : State) : Outcome :=
  narrowStore .byte (narrowByteAddress imm5 rb s) rd s

/-- LDRB (immediate offset) (R295). -/
def execNLdrbImm (imm5 : BitVec 5) (rb rd : Reg) (s : State) : Outcome :=
  narrowLoad .byte (narrowByteAddress imm5 rb s) rd s

end Sys2Proof.Machine
end

