-- ==== Sys2Proof/Machine/WideData.lean ====
section
/-! DEFINITION. The sixteen wide data-processing instructions in their three operand forms (41_wide_data_processing.md R173 to
R195). Every operand is read before anything is written, and the condition is tested first. -/

namespace Sys2Proof.Machine

/-- A logical operation with a destination: `r = f a op2` (R173, R174, R176). -/
def dpLogical (f : Word → Word → Word) (c : Cond) (sf : Bool) (rn rd : Reg) (o : Op2) (s : State) : Outcome :=
  whenCond c (fun s => finishLogical sf rd (f (s.getReg rn) (o.eval s).1) (o.eval s).2 s) s

/-- MOV and MVN: `r = f op2`; there is no first operand (R173, R174, R176, R177). -/
def dpMove (f : Word → Word) (c : Cond) (sf : Bool) (rd : Reg) (o : Op2) (s : State) : Outcome :=
  whenCond c (fun s => finishLogical sf rd (f (o.eval s).1) (o.eval s).2 s) s

/-- An arithmetic operation with a destination (R173, R175, R176). -/
def dpArith (f : Word → Word → Bool → AluResult) (c : Cond) (sf : Bool) (rn rd : Reg) (o : Op2) (s : State) : Outcome :=
  whenCond c (fun s => finishArith sf rd (f (s.getReg rn) (o.eval s).1 s.flagC) s) s

/-- TST and TEQ: flags only (R174, R177). -/
def dpTestLogical (f : Word → Word → Word) (c : Cond) (rn : Reg) (o : Op2) (s : State) : Outcome :=
  whenCond c (fun s => s.setNZC (f (s.getReg rn) (o.eval s).1) (o.eval s).2) s

/-- CMP and CMN: flags only (R175, R177). -/
def dpTestArith (f : Word → Word → Bool → AluResult) (c : Cond) (rn : Reg) (o : Op2) (s : State) : Outcome :=
  whenCond c (fun s => s.setNZCV (f (s.getReg rn) (o.eval s).1 s.flagC)) s

/-- AND, immediate operand (R180). -/
def execWAndImm (c : Cond) (sf : Bool) (rn rd : Reg) (rot : BitVec 4) (imm8 : BitVec 8) (s : State) : Outcome :=
  dpLogical (· &&& ·) c sf rn rd (.imm rot imm8) s

/-- AND, register shifted by an immediate amount (R180). -/
def execWAndShi (c : Cond) (sf : Bool) (rn rd : Reg) (shamt : BitVec 5) (ty : ShiftType) (rm : Reg) (s : State) : Outcome :=
  dpLogical (· &&& ·) c sf rn rd (.shi shamt ty rm) s

/-- AND, register shifted by a register amount (R180). -/
def execWAndShr (c : Cond) (sf : Bool) (rn rd : Reg) (rs : Reg) (ty : ShiftType) (rm : Reg) (s : State) : Outcome :=
  dpLogical (· &&& ·) c sf rn rd (.shr rs ty rm) s

/-- EOR, immediate operand (R181). -/
def execWEorImm (c : Cond) (sf : Bool) (rn rd : Reg) (rot : BitVec 4) (imm8 : BitVec 8) (s : State) : Outcome :=
  dpLogical (· ^^^ ·) c sf rn rd (.imm rot imm8) s

/-- EOR, register shifted by an immediate amount (R181). -/
def execWEorShi (c : Cond) (sf : Bool) (rn rd : Reg) (shamt : BitVec 5) (ty : ShiftType) (rm : Reg) (s : State) : Outcome :=
  dpLogical (· ^^^ ·) c sf rn rd (.shi shamt ty rm) s

/-- EOR, register shifted by a register amount (R181). -/
def execWEorShr (c : Cond) (sf : Bool) (rn rd : Reg) (rs : Reg) (ty : ShiftType) (rm : Reg) (s : State) : Outcome :=
  dpLogical (· ^^^ ·) c sf rn rd (.shr rs ty rm) s

/-- SUB, immediate operand (R182). -/
def execWSubImm (c : Cond) (sf : Bool) (rn rd : Reg) (rot : BitVec 4) (imm8 : BitVec 8) (s : State) : Outcome :=
  dpArith aluSub c sf rn rd (.imm rot imm8) s

/-- SUB, register shifted by an immediate amount (R182). -/
def execWSubShi (c : Cond) (sf : Bool) (rn rd : Reg) (shamt : BitVec 5) (ty : ShiftType) (rm : Reg) (s : State) : Outcome :=
  dpArith aluSub c sf rn rd (.shi shamt ty rm) s

/-- SUB, register shifted by a register amount (R182). -/
def execWSubShr (c : Cond) (sf : Bool) (rn rd : Reg) (rs : Reg) (ty : ShiftType) (rm : Reg) (s : State) : Outcome :=
  dpArith aluSub c sf rn rd (.shr rs ty rm) s

/-- RSB, immediate operand (R183). -/
def execWRsbImm (c : Cond) (sf : Bool) (rn rd : Reg) (rot : BitVec 4) (imm8 : BitVec 8) (s : State) : Outcome :=
  dpArith aluRsb c sf rn rd (.imm rot imm8) s

/-- RSB, register shifted by an immediate amount (R183). -/
def execWRsbShi (c : Cond) (sf : Bool) (rn rd : Reg) (shamt : BitVec 5) (ty : ShiftType) (rm : Reg) (s : State) : Outcome :=
  dpArith aluRsb c sf rn rd (.shi shamt ty rm) s

/-- RSB, register shifted by a register amount (R183). -/
def execWRsbShr (c : Cond) (sf : Bool) (rn rd : Reg) (rs : Reg) (ty : ShiftType) (rm : Reg) (s : State) : Outcome :=
  dpArith aluRsb c sf rn rd (.shr rs ty rm) s

/-- ADD, immediate operand (R184). -/
def execWAddImm (c : Cond) (sf : Bool) (rn rd : Reg) (rot : BitVec 4) (imm8 : BitVec 8) (s : State) : Outcome :=
  dpArith aluAdd c sf rn rd (.imm rot imm8) s

/-- ADD, register shifted by an immediate amount (R184). -/
def execWAddShi (c : Cond) (sf : Bool) (rn rd : Reg) (shamt : BitVec 5) (ty : ShiftType) (rm : Reg) (s : State) : Outcome :=
  dpArith aluAdd c sf rn rd (.shi shamt ty rm) s

/-- ADD, register shifted by a register amount (R184). -/
def execWAddShr (c : Cond) (sf : Bool) (rn rd : Reg) (rs : Reg) (ty : ShiftType) (rm : Reg) (s : State) : Outcome :=
  dpArith aluAdd c sf rn rd (.shr rs ty rm) s

/-- ADC, immediate operand (R185). -/
def execWAdcImm (c : Cond) (sf : Bool) (rn rd : Reg) (rot : BitVec 4) (imm8 : BitVec 8) (s : State) : Outcome :=
  dpArith aluAdc c sf rn rd (.imm rot imm8) s

/-- ADC, register shifted by an immediate amount (R185). -/
def execWAdcShi (c : Cond) (sf : Bool) (rn rd : Reg) (shamt : BitVec 5) (ty : ShiftType) (rm : Reg) (s : State) : Outcome :=
  dpArith aluAdc c sf rn rd (.shi shamt ty rm) s

/-- ADC, register shifted by a register amount (R185). -/
def execWAdcShr (c : Cond) (sf : Bool) (rn rd : Reg) (rs : Reg) (ty : ShiftType) (rm : Reg) (s : State) : Outcome :=
  dpArith aluAdc c sf rn rd (.shr rs ty rm) s

/-- SBC, immediate operand (R186). -/
def execWSbcImm (c : Cond) (sf : Bool) (rn rd : Reg) (rot : BitVec 4) (imm8 : BitVec 8) (s : State) : Outcome :=
  dpArith aluSbc c sf rn rd (.imm rot imm8) s

/-- SBC, register shifted by an immediate amount (R186). -/
def execWSbcShi (c : Cond) (sf : Bool) (rn rd : Reg) (shamt : BitVec 5) (ty : ShiftType) (rm : Reg) (s : State) : Outcome :=
  dpArith aluSbc c sf rn rd (.shi shamt ty rm) s

/-- SBC, register shifted by a register amount (R186). -/
def execWSbcShr (c : Cond) (sf : Bool) (rn rd : Reg) (rs : Reg) (ty : ShiftType) (rm : Reg) (s : State) : Outcome :=
  dpArith aluSbc c sf rn rd (.shr rs ty rm) s

/-- RSC, immediate operand (R187). -/
def execWRscImm (c : Cond) (sf : Bool) (rn rd : Reg) (rot : BitVec 4) (imm8 : BitVec 8) (s : State) : Outcome :=
  dpArith aluRsc c sf rn rd (.imm rot imm8) s

/-- RSC, register shifted by an immediate amount (R187). -/
def execWRscShi (c : Cond) (sf : Bool) (rn rd : Reg) (shamt : BitVec 5) (ty : ShiftType) (rm : Reg) (s : State) : Outcome :=
  dpArith aluRsc c sf rn rd (.shi shamt ty rm) s

/-- RSC, register shifted by a register amount (R187). -/
def execWRscShr (c : Cond) (sf : Bool) (rn rd : Reg) (rs : Reg) (ty : ShiftType) (rm : Reg) (s : State) : Outcome :=
  dpArith aluRsc c sf rn rd (.shr rs ty rm) s

/-- TST, immediate operand (R188). -/
def execWTstImm (c : Cond) (rn : Reg) (rot : BitVec 4) (imm8 : BitVec 8) (s : State) : Outcome :=
  dpTestLogical (· &&& ·) c rn (.imm rot imm8) s

/-- TST, register shifted by an immediate amount (R188). -/
def execWTstShi (c : Cond) (rn : Reg) (shamt : BitVec 5) (ty : ShiftType) (rm : Reg) (s : State) : Outcome :=
  dpTestLogical (· &&& ·) c rn (.shi shamt ty rm) s

/-- TST, register shifted by a register amount (R188). -/
def execWTstShr (c : Cond) (rn : Reg) (rs : Reg) (ty : ShiftType) (rm : Reg) (s : State) : Outcome :=
  dpTestLogical (· &&& ·) c rn (.shr rs ty rm) s

/-- TEQ, immediate operand (R189). -/
def execWTeqImm (c : Cond) (rn : Reg) (rot : BitVec 4) (imm8 : BitVec 8) (s : State) : Outcome :=
  dpTestLogical (· ^^^ ·) c rn (.imm rot imm8) s

/-- TEQ, register shifted by an immediate amount (R189). -/
def execWTeqShi (c : Cond) (rn : Reg) (shamt : BitVec 5) (ty : ShiftType) (rm : Reg) (s : State) : Outcome :=
  dpTestLogical (· ^^^ ·) c rn (.shi shamt ty rm) s

/-- TEQ, register shifted by a register amount (R189). -/
def execWTeqShr (c : Cond) (rn : Reg) (rs : Reg) (ty : ShiftType) (rm : Reg) (s : State) : Outcome :=
  dpTestLogical (· ^^^ ·) c rn (.shr rs ty rm) s

/-- CMP, immediate operand (R190). -/
def execWCmpImm (c : Cond) (rn : Reg) (rot : BitVec 4) (imm8 : BitVec 8) (s : State) : Outcome :=
  dpTestArith aluSub c rn (.imm rot imm8) s

/-- CMP, register shifted by an immediate amount (R190). -/
def execWCmpShi (c : Cond) (rn : Reg) (shamt : BitVec 5) (ty : ShiftType) (rm : Reg) (s : State) : Outcome :=
  dpTestArith aluSub c rn (.shi shamt ty rm) s

/-- CMP, register shifted by a register amount (R190). -/
def execWCmpShr (c : Cond) (rn : Reg) (rs : Reg) (ty : ShiftType) (rm : Reg) (s : State) : Outcome :=
  dpTestArith aluSub c rn (.shr rs ty rm) s

/-- CMN, immediate operand (R191). -/
def execWCmnImm (c : Cond) (rn : Reg) (rot : BitVec 4) (imm8 : BitVec 8) (s : State) : Outcome :=
  dpTestArith aluAdd c rn (.imm rot imm8) s

/-- CMN, register shifted by an immediate amount (R191). -/
def execWCmnShi (c : Cond) (rn : Reg) (shamt : BitVec 5) (ty : ShiftType) (rm : Reg) (s : State) : Outcome :=
  dpTestArith aluAdd c rn (.shi shamt ty rm) s

/-- CMN, register shifted by a register amount (R191). -/
def execWCmnShr (c : Cond) (rn : Reg) (rs : Reg) (ty : ShiftType) (rm : Reg) (s : State) : Outcome :=
  dpTestArith aluAdd c rn (.shr rs ty rm) s

/-- ORR, immediate operand (R192). -/
def execWOrrImm (c : Cond) (sf : Bool) (rn rd : Reg) (rot : BitVec 4) (imm8 : BitVec 8) (s : State) : Outcome :=
  dpLogical (· ||| ·) c sf rn rd (.imm rot imm8) s

/-- ORR, register shifted by an immediate amount (R192). -/
def execWOrrShi (c : Cond) (sf : Bool) (rn rd : Reg) (shamt : BitVec 5) (ty : ShiftType) (rm : Reg) (s : State) : Outcome :=
  dpLogical (· ||| ·) c sf rn rd (.shi shamt ty rm) s

/-- ORR, register shifted by a register amount (R192). -/
def execWOrrShr (c : Cond) (sf : Bool) (rn rd : Reg) (rs : Reg) (ty : ShiftType) (rm : Reg) (s : State) : Outcome :=
  dpLogical (· ||| ·) c sf rn rd (.shr rs ty rm) s

/-- MOV, immediate operand (R193). -/
def execWMovImm (c : Cond) (sf : Bool) (rd : Reg) (rot : BitVec 4) (imm8 : BitVec 8) (s : State) : Outcome :=
  dpMove (fun b => b) c sf rd (.imm rot imm8) s

/-- MOV, register shifted by an immediate amount (R193). -/
def execWMovShi (c : Cond) (sf : Bool) (rd : Reg) (shamt : BitVec 5) (ty : ShiftType) (rm : Reg) (s : State) : Outcome :=
  dpMove (fun b => b) c sf rd (.shi shamt ty rm) s

/-- MOV, register shifted by a register amount (R193). -/
def execWMovShr (c : Cond) (sf : Bool) (rd : Reg) (rs : Reg) (ty : ShiftType) (rm : Reg) (s : State) : Outcome :=
  dpMove (fun b => b) c sf rd (.shr rs ty rm) s

/-- BIC, immediate operand (R194). -/
def execWBicImm (c : Cond) (sf : Bool) (rn rd : Reg) (rot : BitVec 4) (imm8 : BitVec 8) (s : State) : Outcome :=
  dpLogical (fun a b => a &&& ~~~b) c sf rn rd (.imm rot imm8) s

/-- BIC, register shifted by an immediate amount (R194). -/
def execWBicShi (c : Cond) (sf : Bool) (rn rd : Reg) (shamt : BitVec 5) (ty : ShiftType) (rm : Reg) (s : State) : Outcome :=
  dpLogical (fun a b => a &&& ~~~b) c sf rn rd (.shi shamt ty rm) s

/-- BIC, register shifted by a register amount (R194). -/
def execWBicShr (c : Cond) (sf : Bool) (rn rd : Reg) (rs : Reg) (ty : ShiftType) (rm : Reg) (s : State) : Outcome :=
  dpLogical (fun a b => a &&& ~~~b) c sf rn rd (.shr rs ty rm) s

/-- MVN, immediate operand (R195). -/
def execWMvnImm (c : Cond) (sf : Bool) (rd : Reg) (rot : BitVec 4) (imm8 : BitVec 8) (s : State) : Outcome :=
  dpMove (fun b => ~~~b) c sf rd (.imm rot imm8) s

/-- MVN, register shifted by an immediate amount (R195). -/
def execWMvnShi (c : Cond) (sf : Bool) (rd : Reg) (shamt : BitVec 5) (ty : ShiftType) (rm : Reg) (s : State) : Outcome :=
  dpMove (fun b => ~~~b) c sf rd (.shi shamt ty rm) s

/-- MVN, register shifted by a register amount (R195). -/
def execWMvnShr (c : Cond) (sf : Bool) (rd : Reg) (rs : Reg) (ty : ShiftType) (rm : Reg) (s : State) : Outcome :=
  dpMove (fun b => ~~~b) c sf rd (.shr rs ty rm) s

end Sys2Proof.Machine
end

