-- ==== Sys2Proof/Machine/WideMemory.lean ====
section
/-! DEFINITION. Wide LDR, STR, LDRB and STRB (43_wide_load_store.md R220 to R226). None of them faults: the bus answers every
address. -/

namespace Sys2Proof.Machine

/-- `x[Rn] <- oa` when the form writes back (R222). -/
def State.baseWriteBack (s : State) (wb : Bool) (rn : Reg) (oa : Word) : State := if wb then s.setReg rn oa else s

/-- A load: bus read, then write-back, then `Rd`, so the loaded value wins; `Rd = 15` branches (R222, R223, R225). -/
def wideLoad (n : Width) (c : Cond) (p u w : Bool) (rn rd : Reg) (o : SdtOffset) (s : State) : Outcome :=
  whenCond c (fun s =>
    let v := memRead (transferAddress p u rn o s) n s
    (v.2.baseWriteBack (writesBack p w rn) rn (offsetAddress u rn o s)).writeDest rd v.1) s

/-- A store: the value of `Rd` is read first, then the bus write, then write-back (R222, R224, R226). -/
def wideStore (n : Width) (c : Cond) (p u w : Bool) (rn rd : Reg) (o : SdtOffset) (s : State) : Outcome :=
  whenCond c (fun s =>
    (memWrite (transferAddress p u rn o s) n (s.getReg rd) s).baseWriteBack (writesBack p w rn) rn (offsetAddress u rn o s)) s

/-- LDR, 12-bit immediate offset (R223). -/
def execWLdrImm (c : Cond) (p u w : Bool) (rn rd : Reg) (imm12 : BitVec 12) (s : State) : Outcome :=
  wideLoad .word c p u w rn rd (.imm imm12) s

/-- LDR, shifted register offset (R223). -/
def execWLdrReg (c : Cond) (p u w : Bool) (rn rd : Reg) (shamt : BitVec 5) (ty : ShiftType) (rm : Reg) (s : State) : Outcome :=
  wideLoad .word c p u w rn rd (.reg shamt ty rm) s

/-- STR, 12-bit immediate offset (R224). -/
def execWStrImm (c : Cond) (p u w : Bool) (rn rd : Reg) (imm12 : BitVec 12) (s : State) : Outcome :=
  wideStore .word c p u w rn rd (.imm imm12) s

/-- STR, shifted register offset (R224). -/
def execWStrReg (c : Cond) (p u w : Bool) (rn rd : Reg) (shamt : BitVec 5) (ty : ShiftType) (rm : Reg) (s : State) : Outcome :=
  wideStore .word c p u w rn rd (.reg shamt ty rm) s

/-- LDRB, 12-bit immediate offset (R225). -/
def execWLdrbImm (c : Cond) (p u w : Bool) (rn rd : Reg) (imm12 : BitVec 12) (s : State) : Outcome :=
  wideLoad .byte c p u w rn rd (.imm imm12) s

/-- LDRB, shifted register offset (R225). -/
def execWLdrbReg (c : Cond) (p u w : Bool) (rn rd : Reg) (shamt : BitVec 5) (ty : ShiftType) (rm : Reg) (s : State) : Outcome :=
  wideLoad .byte c p u w rn rd (.reg shamt ty rm) s

/-- STRB, 12-bit immediate offset (R226). -/
def execWStrbImm (c : Cond) (p u w : Bool) (rn rd : Reg) (imm12 : BitVec 12) (s : State) : Outcome :=
  wideStore .byte c p u w rn rd (.imm imm12) s

/-- STRB, shifted register offset (R226). -/
def execWStrbReg (c : Cond) (p u w : Bool) (rn rd : Reg) (shamt : BitVec 5) (ty : ShiftType) (rm : Reg) (s : State) : Outcome :=
  wideStore .byte c p u w rn rd (.reg shamt ty rm) s

end Sys2Proof.Machine
end

