-- ==== Sys2Proof/Machine/Dispatch.lean ====
section
/-! DEFINITION. One arm per instruction, each one call of its meaning. The state is the one the step hands over: `pc` is already
`A + W` (40_step_and_conditions.md R150). -/

namespace Sys2Proof.Machine

def exec (i : Instr) (s : State) : Host.Outcome State Fault Refusal :=
  match i with
  | .wAndImm c sf rn rd rot imm8 => Sys2Proof.Machine.execWAndImm c sf rn rd rot imm8 s
  | .wAndShi c sf rn rd shamt ty rm => Sys2Proof.Machine.execWAndShi c sf rn rd shamt ty rm s
  | .wAndShr c sf rn rd rs ty rm => Sys2Proof.Machine.execWAndShr c sf rn rd rs ty rm s
  | .wEorImm c sf rn rd rot imm8 => Sys2Proof.Machine.execWEorImm c sf rn rd rot imm8 s
  | .wEorShi c sf rn rd shamt ty rm => Sys2Proof.Machine.execWEorShi c sf rn rd shamt ty rm s
  | .wEorShr c sf rn rd rs ty rm => Sys2Proof.Machine.execWEorShr c sf rn rd rs ty rm s
  | .wSubImm c sf rn rd rot imm8 => Sys2Proof.Machine.execWSubImm c sf rn rd rot imm8 s
  | .wSubShi c sf rn rd shamt ty rm => Sys2Proof.Machine.execWSubShi c sf rn rd shamt ty rm s
  | .wSubShr c sf rn rd rs ty rm => Sys2Proof.Machine.execWSubShr c sf rn rd rs ty rm s
  | .wRsbImm c sf rn rd rot imm8 => Sys2Proof.Machine.execWRsbImm c sf rn rd rot imm8 s
  | .wRsbShi c sf rn rd shamt ty rm => Sys2Proof.Machine.execWRsbShi c sf rn rd shamt ty rm s
  | .wRsbShr c sf rn rd rs ty rm => Sys2Proof.Machine.execWRsbShr c sf rn rd rs ty rm s
  | .wAddImm c sf rn rd rot imm8 => Sys2Proof.Machine.execWAddImm c sf rn rd rot imm8 s
  | .wAddShi c sf rn rd shamt ty rm => Sys2Proof.Machine.execWAddShi c sf rn rd shamt ty rm s
  | .wAddShr c sf rn rd rs ty rm => Sys2Proof.Machine.execWAddShr c sf rn rd rs ty rm s
  | .wAdcImm c sf rn rd rot imm8 => Sys2Proof.Machine.execWAdcImm c sf rn rd rot imm8 s
  | .wAdcShi c sf rn rd shamt ty rm => Sys2Proof.Machine.execWAdcShi c sf rn rd shamt ty rm s
  | .wAdcShr c sf rn rd rs ty rm => Sys2Proof.Machine.execWAdcShr c sf rn rd rs ty rm s
  | .wSbcImm c sf rn rd rot imm8 => Sys2Proof.Machine.execWSbcImm c sf rn rd rot imm8 s
  | .wSbcShi c sf rn rd shamt ty rm => Sys2Proof.Machine.execWSbcShi c sf rn rd shamt ty rm s
  | .wSbcShr c sf rn rd rs ty rm => Sys2Proof.Machine.execWSbcShr c sf rn rd rs ty rm s
  | .wRscImm c sf rn rd rot imm8 => Sys2Proof.Machine.execWRscImm c sf rn rd rot imm8 s
  | .wRscShi c sf rn rd shamt ty rm => Sys2Proof.Machine.execWRscShi c sf rn rd shamt ty rm s
  | .wRscShr c sf rn rd rs ty rm => Sys2Proof.Machine.execWRscShr c sf rn rd rs ty rm s
  | .wTstImm c rn rot imm8 => Sys2Proof.Machine.execWTstImm c rn rot imm8 s
  | .wTstShi c rn shamt ty rm => Sys2Proof.Machine.execWTstShi c rn shamt ty rm s
  | .wTstShr c rn rs ty rm => Sys2Proof.Machine.execWTstShr c rn rs ty rm s
  | .wTeqImm c rn rot imm8 => Sys2Proof.Machine.execWTeqImm c rn rot imm8 s
  | .wTeqShi c rn shamt ty rm => Sys2Proof.Machine.execWTeqShi c rn shamt ty rm s
  | .wTeqShr c rn rs ty rm => Sys2Proof.Machine.execWTeqShr c rn rs ty rm s
  | .wCmpImm c rn rot imm8 => Sys2Proof.Machine.execWCmpImm c rn rot imm8 s
  | .wCmpShi c rn shamt ty rm => Sys2Proof.Machine.execWCmpShi c rn shamt ty rm s
  | .wCmpShr c rn rs ty rm => Sys2Proof.Machine.execWCmpShr c rn rs ty rm s
  | .wCmnImm c rn rot imm8 => Sys2Proof.Machine.execWCmnImm c rn rot imm8 s
  | .wCmnShi c rn shamt ty rm => Sys2Proof.Machine.execWCmnShi c rn shamt ty rm s
  | .wCmnShr c rn rs ty rm => Sys2Proof.Machine.execWCmnShr c rn rs ty rm s
  | .wOrrImm c sf rn rd rot imm8 => Sys2Proof.Machine.execWOrrImm c sf rn rd rot imm8 s
  | .wOrrShi c sf rn rd shamt ty rm => Sys2Proof.Machine.execWOrrShi c sf rn rd shamt ty rm s
  | .wOrrShr c sf rn rd rs ty rm => Sys2Proof.Machine.execWOrrShr c sf rn rd rs ty rm s
  | .wMovImm c sf rd rot imm8 => Sys2Proof.Machine.execWMovImm c sf rd rot imm8 s
  | .wMovShi c sf rd shamt ty rm => Sys2Proof.Machine.execWMovShi c sf rd shamt ty rm s
  | .wMovShr c sf rd rs ty rm => Sys2Proof.Machine.execWMovShr c sf rd rs ty rm s
  | .wBicImm c sf rn rd rot imm8 => Sys2Proof.Machine.execWBicImm c sf rn rd rot imm8 s
  | .wBicShi c sf rn rd shamt ty rm => Sys2Proof.Machine.execWBicShi c sf rn rd shamt ty rm s
  | .wBicShr c sf rn rd rs ty rm => Sys2Proof.Machine.execWBicShr c sf rn rd rs ty rm s
  | .wMvnImm c sf rd rot imm8 => Sys2Proof.Machine.execWMvnImm c sf rd rot imm8 s
  | .wMvnShi c sf rd shamt ty rm => Sys2Proof.Machine.execWMvnShi c sf rd shamt ty rm s
  | .wMvnShr c sf rd rs ty rm => Sys2Proof.Machine.execWMvnShr c sf rd rs ty rm s
  | .wB c imm24 => Sys2Proof.Machine.execWB c imm24 s
  | .wBl c imm24 => Sys2Proof.Machine.execWBl c imm24 s
  | .wBx c rm => Sys2Proof.Machine.execWBx c rm s
  | .wSwi c comment24 => Sys2Proof.Machine.execWSwi c comment24 s
  | .wLdrImm c p u w rn rd imm12 => Sys2Proof.Machine.execWLdrImm c p u w rn rd imm12 s
  | .wLdrReg c p u w rn rd shamt ty rm => Sys2Proof.Machine.execWLdrReg c p u w rn rd shamt ty rm s
  | .wStrImm c p u w rn rd imm12 => Sys2Proof.Machine.execWStrImm c p u w rn rd imm12 s
  | .wStrReg c p u w rn rd shamt ty rm => Sys2Proof.Machine.execWStrReg c p u w rn rd shamt ty rm s
  | .wLdrbImm c p u w rn rd imm12 => Sys2Proof.Machine.execWLdrbImm c p u w rn rd imm12 s
  | .wLdrbReg c p u w rn rd shamt ty rm => Sys2Proof.Machine.execWLdrbReg c p u w rn rd shamt ty rm s
  | .wStrbImm c p u w rn rd imm12 => Sys2Proof.Machine.execWStrbImm c p u w rn rd imm12 s
  | .wStrbReg c p u w rn rd shamt ty rm => Sys2Proof.Machine.execWStrbReg c p u w rn rd shamt ty rm s
  | .nLslImm imm5 rs rd => Sys2Proof.Machine.execNLslImm imm5 rs rd s
  | .nLsrImm imm5 rs rd => Sys2Proof.Machine.execNLsrImm imm5 rs rd s
  | .nAsrImm imm5 rs rd => Sys2Proof.Machine.execNAsrImm imm5 rs rd s
  | .nAddReg rn rs rd => Sys2Proof.Machine.execNAddReg rn rs rd s
  | .nSubReg rn rs rd => Sys2Proof.Machine.execNSubReg rn rs rd s
  | .nAddImm3 imm3 rs rd => Sys2Proof.Machine.execNAddImm3 imm3 rs rd s
  | .nSubImm3 imm3 rs rd => Sys2Proof.Machine.execNSubImm3 imm3 rs rd s
  | .nMovImm8 rd imm8 => Sys2Proof.Machine.execNMovImm8 rd imm8 s
  | .nCmpImm8 rd imm8 => Sys2Proof.Machine.execNCmpImm8 rd imm8 s
  | .nAddImm8 rd imm8 => Sys2Proof.Machine.execNAddImm8 rd imm8 s
  | .nSubImm8 rd imm8 => Sys2Proof.Machine.execNSubImm8 rd imm8 s
  | .nAnd rs rd => Sys2Proof.Machine.execNAnd rs rd s
  | .nEor rs rd => Sys2Proof.Machine.execNEor rs rd s
  | .nLslReg rs rd => Sys2Proof.Machine.execNLslReg rs rd s
  | .nLsrReg rs rd => Sys2Proof.Machine.execNLsrReg rs rd s
  | .nAsrReg rs rd => Sys2Proof.Machine.execNAsrReg rs rd s
  | .nAdc rs rd => Sys2Proof.Machine.execNAdc rs rd s
  | .nSbc rs rd => Sys2Proof.Machine.execNSbc rs rd s
  | .nRorReg rs rd => Sys2Proof.Machine.execNRorReg rs rd s
  | .nTst rs rd => Sys2Proof.Machine.execNTst rs rd s
  | .nNeg rs rd => Sys2Proof.Machine.execNNeg rs rd s
  | .nCmpReg rs rd => Sys2Proof.Machine.execNCmpReg rs rd s
  | .nCmn rs rd => Sys2Proof.Machine.execNCmn rs rd s
  | .nOrr rs rd => Sys2Proof.Machine.execNOrr rs rd s
  | .nBic rs rd => Sys2Proof.Machine.execNBic rs rd s
  | .nMvn rs rd => Sys2Proof.Machine.execNMvn rs rd s
  | .nAddHigh rs rd => Sys2Proof.Machine.execNAddHigh rs rd s
  | .nCmpHigh rs rd => Sys2Proof.Machine.execNCmpHigh rs rd s
  | .nMovHigh rs rd => Sys2Proof.Machine.execNMovHigh rs rd s
  | .nBx rs => Sys2Proof.Machine.execNBx rs s
  | .nLdrPc rd imm8 => Sys2Proof.Machine.execNLdrPc rd imm8 s
  | .nStrImm imm5 rb rd => Sys2Proof.Machine.execNStrImm imm5 rb rd s
  | .nLdrImm imm5 rb rd => Sys2Proof.Machine.execNLdrImm imm5 rb rd s
  | .nStrbImm imm5 rb rd => Sys2Proof.Machine.execNStrbImm imm5 rb rd s
  | .nLdrbImm imm5 rb rd => Sys2Proof.Machine.execNLdrbImm imm5 rb rd s
  | .nBeq soff8 => Sys2Proof.Machine.execNBeq soff8 s
  | .nBne soff8 => Sys2Proof.Machine.execNBne soff8 s
  | .nBcs soff8 => Sys2Proof.Machine.execNBcs soff8 s
  | .nBcc soff8 => Sys2Proof.Machine.execNBcc soff8 s
  | .nBmi soff8 => Sys2Proof.Machine.execNBmi soff8 s
  | .nBpl soff8 => Sys2Proof.Machine.execNBpl soff8 s
  | .nBvs soff8 => Sys2Proof.Machine.execNBvs soff8 s
  | .nBvc soff8 => Sys2Proof.Machine.execNBvc soff8 s
  | .nBhi soff8 => Sys2Proof.Machine.execNBhi soff8 s
  | .nBls soff8 => Sys2Proof.Machine.execNBls soff8 s
  | .nBge soff8 => Sys2Proof.Machine.execNBge soff8 s
  | .nBlt soff8 => Sys2Proof.Machine.execNBlt soff8 s
  | .nBgt soff8 => Sys2Proof.Machine.execNBgt soff8 s
  | .nBle soff8 => Sys2Proof.Machine.execNBle soff8 s
  | .nSwi comment8 => Sys2Proof.Machine.execNSwi comment8 s
  | .nB off11 => Sys2Proof.Machine.execNB off11 s
  | .nBlPrefix off11 => Sys2Proof.Machine.execNBlPrefix off11 s
  | .nBlSuffix off11 => Sys2Proof.Machine.execNBlSuffix off11 s

end Sys2Proof.Machine
end

