-- ==== Sys2Proof/Machine/Fetch.lean ====
section
/-! DEFINITION. Fetching an instruction (40_step_and_conditions.md R150 steps 1 to 4, R151; 20_memory.md R73), the cost of a step,
and placing an instruction where the next step fetches it. -/

namespace Sys2Proof.Machine

/-- The access width of the fetch: 2 bytes when T = 1, 4 when T = 0 (30_encoding.md R110). -/
def State.fetchWidth (s : State) : Width := if s.flagT then .half else .word

/-- `W` as an amount added to `pc` (40_step_and_conditions.md R150 steps 1 and 4). -/
def State.instrBytes (s : State) : Word := if s.flagT then 2#32 else 4#32

/-- `MemRead(pc, W)`: the fetched pattern, and the state with the warnings of an ordinary bus read (R150 step 3, R151). -/
def fetch (s : State) : CodeUnit × State :=
  let v := memRead s.pc s.fetchWidth s
  (if s.flagT then .narrow (v.1.setWidth 16) else .wide v.1, v.2)

/-- `pc <- (A + W) mod 2^32` (R150 step 4). -/
def State.advancePc (s : State) : State := s.setPc (s.pc + s.instrBytes)

/-- What the next step fetches, decoded, and the state an instruction executes in. -/
def fetchInstr (s : State) : Decoded × State := (decode (fetch s).1, (fetch s).2.advancePc)

/-- `cycles <- cycles + STEP_CYCLES` (R150 step 6). -/
def State.charge (s : State) : State := { s with cycles := s.cycles + Config.stepCycles }

/-- `pc`, or 0 (the base of `BOOT`) where the address map has no storage at `pc` to place an instruction in (log 4). -/
def placeAddress (n : Width) (s : State) : Word :=
  match mapAddr s.cartLen (alignTo s.pc n) n with
  | .hit _ _ => s.pc
  | _ => 0#32

/-- The word to store at the aligned address so that a fetch at `a` reads `v`: the rotation of a misaligned word read undone. -/
def unrotateRead (a v : Word) (n : Width) : Word :=
  match n with
  | .word => ror32 v ((32 - 8 * (a.extractLsb' 0 2).toNat) % 32)
  | _ => v

/-- T selects the width, and the instruction's bytes stand at `pc` (log 4). -/
def placeInstr (narrow : Bool) (v : Word) (s : State) : State :=
  let n : Width := if narrow then .half else .word
  let a := placeAddress n (s.setT narrow)
  { (s.setT narrow).setPc a with mem := s.mem.store (alignTo a n).toNat n (unrotateRead a v n) }

end Sys2Proof.Machine
end

