-- ==== Sys2Proof/Machine/Video.lean ====
section
/-! DEFINITION. The Video Timing Unit: the colour conversion, the renderer of one scanline and the scanline clock
(48_video_timing_unit.md R316 to R324). It reads memory directly and records no warning (20_memory.md R88). -/

namespace Sys2Proof.Machine

/-- `R16[o]`: the little-endian halfword at offset `o` of a region (48_video_timing_unit.md R317). -/
def regionHalf (m : Memory) (r : Region) (off : Nat) : Half := m.get (r.key (off + 1)) ++ m.get (r.key off)

/-- The rescale of a channel: `floor(ch5 * 255 / 31)` (48_video_timing_unit.md R322). -/
def channel8 (ch5 : BitVec 5) : Byte := BitVec.ofNat 8 (ch5.toNat * 255 / 31)

/-- `Colour(c)`: red in bits 4:0, green in 9:5, blue in 14:10, bit 15 ignored (48_video_timing_unit.md R322). -/
def colour (c : Half) : Pixel :=
  { r := channel8 (c.extractLsb' 0 5), g := channel8 (c.extractLsb' 5 5), b := channel8 (c.extractLsb' 10 5) }

/-- `BLANK` (48_video_timing_unit.md R320). -/
def blankPixel : Pixel := { r := 255#8, g := 255#8, b := 255#8 }

/-- `DIAG` (48_video_timing_unit.md R321). -/
def diagPixel : Pixel := { r := 255#8, g := 0#8, b := 255#8 }

/-- DISPCNT (48_video_timing_unit.md R312). -/
def dispcnt (m : Memory) : Half := regionHalf m .io 0x000

/-- The `VRAM` offset of the page DISPCNT bit 4 selects in mode 4 (48_video_timing_unit.md R319). -/
def pageBase (ctl : Half) : Nat := if ctl.getLsbD 4 then 0xA000 else 0

/-- The colour of pixel (x, y) under control value `ctl` (48_video_timing_unit.md R317 to R321). -/
def renderPixel (m : Memory) (ctl : Half) (y x : Nat) : Pixel :=
  if ctl.getLsbD 7 then blankPixel
  else if ctl.extractLsb' 0 3 = 3#3 then colour (regionHalf m .vram ((y * Config.visW + x) * 2))
  else if ctl.extractLsb' 0 3 = 4#3 then
    colour (regionHalf m .pal (2 * (m.get (Region.key .vram (pageBase ctl + y * Config.visW + x))).toNat))
  else diagPixel

/-- The 240 cells of scanline `y`. -/
def renderRow (m : Memory) (y : Nat) : Row := Vector.ofFn (fun x => renderPixel m (dispcnt m) y x.val)

/-- `RenderLine(y)`: writes row `y` of the frame buffer and nothing else; for `y` outside 0..159 nothing (R317). -/
def renderLine (fb : FrameBuffer) (m : Memory) (y : Nat) : FrameBuffer := fb.setIfInBounds y (renderRow m y)

/-- The line after `line`: `(line + 1) mod LINES` (R316). -/
def nextLine (line : Nat) : Nat := (line + 1) % Config.lines

/-- The body of the loop of `advance`: one scanline completes (R316). -/
def completeLine (p : Vtu × Memory) : Vtu × Memory :=
  ({ line := nextLine p.1.line
     acc := p.1.acc - Config.lineCycles
     frame := if nextLine p.1.line = 0 then p.1.frame + 1 else p.1.frame
     fb := if p.1.line < Config.visH then renderLine p.1.fb p.2 p.1.line else p.1.fb },
   vtuRefresh (nextLine p.1.line) p.2)

/-- `while acc >= LINE_CYCLES`, at most `k` times (R316). -/
def advanceLoop : Nat → Vtu × Memory → Vtu × Memory
  | 0, p => p
  | k + 1, p => if Config.lineCycles ≤ p.1.acc then advanceLoop k (completeLine p) else p

/-- `advance(c)` on the unit and the memory it reads and refreshes. The loop runs `(acc + c) / LINE_CYCLES` times, which is when
its condition fails (log 13). -/
def advanceVtu (c : Nat) (v : Vtu) (m : Memory) : Vtu × Memory :=
  advanceLoop ((v.acc + c) / Config.lineCycles) ({ v with acc := v.acc + c }, m)

/-- `advance(c)` (48_video_timing_unit.md R316). -/
def advance (c : Nat) (s : State) : State :=
  { s with vtu := (advanceVtu c s.vtu s.mem).1, mem := (advanceVtu c s.vtu s.mem).2 }

end Sys2Proof.Machine
end

