-- ==== Sys2Proof/Machine/Run.lean ====
section
/-! DEFINITION. The processor step and the system step (40_step_and_conditions.md R150, R158). -/

namespace Sys2Proof.Machine

/-- Execute a decode result: a RESERVED pattern does nothing (40_step_and_conditions.md R159). -/
def execDecoded (d : Decoded) (s : State) : Outcome :=
  match d with
  | .instr i => exec i s
  | .reserved _ => .next s

/-- Do `f` to the state of an outcome that has one. -/
def thenDo (f : State → State) (o : Outcome) : Outcome :=
  match o with
  | .next s => .next (f s)
  | .fault r => .fault r
  | .refused r => .refused r

/-- One processor step: fetch, advance `pc`, execute, charge `STEP_CYCLES` (40_step_and_conditions.md R150). -/
def procStep (s : State) : Outcome := thenDo State.charge (execDecoded (fetchInstr s).1 (fetchInstr s).2)

/-- `SystemStep()`: one processor step, then the VTU is advanced by its cost (40_step_and_conditions.md R158; log 3). -/
def systemStep (s : State) : Outcome := thenDo (advance Config.stepCycles) (procStep s)

end Sys2Proof.Machine
end

