-- ==== Sys2Proof/Machine/Step.lean ====
section
/-! DEFINITION. The step of the machine, and the state in which the next step runs a given instruction. -/

namespace Sys2Proof.Machine

/-- One step of the hardware: the system step (40_step_and_conditions.md R158; log 3). -/
def step (s : State) : Host.Outcome State Fault Refusal := systemStep s

/-- `s` with an instruction of `nbits` bits stored where the next step fetches: 16 bits is a narrow instruction, more a wide one
(log 4). -/
def State.withFetchWord (s : State) (nbits w : Nat) : State :=
  placeInstr (decide (nbits ≤ 16)) (BitVec.ofNat 32 (w % 2 ^ nbits)) s

end Sys2Proof.Machine
end

