-- ==== Sys2Proof/Machine/Ports.lean ====
section
/-! DEFINITION. The input latch and the host's operations (49_input_latch_and_host.md R340 to R359; 70_reset_and_hazards.md R400).
They happen only between two steps (R359), so they are functions beside `step`, not part of it (log 8). -/

namespace Sys2Proof.Machine

/-! ## The input latch -/

/-- KEYINPUT's two bytes from the button mask: `0xFFFF ^ buttons` (49_input_latch_and_host.md R341, R342). -/
def mirrorButtons (b : BitVec 16) (m : Memory) : Memory :=
  let k := 0xFFFF#16 ^^^ b
  (m.set (Region.key .io 0x130) (k.extractLsb' 0 8)).set (Region.key .io 0x131) (k.extractLsb' 8 8)

/-- The mask with button `id` held or not. -/
def pressButton (id : Nat) (pressed : Bool) (b : BitVec 16) : BitVec 16 :=
  if pressed then b ||| (1#16 <<< id) else b &&& ~~~(1#16 <<< id)

/-- `set_button(id, pressed)`: unknown identifiers are ignored (49_input_latch_and_host.md R341). -/
def setButton (id : Int) (pressed : Bool) (s : State) : State :=
  if 0 ≤ id ∧ id ≤ 9 then
    { s with
      buttons := pressButton id.toNat pressed s.buttons
      mem := mirrorButtons (pressButton id.toNat pressed s.buttons) s.mem }
  else s

/-! ## Reset and power-on -/

/-- `reset()` (70_reset_and_hazards.md R400, R401). -/
def resetMachine (s : State) : State :=
  { s with
    regs := RegFile.zero, spsr := SpsrFile.zero, cpsr := resetCpsr, cycles := 0, vtu := Vtu.zero
    mem := mirrorButtons s.buttons (vtuRefresh 0 s.mem) }

/-- The state as constructed, before the first reset: every byte of every fixed region 0, so the three bytes that read otherwise
when unlisted are listed as 0 (10_state.md R47; 49_input_latch_and_host.md R346). -/
def constructed : State :=
  { State.reset with mem := [(0x04000004, 0#8), (0x04000130, 0#8), (0x04000131, 0#8)] }

/-- `power_on()`: construction, then `reset()` (49_input_latch_and_host.md R346). -/
def powerOn : State := resetMachine constructed

/-! ## Bulk loads (20_memory.md R102) -/

/-- Write a list of bytes from bus address `a` up. -/
def Memory.loadBytes : Memory → Nat → List Byte → Memory
  | m, _, [] => m
  | m, a, b :: bs => Memory.loadBytes (m.set a b) (a + 1) bs

/-- Every byte from `lo` up to but not including `hi` as at power-on: for `CART` and `SAVE` that is 0. -/
def Memory.clearRange (m : Memory) (lo hi : Nat) : Memory := m.filter (fun c => !(decide (lo ≤ c.1) && decide (c.1 < hi)))

/-- The largest cartridge image: 32 MiB (49_input_latch_and_host.md R349). -/
def cartCapacity : Nat := 0x02000000

/-- A truncated load leaves an entry in the warning log (20_memory.md R90). -/
def State.warnOversize (s : State) (which : Image) (given capacity : Nat) : State :=
  if capacity < given then s.warn (.oversizeImage which given capacity) else s

/-- `load_boot_image(bytes)` (49_input_latch_and_host.md R348). -/
def loadBootImage (bytes : List Byte) (s : State) : State :=
  State.warnOversize { s with mem := s.mem.loadBytes (Region.key .boot 0) (bytes.take 0x4000) } .boot bytes.length 0x4000

/-- `load_cartridge_image(bytes)`: no byte of an earlier image survives (49_input_latch_and_host.md R349). -/
def loadCartridgeImage (bytes : List Byte) (s : State) : State :=
  let base := Region.key .cart 0
  State.warnOversize
    { s with
      mem := (s.mem.clearRange base (base + cartCapacity)).loadBytes base (bytes.take cartCapacity)
      cartLen := min bytes.length cartCapacity }
    .cartridge bytes.length cartCapacity

/-- `load_save(bytes)`: the tail is zero-filled (49_input_latch_and_host.md R350). -/
def loadSave (bytes : List Byte) (s : State) : State :=
  let base := Region.key .save 0
  State.warnOversize
    { s with mem := (s.mem.clearRange base (base + 0x10000)).loadBytes base (bytes.take 0x10000) }
    .save bytes.length 0x10000

/-! ## Accessors -/

/-- The flags the host can name (49_input_latch_and_host.md R356). -/
inductive StatusFlag where
  | n | z | c | v | t
  deriving DecidableEq, Repr

/-- The bit of `CPSR` a flag is (10_state.md R31). -/
def StatusFlag.bit : StatusFlag → Nat
  | .n => 31
  | .z => 30
  | .c => 29
  | .v => 28
  | .t => 5

/-- `set_mode(m)`: `CPSR[4:0] <- m` and nothing else (49_input_latch_and_host.md R357). -/
def setMode (m : BitVec 5) (s : State) : State :=
  { s with cpsr := (s.cpsr &&& 0xFFFFFFE0#32) ||| m.setWidth 32 }

/-- The saved-status register of a bank; `usr` has none (10_state.md R37). -/
def SpsrFile.get? (f : SpsrFile) : Bank → Option Word
  | .usr => none
  | .fiq => some f.fiq
  | .irq => some f.irq
  | .svc => some f.svc
  | .abt => some f.abt
  | .und => some f.und

/-- Write the saved-status register of a bank; `usr` has none. -/
def SpsrFile.set? (f : SpsrFile) (v : Word) : Bank → Option SpsrFile
  | .usr => none
  | .fiq => some { f with fiq := v }
  | .irq => some { f with irq := v }
  | .svc => some { f with svc := v }
  | .abt => some { f with abt := v }
  | .und => some { f with und := v }

/-- A host access width: 1, 2 or 4 bytes (49_input_latch_and_host.md R358). -/
def Width.ofNat? (n : Nat) : Option Width :=
  match n with
  | 1 => some .byte
  | 2 => some .half
  | 4 => some .word
  | _ => none

/-- A host register index: 0..15 (49_input_latch_and_host.md R355, R358). -/
def regIndex? (i : Int) : Option Reg :=
  if 0 ≤ i ∧ i ≤ 15 then some (BitVec.ofNat 4 i.toNat) else none

/-! ## The operations, one constructor each (49_input_latch_and_host.md R345) -/

/-- The complete list of host operations (49_input_latch_and_host.md R345). -/
inductive PortOp where
  | powerOn
  | reset
  | loadBootImage (bytes : List Byte)
  | loadCartridgeImage (bytes : List Byte)
  | loadSave (bytes : List Byte)
  | step
  | advance (cycles : Int)
  | systemStep
  | frameBuffer
  | read (addr : Word) (width : Nat)
  | write (addr : Word) (value : Nat) (width : Nat)
  | warnings
  | getRegister (i : Int)
  | setRegister (i : Int) (v : Nat)
  | getFlag (f : StatusFlag)
  | setFlag (f : StatusFlag) (b : Bool)
  | getMode
  | getStatus
  | setStatus (v : Word)
  | setMode (m : BitVec 5)
  | getSavedStatus (b : Bank)
  | setSavedStatus (b : Bank) (v : Word)
  | setButton (id : Int) (pressed : Bool)
  | frameCount
  | cycleCount
  deriving DecidableEq, Repr

/-- What a host operation returns. -/
inductive PortResult where
  | unit
  | word (v : Word)
  | flag (b : Bool)
  | mode (m : BitVec 5)
  | count (n : Nat)
  | log (ws : List Warning)
  | cells (ps : List Pixel)
  deriving DecidableEq, Repr

/-- The outcome of a host operation. -/
abbrev PortOutcome := Host.Outcome (PortResult × State) Fault Refusal

/-- A call outside the domain of its operation: refused at the boundary, the state unchanged (49_input_latch_and_host.md R358). -/
def violates (operation : String) : PortOutcome := .refused (.contractViolation operation)

/-- The outcome of a step as a host sees it. `step()` returns the cycle cost (40_step_and_conditions.md R150). The spec gives
`SystemStep()` no result (R158; 49_input_latch_and_host.md R345): that it returns the same cost is a DESIGN CHOICE (log 14). -/
def stepOutcome (o : Outcome) : PortOutcome :=
  match o with
  | .next t => .next (.count Config.stepCycles, t)
  | .fault r => .fault r
  | .refused r => .refused r

/-- Every cell in row-major order (48_video_timing_unit.md R323). -/
def FrameBuffer.cells (fb : FrameBuffer) : List Pixel := fb.toList.flatMap (fun row => row.toList)

/-- A load of an image is defined for one byte or more (49_input_latch_and_host.md R358). -/
def loadOutcome (name : String) (bytes : List Byte) (t : State) : PortOutcome :=
  if bytes.length = 0 then violates name else .next (.unit, t)

/-- The effect and the result of every host operation (49_input_latch_and_host.md R345 to R358). `power_on()` happens once (R346), and
the spec says nothing of a second call: that it is accepted in any state and constructs the state anew is a DESIGN CHOICE (log 15). -/
def portStep (op : PortOp) (s : State) : PortOutcome :=
  match op with
  | .powerOn => .next (.unit, powerOn)
  | .reset => .next (.unit, resetMachine s)
  | .loadBootImage bytes => loadOutcome "load_boot_image" bytes (loadBootImage bytes s)
  | .loadCartridgeImage bytes => loadOutcome "load_cartridge_image" bytes (loadCartridgeImage bytes s)
  | .loadSave bytes => loadOutcome "load_save" bytes (loadSave bytes s)
  | .step => stepOutcome (procStep s)
  | .advance cycles => if 0 ≤ cycles then .next (.unit, advance cycles.toNat s) else violates "advance"
  | .systemStep => stepOutcome (systemStep s)
  | .frameBuffer => .next (.cells s.vtu.fb.cells, s)
  | .read addr width =>
    match Width.ofNat? width with
    | some n => .next (.word (memRead addr n s).1, (memRead addr n s).2)
    | none => violates "read"
  | .write addr value width =>
    match Width.ofNat? width with
    | some n => .next (.unit, memWrite addr n (BitVec.ofNat 32 value) s)
    | none => violates "write"
  | .warnings => .next (.log s.warnings, { s with warnings := [] })
  | .getRegister i =>
    match regIndex? i with
    | some r => .next (.word (s.getReg r), s)
    | none => violates "get_register"
  | .setRegister i v =>
    match regIndex? i with
    | some r => .next (.unit, s.setReg r (BitVec.ofNat 32 v))
    | none => violates "set_register"
  | .getFlag f => .next (.flag (s.cpsr.getLsbD f.bit), s)
  | .setFlag f b => .next (.unit, { s with cpsr := setBit s.cpsr f.bit b })
  | .getMode => .next (.mode s.mode, s)
  | .getStatus => .next (.word s.cpsr, s)
  | .setStatus v => .next (.unit, { s with cpsr := v })
  | .setMode m => .next (.unit, setMode m s)
  | .getSavedStatus b =>
    match s.spsr.get? b with
    | some v => .next (.word v, s)
    | none => violates "get_saved_status"
  | .setSavedStatus b v =>
    match s.spsr.set? v b with
    | some f => .next (.unit, { s with spsr := f })
    | none => violates "set_saved_status"
  | .setButton id pressed => .next (.unit, setButton id pressed s)
  | .frameCount => .next (.count s.vtu.frame, s)
  | .cycleCount => .next (.count s.cycles, s)

end Sys2Proof.Machine
end

