-- ==== Sys2Proof/Safety.lean ====
section
/-! DEFINITION. What a good state and a safe run are, in the terms the claims use, and what it is that an instruction completes with. -/

namespace Sys2Proof.Machine

/-- Memory is in its one canonical form. -/
abbrev State.MemoryCanonical (s : State) : Prop := s.mem.wf = true

/-- `a` is the bus address of a byte of some region's buffer (20_memory.md R61, R62). -/
def isMapped (cartLen : Nat) (a : Nat) : Bool :=
  match regionOf (a / 0x1000000) with
  | none => false
  | some r => decide (a - r.base < r.length cartLen)

/-- Only bytes of region buffers are listed: nothing outside the address map, nothing past `CART_LEN` (10_state.md R41). -/
abbrev State.MemoryMapped (s : State) : Prop := ∀ c ∈ s.mem, isMapped s.cartLen c.1 = true

/-- The ranges of the counters (10_state.md R43; 48_video_timing_unit.md R311). -/
abbrev State.ClockInRange (s : State) : Prop := s.vtu.line < Config.lines ∧ s.vtu.acc < Config.lineCycles

/-- VCOUNT shows `line`, and DISPSTAT bits 2:0 are those of `line` and the stored `compare` (48_video_timing_unit.md R315). -/
abbrev State.DisplayStatusConsistent (s : State) : Prop :=
  s.mem.get 0x04000006 = BitVec.ofNat 8 s.vtu.line ∧
  s.mem.get 0x04000007 = 0#8 ∧
  s.mem.get 0x04000004 &&& 0x07#8 = statusBits s.vtu.line (s.mem.get 0x04000005)

/-- KEYINPUT is `0xFFFF ^ buttons`, and only bits 0..9 of `buttons` can be 1 (49_input_latch_and_host.md R340, R342). -/
abbrev State.InputMirrored (s : State) : Prop :=
  s.mem.get 0x04000131 ++ s.mem.get 0x04000130 = 0xFFFF#16 ^^^ s.buttons ∧ s.buttons &&& 0xFC00#16 = 0#16

/-- `pc` is aligned to the width T selects: bits 1:0 clear in wide mode, bit 0 in narrow mode (10_state.md R29). -/
abbrev State.PcAligned (s : State) : Prop :=
  if s.flagT then s.pc.getLsbD 0 = false else s.pc.extractLsb' 0 2 = 0#2

/-- `CART_LEN` is at most 32 MiB (00_scope.md R10). -/
abbrev State.CartInRange (s : State) : Prop := s.cartLen ≤ cartCapacity

/-- The invariant of the machine: what every step and every host operation but the two that can misalign `pc` keeps. -/
abbrev State.Inv (s : State) : Prop :=
  s.MemoryCanonical ∧ s.MemoryMapped ∧ s.ClockInRange ∧ s.DisplayStatusConsistent ∧ s.InputMirrored ∧ s.CartInRange

/-- A safe run: it never stops, however many steps are taken (40_step_and_conditions.md R162). -/
def SafeRun (s : State) : Prop := ∀ k, ∃ t, Sys2Proof.core.run k s = .next t

/-! ## What can be said of an instruction as syntax -/

/-- The condition a wide instruction carries; a narrow instruction carries none (30_encoding.md R112, R120). -/
def conditionOf : Instr → Option Cond
  | .wAndImm c _ _ _ _ _ => some c
  | .wAndShi c _ _ _ _ _ _ => some c
  | .wAndShr c _ _ _ _ _ _ => some c
  | .wEorImm c _ _ _ _ _ => some c
  | .wEorShi c _ _ _ _ _ _ => some c
  | .wEorShr c _ _ _ _ _ _ => some c
  | .wSubImm c _ _ _ _ _ => some c
  | .wSubShi c _ _ _ _ _ _ => some c
  | .wSubShr c _ _ _ _ _ _ => some c
  | .wRsbImm c _ _ _ _ _ => some c
  | .wRsbShi c _ _ _ _ _ _ => some c
  | .wRsbShr c _ _ _ _ _ _ => some c
  | .wAddImm c _ _ _ _ _ => some c
  | .wAddShi c _ _ _ _ _ _ => some c
  | .wAddShr c _ _ _ _ _ _ => some c
  | .wAdcImm c _ _ _ _ _ => some c
  | .wAdcShi c _ _ _ _ _ _ => some c
  | .wAdcShr c _ _ _ _ _ _ => some c
  | .wSbcImm c _ _ _ _ _ => some c
  | .wSbcShi c _ _ _ _ _ _ => some c
  | .wSbcShr c _ _ _ _ _ _ => some c
  | .wRscImm c _ _ _ _ _ => some c
  | .wRscShi c _ _ _ _ _ _ => some c
  | .wRscShr c _ _ _ _ _ _ => some c
  | .wTstImm c _ _ _ => some c
  | .wTstShi c _ _ _ _ => some c
  | .wTstShr c _ _ _ _ => some c
  | .wTeqImm c _ _ _ => some c
  | .wTeqShi c _ _ _ _ => some c
  | .wTeqShr c _ _ _ _ => some c
  | .wCmpImm c _ _ _ => some c
  | .wCmpShi c _ _ _ _ => some c
  | .wCmpShr c _ _ _ _ => some c
  | .wCmnImm c _ _ _ => some c
  | .wCmnShi c _ _ _ _ => some c
  | .wCmnShr c _ _ _ _ => some c
  | .wOrrImm c _ _ _ _ _ => some c
  | .wOrrShi c _ _ _ _ _ _ => some c
  | .wOrrShr c _ _ _ _ _ _ => some c
  | .wMovImm c _ _ _ _ => some c
  | .wMovShi c _ _ _ _ _ => some c
  | .wMovShr c _ _ _ _ _ => some c
  | .wBicImm c _ _ _ _ _ => some c
  | .wBicShi c _ _ _ _ _ _ => some c
  | .wBicShr c _ _ _ _ _ _ => some c
  | .wMvnImm c _ _ _ _ => some c
  | .wMvnShi c _ _ _ _ _ => some c
  | .wMvnShr c _ _ _ _ _ => some c
  | .wB c _ => some c
  | .wBl c _ => some c
  | .wBx c _ => some c
  | .wSwi c _ => some c
  | .wLdrImm c _ _ _ _ _ _ => some c
  | .wLdrReg c _ _ _ _ _ _ _ _ => some c
  | .wStrImm c _ _ _ _ _ _ => some c
  | .wStrReg c _ _ _ _ _ _ _ _ => some c
  | .wLdrbImm c _ _ _ _ _ _ => some c
  | .wLdrbReg c _ _ _ _ _ _ _ _ => some c
  | .wStrbImm c _ _ _ _ _ _ => some c
  | .wStrbReg c _ _ _ _ _ _ _ _ => some c
  | .nLslImm _ _ _ => none
  | .nLsrImm _ _ _ => none
  | .nAsrImm _ _ _ => none
  | .nAddReg _ _ _ => none
  | .nSubReg _ _ _ => none
  | .nAddImm3 _ _ _ => none
  | .nSubImm3 _ _ _ => none
  | .nMovImm8 _ _ => none
  | .nCmpImm8 _ _ => none
  | .nAddImm8 _ _ => none
  | .nSubImm8 _ _ => none
  | .nAnd _ _ => none
  | .nEor _ _ => none
  | .nLslReg _ _ => none
  | .nLsrReg _ _ => none
  | .nAsrReg _ _ => none
  | .nAdc _ _ => none
  | .nSbc _ _ => none
  | .nRorReg _ _ => none
  | .nTst _ _ => none
  | .nNeg _ _ => none
  | .nCmpReg _ _ => none
  | .nCmn _ _ => none
  | .nOrr _ _ => none
  | .nBic _ _ => none
  | .nMvn _ _ => none
  | .nAddHigh _ _ => none
  | .nCmpHigh _ _ => none
  | .nMovHigh _ _ => none
  | .nBx _ => none
  | .nLdrPc _ _ => none
  | .nStrImm _ _ _ => none
  | .nLdrImm _ _ _ => none
  | .nStrbImm _ _ _ => none
  | .nLdrbImm _ _ _ => none
  | .nBeq _ => none
  | .nBne _ => none
  | .nBcs _ => none
  | .nBcc _ => none
  | .nBmi _ => none
  | .nBpl _ => none
  | .nBvs _ => none
  | .nBvc _ => none
  | .nBhi _ => none
  | .nBls _ => none
  | .nBge _ => none
  | .nBlt _ => none
  | .nBgt _ => none
  | .nBle _ => none
  | .nSwi _ => none
  | .nB _ => none
  | .nBlPrefix _ => none
  | .nBlSuffix _ => none

/-- The bits of an instruction's pattern that the spec says are ignored and that are no operand: `Rd` of the four tests, `Rn` of MOV
and MVN, bits 2:0 of the narrow BX (41_wide_data_processing.md R177; 45_narrow_branch_load_store.md R290). -/
def ignoredBits : Instr → Word
  | .wTstImm _ _ _ _ | .wTstShi _ _ _ _ _ | .wTstShr _ _ _ _ _ => 0x0000F000#32
  | .wTeqImm _ _ _ _ | .wTeqShi _ _ _ _ _ | .wTeqShr _ _ _ _ _ => 0x0000F000#32
  | .wCmpImm _ _ _ _ | .wCmpShi _ _ _ _ _ | .wCmpShr _ _ _ _ _ => 0x0000F000#32
  | .wCmnImm _ _ _ _ | .wCmnShi _ _ _ _ _ | .wCmnShr _ _ _ _ _ => 0x0000F000#32
  | .wMovImm _ _ _ _ _ | .wMovShi _ _ _ _ _ _ | .wMovShr _ _ _ _ _ _ => 0x000F0000#32
  | .wMvnImm _ _ _ _ _ | .wMvnShi _ _ _ _ _ _ | .wMvnShr _ _ _ _ _ _ => 0x000F0000#32
  | .nBx _ => 0x00000007#32
  | _ => 0#32

/-- A pattern with the bits that `i` ignores cleared. -/
def clearIgnored (i : Instr) : CodeUnit → CodeUnit
  | .wide w => .wide (w &&& ~~~(ignoredBits i))
  | .narrow h => .narrow (h &&& ~~~((ignoredBits i).setWidth 16))

/-! ## What an instruction leaves unchanged -/

/-- Every physical register of every bank, and `pc`, holds what it held. -/
def SameRegs (s t : State) : Prop := ∀ q, t.regs.get q = s.regs.get q

/-- The physical register `p` holds `v`, and every other one of the 31 holds what it held. -/
def OnlyReg (p : PhysReg) (v : Word) (s t : State) : Prop :=
  ∀ q, t.regs.get q = if q = p then v else s.regs.get q

/-- Every bit of the status register but the listed ones is what it was. -/
def SameStatusBut (bits : List Nat) (s t : State) : Prop := ∀ j, j ∉ bits → t.cpsr.getLsbD j = s.cpsr.getLsbD j

/-- Every byte of memory reads as it did. -/
def SameBytes (s t : State) : Prop := ∀ a, t.mem.get a = s.mem.get a

/-- The saved-status registers, the cycle counter, `CART_LEN`, the Video Timing Unit and the button mask are what they were. -/
def SameRest (s t : State) : Prop :=
  t.spsr = s.spsr ∧ t.cycles = s.cycles ∧ t.cartLen = s.cartLen ∧ t.vtu = s.vtu ∧ t.buttons = s.buttons

/-- Nothing but registers and the status register changed: no byte of memory, no entry of the warning log, nothing else. -/
def SameOutside (s t : State) : Prop := SameBytes s t ∧ t.warnings = s.warnings ∧ SameRest s t

/-! ## What results are written with -/

/-- The target a write of `pc` by an instruction leaves: bit 0 cleared in narrow mode, bits 1:0 in wide mode
(40_step_and_conditions.md R156). -/
def alignedTarget (narrow : Bool) (v : Word) : Word := if narrow then v &&& 0xFFFFFFFE#32 else v &&& 0xFFFFFFFC#32

/-- What a destination that can be R15 holds after `v` is written to it (40_step_and_conditions.md R161). -/
def destValue (s : State) (rd : Reg) (v : Word) : Word := if rd = Reg.pc then alignedTarget s.flagT v else v

/-- N and Z are those of the result `r` (00_scope.md R17). -/
def FlagsNZ (r : Word) (t : State) : Prop := t.flagN = r.getLsbD 31 ∧ t.flagZ = decide (r = 0#32)

/-- A sum `a + b + k` with its carry and its overflow, over unbounded integers (00_scope.md R17). -/
def plainSum (a b : Word) (k : Nat) : AluResult :=
  { r := BitVec.ofNat 32 (a.toNat + b.toNat + k)
    cout := decide (2 ^ 32 ≤ a.toNat + b.toNat + k)
    ovf := decide (a.toInt + b.toInt + k < -2 ^ 31 ∨ 2 ^ 31 - 1 < a.toInt + b.toInt + k) }

/-- A difference `a - b - k`, with C = 1 where no borrow occurred and V = 1 where the signed difference is out of range, over
unbounded integers (41_wide_data_processing.md R175, R182, R186). -/
def plainDiff (a b : Word) (k : Nat) : AluResult :=
  { r := a - b - BitVec.ofNat 32 k
    cout := decide (b.toNat + k ≤ a.toNat)
    ovf := decide (a.toInt - b.toInt - k < -2 ^ 31 ∨ 2 ^ 31 - 1 < a.toInt - b.toInt - k) }

/-- The carry flag as a number. -/
def State.carry (s : State) : Nat := if s.flagC then 1 else 0

/-- The borrow a subtraction with carry takes: 1 - C (41_wide_data_processing.md R186). -/
def State.borrow (s : State) : Nat := if s.flagC then 0 else 1

/-! ## What it is that an instruction completes with: a next state, what it holds, and what it leaves -/

/-- A wide logical operation with a destination: `r` goes to `Rd`; the flags N, Z and C change where S = 1 and `Rd` is not R15, and
no flag otherwise (41_wide_data_processing.md R174, R176). -/
def LogicalDone (sf : Bool) (rd : Reg) (r : Word) (sc : Bool) (s : State) (o : Outcome) : Prop :=
  ∃ t, o = .next t ∧ OnlyReg (phys s.bank rd) (destValue s rd r) s t ∧ SameOutside s t ∧
    (if sf = true ∧ rd ≠ Reg.pc then FlagsNZ r t ∧ t.flagC = sc ∧ SameStatusBut [31, 30, 29] s t else t.cpsr = s.cpsr)

/-- A wide arithmetic operation with a destination: as `LogicalDone` with all four flags (R175, R176). -/
def ArithDone (sf : Bool) (rd : Reg) (x : AluResult) (s : State) (o : Outcome) : Prop :=
  ∃ t, o = .next t ∧ OnlyReg (phys s.bank rd) (destValue s rd x.r) s t ∧ SameOutside s t ∧
    (if sf = true ∧ rd ≠ Reg.pc then
      FlagsNZ x.r t ∧ t.flagC = x.cout ∧ t.flagV = x.ovf ∧ SameStatusBut [31, 30, 29, 28] s t
    else t.cpsr = s.cpsr)

/-- A logical test: N, Z and C change and nothing else (R174, R177). -/
def LogicalTestDone (r : Word) (sc : Bool) (s : State) (o : Outcome) : Prop :=
  ∃ t, o = .next t ∧ SameRegs s t ∧ SameOutside s t ∧ FlagsNZ r t ∧ t.flagC = sc ∧ SameStatusBut [31, 30, 29] s t

/-- A comparison: N, Z, C and V change and nothing else (R175, R177). -/
def CompareDone (x : AluResult) (s : State) (o : Outcome) : Prop :=
  ∃ t, o = .next t ∧ SameRegs s t ∧ SameOutside s t ∧ FlagsNZ x.r t ∧ t.flagC = x.cout ∧ t.flagV = x.ovf ∧
    SameStatusBut [31, 30, 29, 28] s t

/-- A branch: `pc` goes to the aligned target and nothing else changes (40_step_and_conditions.md R156). -/
def BranchDone (target : Word) (s : State) (o : Outcome) : Prop :=
  ∃ t, o = .next t ∧ OnlyReg .pc (alignedTarget s.flagT target) s t ∧ SameOutside s t ∧ t.cpsr = s.cpsr

/-- A branch with link: R14 of the current mode holds `link`, `pc` goes to the aligned target, and nothing else changes. -/
def LinkDone (link target : Word) (s : State) (o : Outcome) : Prop :=
  ∃ t, o = .next t ∧ SameOutside s t ∧ t.cpsr = s.cpsr ∧
    ∀ q, t.regs.get q =
      if q = .pc then alignedTarget s.flagT target else if q = phys s.bank Reg.lr then link else s.regs.get q

/-- A branch-and-exchange: T takes bit 0 of the target, `pc` goes to the target aligned for the NEW T, and nothing else changes
(42_wide_branch_and_system.md R212). -/
def ExchangeDone (target : Word) (s : State) (o : Outcome) : Prop :=
  ∃ t, o = .next t ∧ OnlyReg .pc (alignedTarget (target.getLsbD 0) target) s t ∧ SameOutside s t ∧
    t.flagT = target.getLsbD 0 ∧ SameStatusBut [5] s t

/-- One register takes a value and nothing else changes, no flag among it. -/
def RegDone (p : PhysReg) (v : Word) (s : State) (o : Outcome) : Prop :=
  ∃ t, o = .next t ∧ OnlyReg p v s t ∧ SameOutside s t ∧ t.cpsr = s.cpsr

/-! ## Loads and stores -/

/-- `a` is one of the `n` bytes from the aligned address of `addr` up. -/
def inAccess (addr : Word) (n : Width) (a : Nat) : Prop :=
  (alignTo addr n).toNat ≤ a ∧ a < (alignTo addr n).toNat + n.bytes

/-- `a` is a byte of the display status that a store to `addr` refreshes: a store that hits `IO` offsets 0..7 and no other
(20_memory.md R80; 48_video_timing_unit.md R315, R325). -/
def inRefresh (addr : Word) (n : Width) (a : Nat) : Prop :=
  (alignTo addr n).toNat / 8 = 0x04000000 / 8 ∧ (a = 0x04000004 ∨ a = 0x04000006 ∨ a = 0x04000007)

/-- A load of `n` bytes from `addr` to `Rd`, with the base `Rn` written to `oa` where `wb`: the loaded value wins where the two are
one register; the only other change is what the bus read adds to the warning log (43_wide_load_store.md R222). -/
def LoadDone (n : Width) (addr : Word) (rd : Reg) (wb : Bool) (rn : Reg) (oa : Word) (s : State) (o : Outcome) : Prop :=
  ∃ t, o = .next t ∧ t.cpsr = s.cpsr ∧ SameBytes s t ∧ SameRest s t ∧ t.warnings = (memRead addr n s).2.warnings ∧
    ∀ q, t.regs.get q =
      if q = phys s.bank rd then destValue s rd (memRead addr n s).1
      else if wb = true ∧ q = phys s.bank rn then oa else s.regs.get q

/-- A store of the low `n` bytes of `v` to `addr`, with the base `Rn` written to `oa` where `wb`: memory and the warning log are as
the bus write leaves them, and every byte outside the `n` bytes stored to (and outside the display status, where the store hits it)
reads as before (43_wide_load_store.md R222; 20_memory.md R80). -/
def StoreDone (n : Width) (addr v : Word) (wb : Bool) (rn : Reg) (oa : Word) (s : State) (o : Outcome) : Prop :=
  ∃ t, o = .next t ∧ t.cpsr = s.cpsr ∧ SameRest s t ∧
    t.mem = (memWrite addr n v s).mem ∧ t.warnings = (memWrite addr n v s).warnings ∧
    (∀ a, ¬ inAccess addr n a → ¬ inRefresh addr n a → t.mem.get a = s.mem.get a) ∧
    ∀ q, t.regs.get q = if wb = true ∧ q = phys s.bank rn then oa else s.regs.get q

end Sys2Proof.Machine
end

