-- ==== Sys2Proof/Certificates/Slice0/Obligations.lean ====
section
/-! DEFINITION. The statements for the provers, in the order of OBLIGATIONS.json. The predicates they are written with stand in
Safety.lean: `LogicalDone`, `ArithDone` and their like say, of an outcome, that it is a NEXT state, what that state holds, and
everything it leaves unchanged. -/

open Sys2Proof Sys2Proof.Machine

/-! ## Encoding and decoding -/

/-- The decoder reads back every well-formed instruction, with every operand, from the words the encoder writes for it. -/
def Obligations.DecodeReadsBackEveryEncoding : Prop :=
  ∀ i : Instr, i.wellFormed = true → decode (encode i) = .instr i

/-- Every pattern that decodes to an instruction decodes to a well-formed one whose encoding is that pattern, bit for bit, but for
the bits the instruction ignores (41_wide_data_processing.md R177; 45_narrow_branch_load_store.md R290), which the encoder writes 0
(the model's choice: log 7). -/
def Obligations.EncodeReadsBackEveryPattern : Prop :=
  ∀ (u : CodeUnit) (i : Instr), decode u = .instr i → i.wellFormed = true ∧ encode i = clearIgnored i u

/-- The wide RESERVED patterns are exactly the five spaces of R140, each a no-op; and a wide word under condition 15 is a no-op
whatever its other bits (30_encoding.md R140). -/
def Obligations.WideReservedPatterns : Prop :=
  ∀ (w : Word) (s : State),
    ((∃ r, decode (.wide w) = .reserved r) ↔
      ((w.extractLsb' 25 3 = 0b000#3 ∧ w.getLsbD 7 = true ∧ w.getLsbD 4 = true) ∨
       (w.extractLsb' 26 2 = 0b00#2 ∧ w.extractLsb' 23 2 = 0b10#2 ∧ w.getLsbD 20 = false ∧
          w &&& 0x0FFFFFF0#32 ≠ 0x012FFF10#32) ∨
       (w.extractLsb' 25 3 = 0b011#3 ∧ w.getLsbD 4 = true) ∨
       w.extractLsb' 25 3 = 0b100#3 ∨
       w.extractLsb' 25 3 = 0b110#3 ∨
       w.extractLsb' 24 4 = 0b1110#4)) ∧
    (∀ r, decode (.wide w) = .reserved r → execDecoded (decode (.wide w)) s = .next s) ∧
    (condOf w = .nv → execDecoded (decode (.wide w)) s = .next s)

/-- The narrow RESERVED patterns are exactly the eight spaces of R141, each a no-op (30_encoding.md R141). -/
def Obligations.NarrowReservedPatterns : Prop :=
  ∀ (h : Half) (s : State),
    ((∃ r, decode (.narrow h) = .reserved r) ↔
      (h.extractLsb' 12 4 = 0b0101#4 ∨
       h.extractLsb' 13 3 = 0b100#3 ∨
       h.extractLsb' 13 3 = 0b101#3 ∨
       h.extractLsb' 12 4 = 0b1100#4 ∨
       h.extractLsb' 8 8 = 0xDE#8 ∨
       h.extractLsb' 11 5 = 0b11101#5 ∨
       h.extractLsb' 6 10 = 0b0100001101#10 ∨
       h.extractLsb' 7 9 = 0b010001111#9)) ∧
    (∀ r, decode (.narrow h) = .reserved r → execDecoded (decode (.narrow h)) s = .next s)

/-- Words written out from the encodings and examples of the spec decode to the instructions they stand for: one of every format. -/
def Obligations.FixedWordsDecode : Prop :=
  decode (.wide 0xE2800001#32) = .instr (.wAddImm .al false 0#4 0#4 0#4 1#8) ∧
  decode (.wide 0xE0910202#32) = .instr (.wAddShi .al true 1#4 0#4 4#5 .lsl 2#4) ∧
  decode (.wide 0xE1D10312#32) = .instr (.wBicShr .al true 1#4 0#4 3#4 .lsl 2#4) ∧
  decode (.wide 0xEAFFFFFE#32) = .instr (.wB .al 0xFFFFFE#24) ∧
  decode (.wide 0xE12FFF11#32) = .instr (.wBx .al 1#4) ∧
  decode (.wide 0xEF123456#32) = .instr (.wSwi .al 0x123456#24) ∧
  decode (.wide 0xE5B10004#32) = .instr (.wLdrImm .al true true true 1#4 0#4 4#12) ∧
  decode (.wide 0xE6110082#32) = .instr (.wLdrReg .al false false false 1#4 0#4 1#5 .lsl 2#4) ∧
  decode (.narrow 0x011A#16) = .instr (.nLslImm 4#5 3#4 2#4) ∧
  decode (.narrow 0x1B1A#16) = .instr (.nSubReg 4#4 3#4 2#4) ∧
  decode (.narrow 0x2380#16) = .instr (.nMovImm8 3#4 0x80#8) ∧
  decode (.narrow 0x439A#16) = .instr (.nBic 3#4 2#4) ∧
  decode (.narrow 0x45C8#16) = .instr (.nCmpHigh 9#4 8#4) ∧
  decode (.narrow 0x4740#16) = .instr (.nBx 8#4) ∧
  decode (.narrow 0x4902#16) = .instr (.nLdrPc 1#4 2#8) ∧
  decode (.narrow 0x709A#16) = .instr (.nStrbImm 2#5 3#4 2#4) ∧
  decode (.narrow 0xDC04#16) = .instr (.nBgt 4#8) ∧
  decode (.narrow 0xDFAB#16) = .instr (.nSwi 0xAB#8) ∧
  decode (.narrow 0xE7FF#16) = .instr (.nB 0x7FF#11) ∧
  decode (.narrow 0xF802#16) = .instr (.nBlSuffix 2#11)

/-! ## The step -/

/-- While an instruction fetched at `A` executes, R15 reads `A + W` (10_state.md R28). -/
def Obligations.ReadingR15GivesTheAdvancedPc : Prop :=
  ∀ s : State, (fetchInstr s).2.getReg Reg.pc = s.pc + (if s.flagT = true then 2#32 else 4#32)

/-- When the bytes at an aligned program counter decode to an instruction, the step is that instruction's execution with `pc` already
advanced, then the cycle charge and the advance of the video unit (40_step_and_conditions.md R150, R158). That one step of the
model is the composite system step is the model's reading of R158 (log 3). -/
def Obligations.StepRunsTheDecodedInstruction : Prop :=
  ∀ (s : State) (i : Instr) (r : Region) (off : Nat),
    (s.flagT = false → s.pc.toNat % 4 = 0 → mapAddr s.cartLen s.pc .word = .hit r off →
      decode (.wide (s.mem.get (s.pc.toNat + 3) ++ s.mem.get (s.pc.toNat + 2) ++ s.mem.get (s.pc.toNat + 1) ++
        s.mem.get s.pc.toNat)) = .instr i →
      step s = thenDo (advance Config.stepCycles) (thenDo State.charge (exec i (s.setPc (s.pc + 4#32))))) ∧
    (s.flagT = true → s.pc.toNat % 2 = 0 → mapAddr s.cartLen s.pc .half = .hit r off →
      decode (.narrow (s.mem.get (s.pc.toNat + 1) ++ s.mem.get s.pc.toNat)) = .instr i →
      step s = thenDo (advance Config.stepCycles) (thenDo State.charge (exec i (s.setPc (s.pc + 2#32)))))

/-- The fetch is an ordinary bus read, whatever `pc` is: a misaligned `pc` is masked, warned and (wide) rotated, an unmapped or
out-of-bounds one yields open-bus bytes and a warning, and what was read is decoded and executed with `pc` advanced from its
unmasked value (40_step_and_conditions.md R151; 20_memory.md R73). -/
def Obligations.FetchIsAnOrdinaryBusRead : Prop :=
  ∀ s : State,
    (s.flagT = false →
      procStep s = thenDo State.charge (execDecoded
        (decode (.wide (BitVec.rotateRight
          (match mapAddr s.cartLen (s.pc &&& 0xFFFFFFFC#32) .word with
            | .hit _ _ =>
              s.mem.get ((s.pc &&& 0xFFFFFFFC#32).toNat + 3) ++ s.mem.get ((s.pc &&& 0xFFFFFFFC#32).toNat + 2) ++
                s.mem.get ((s.pc &&& 0xFFFFFFFC#32).toNat + 1) ++ s.mem.get (s.pc &&& 0xFFFFFFFC#32).toNat
            | _ => Config.openBusWord (s.pc &&& 0xFFFFFFFC#32))
          (8 * (s.pc.toNat % 4)))))
        (State.setPc
          { s with
            warnings := s.warnings ++
              (if s.pc.toNat % 4 = 0 then [] else [Warning.misaligned s.pc .word]) ++
              (match mapAddr s.cartLen (s.pc &&& 0xFFFFFFFC#32) .word with
                | .hit _ _ => []
                | .outOfBounds _ => [Warning.outOfBounds (s.pc &&& 0xFFFFFFFC#32) .word]
                | .unmapped => [Warning.unmapped (s.pc &&& 0xFFFFFFFC#32) .word]) }
          (s.pc + 4#32)))) ∧
    (s.flagT = true →
      procStep s = thenDo State.charge (execDecoded
        (decode (.narrow
          (match mapAddr s.cartLen (s.pc &&& 0xFFFFFFFE#32) .half with
            | .hit _ _ => s.mem.get ((s.pc &&& 0xFFFFFFFE#32).toNat + 1) ++ s.mem.get (s.pc &&& 0xFFFFFFFE#32).toNat
            | _ => Config.openBusHalf (s.pc &&& 0xFFFFFFFE#32))))
        (State.setPc
          { s with
            warnings := s.warnings ++
              (if s.pc.toNat % 2 = 0 then [] else [Warning.misaligned s.pc .half]) ++
              (match mapAddr s.cartLen (s.pc &&& 0xFFFFFFFE#32) .half with
                | .hit _ _ => []
                | .outOfBounds _ => [Warning.outOfBounds (s.pc &&& 0xFFFFFFFE#32) .half]
                | .unmapped => [Warning.unmapped (s.pc &&& 0xFFFFFFFE#32) .half]) }
          (s.pc + 2#32))))

/-- Every step of every state completes, costs the same `STEP_CYCLES`, which is at least 1, and so no run ever stops
(40_step_and_conditions.md R157, R162). -/
def Obligations.EveryStepCompletesAtOneCost : Prop :=
  1 ≤ Config.stepCycles ∧
  (∀ s : State, ∃ t, procStep s = .next t ∧ t.cycles = s.cycles + Config.stepCycles) ∧
  (∀ s : State, ∃ t, step s = .next t ∧ t.cycles = s.cycles + Config.stepCycles) ∧
  (∀ s : State, SafeRun s)

/-- A step that fetches a RESERVED pattern changes `pc` and the cycle count, and the warning log only by the fetch itself; no
register, flag or memory byte (40_step_and_conditions.md R159). -/
def Obligations.ReservedPatternStepIsANoOp : Prop :=
  ∀ (s : State) (r : Reserved), (fetchInstr s).1 = .reserved r →
    ∃ t, procStep s = .next t ∧ OnlyReg .pc (s.pc + s.instrBytes) s t ∧ t.cpsr = s.cpsr ∧ t.mem = s.mem ∧
      t.warnings = (memRead s.pc s.fetchWidth s).2.warnings ∧ t.cycles = s.cycles + Config.stepCycles ∧
      t.spsr = s.spsr ∧ t.cartLen = s.cartLen ∧ t.vtu = s.vtu ∧ t.buttons = s.buttons

/-- The sixteen conditions and the flag test of each (40_step_and_conditions.md R153). -/
def Obligations.ConditionTable : Prop :=
  ∀ s : State,
    (condHolds .eq s = true ↔ s.flagZ = true) ∧ (condHolds .ne s = true ↔ s.flagZ = false) ∧
    (condHolds .cs s = true ↔ s.flagC = true) ∧ (condHolds .cc s = true ↔ s.flagC = false) ∧
    (condHolds .mi s = true ↔ s.flagN = true) ∧ (condHolds .pl s = true ↔ s.flagN = false) ∧
    (condHolds .vs s = true ↔ s.flagV = true) ∧ (condHolds .vc s = true ↔ s.flagV = false) ∧
    (condHolds .hi s = true ↔ s.flagC = true ∧ s.flagZ = false) ∧
    (condHolds .ls s = true ↔ s.flagC = false ∨ s.flagZ = true) ∧
    (condHolds .ge s = true ↔ s.flagN = s.flagV) ∧ (condHolds .lt s = true ↔ s.flagN ≠ s.flagV) ∧
    (condHolds .gt s = true ↔ s.flagZ = false ∧ s.flagN = s.flagV) ∧
    (condHolds .le s = true ↔ s.flagZ = true ∨ s.flagN ≠ s.flagV) ∧
    condHolds .al s = true ∧ condHolds .nv s = false ∧
    (∀ c : Cond, Cond.ofBits c.toBits = c) ∧
    ([Cond.eq, .ne, .cs, .cc, .mi, .pl, .vs, .vc, .hi, .ls, .ge, .lt, .gt, .le, .al, .nv].map (fun c => c.toBits.toNat) =
      List.range 16)

/-- A wide word whose condition (its bits 31:28) fails has no effect at all, whether it decodes to an instruction or is RESERVED, and
its step is the fetch, the advance of `pc` and the charge; condition 15 always fails (40_step_and_conditions.md R154). -/
def Obligations.FailedConditionHasNoEffect : Prop :=
  (∀ s : State, condHolds .nv s = false) ∧
  (∀ (w : Word) (s : State), condHolds (condOf w) s = false → execDecoded (decode (.wide w)) s = .next s) ∧
  (∀ (i : Instr) (c : Cond) (s : State), conditionOf i = some c → condHolds c s = false → exec i s = .next s) ∧
  (∀ (w : Word) (s : State), (fetch s).1 = .wide w → condHolds (condOf w) s = false →
    procStep s = .next (fetchInstr s).2.charge)

/-! ## Operands and arithmetic -/

/-- The immediate operand is the 8-bit value rotated right by twice `rot`, and its carry-out is the carry flag when `rot` is 0 and
bit 31 of the value otherwise (41_wide_data_processing.md R170). -/
def Obligations.ImmediateOperandIsRotated : Prop :=
  ∀ (rot : BitVec 4) (imm8 : BitVec 8) (s : State),
    ((Op2.imm rot imm8).eval s).1 = BitVec.rotateRight (BitVec.ofNat 32 imm8.toNat) (2 * rot.toNat) ∧
    ((Op2.imm rot imm8).eval s).2 =
      (if rot = 0#4 then s.flagC
       else decide (2 ^ 31 ≤ (BitVec.rotateRight (BitVec.ofNat 32 imm8.toNat) (2 * rot.toNat)).toNat))

/-- The operand shifted by an immediate amount, and that shift by arithmetic on the value read as a number: what an amount of 0 means
for each type, and the carry-out (41_wide_data_processing.md R171). -/
def Obligations.ShiftByImmediateAmount : Prop :=
  (∀ (shamt : BitVec 5) (ty : ShiftType) (rm : Reg) (s : State),
    (Op2.shi shamt ty rm).eval s = shiftImm ty shamt.toNat (s.getReg rm) s.flagC) ∧
  ∀ (n : Nat) (v : Word) (cin : Bool), n < 32 →
    (shiftImm .lsl n v cin).1.toNat = v.toNat * 2 ^ n % 2 ^ 32 ∧
    (shiftImm .lsl n v cin).2 = (if n = 0 then cin else decide (v.toNat / 2 ^ (32 - n) % 2 = 1)) ∧
    (shiftImm .lsr n v cin).1.toNat = (if n = 0 then 0 else v.toNat / 2 ^ n) ∧
    (shiftImm .lsr n v cin).2 = (if n = 0 then decide (2 ^ 31 ≤ v.toNat) else decide (v.toNat / 2 ^ (n - 1) % 2 = 1)) ∧
    (shiftImm .asr n v cin).1.toInt = (if n = 0 then (if v.toInt < 0 then -1 else 0) else v.toInt / 2 ^ n) ∧
    (shiftImm .asr n v cin).2 = (if n = 0 then decide (2 ^ 31 ≤ v.toNat) else decide (v.toNat / 2 ^ (n - 1) % 2 = 1)) ∧
    (shiftImm .ror n v cin).1 =
      (if n = 0 then BitVec.ofNat 32 ((if cin = true then 2 ^ 31 else 0) + v.toNat / 2) else BitVec.rotateRight v n) ∧
    (shiftImm .ror n v cin).2 = (if n = 0 then decide (v.toNat % 2 = 1) else decide (v.toNat / 2 ^ (n - 1) % 2 = 1))

/-- The operand shifted by the low byte of a register, and that shift by arithmetic on the value read as a number, for every amount
0..255 (41_wide_data_processing.md R172). -/
def Obligations.ShiftByRegisterAmount : Prop :=
  (∀ (rs : Reg) (ty : ShiftType) (rm : Reg) (s : State),
    (Op2.shr rs ty rm).eval s = shiftReg ty ((s.getReg rs).toNat % 256) (s.getReg rm) s.flagC) ∧
  ∀ (n : Nat) (v : Word) (cin : Bool), n < 256 →
    (∀ ty : ShiftType, n = 0 → shiftReg ty n v cin = (v, cin)) ∧
    (n ≠ 0 →
      (shiftReg .lsl n v cin).1.toNat = v.toNat * 2 ^ n % 2 ^ 32 ∧
      (shiftReg .lsl n v cin).2 = decide (n ≤ 32 ∧ v.toNat / 2 ^ (32 - n) % 2 = 1) ∧
      (shiftReg .lsr n v cin).1.toNat = v.toNat / 2 ^ n ∧
      (shiftReg .lsr n v cin).2 = decide (v.toNat / 2 ^ (n - 1) % 2 = 1) ∧
      (shiftReg .asr n v cin).1.toInt = v.toInt / 2 ^ n ∧
      (shiftReg .asr n v cin).2 = decide (v.toInt / 2 ^ (n - 1) % 2 = 1) ∧
      (shiftReg .ror n v cin).1 = BitVec.rotateRight v n ∧
      (shiftReg .ror n v cin).2 = decide (2 ^ 31 ≤ (BitVec.rotateRight v n).toNat))

/-- `AddWithCarry`: the result and the carry of the sum of unbounded integers, and the overflow, in both spellings of the spec
(00_scope.md R17). -/
def Obligations.AddWithCarryFlags : Prop :=
  ∀ (a b : Word) (cin : Bool),
    (addWithCarry a b cin).r.toNat = (a.toNat + b.toNat + cin.toNat) % 2 ^ 32 ∧
    ((addWithCarry a b cin).cout = true ↔ 2 ^ 32 ≤ a.toNat + b.toNat + cin.toNat) ∧
    ((addWithCarry a b cin).ovf = true ↔
      (a.toInt + b.toInt + cin.toNat < -2 ^ 31 ∨ 2 ^ 31 - 1 < a.toInt + b.toInt + cin.toNat)) ∧
    (addWithCarry a b cin).ovf = (~~~(a ^^^ b) &&& (a ^^^ (addWithCarry a b cin).r)).getLsbD 31

/-! ## Wide data processing: every operand form completes, with its result, its flags and its frame -/

/-- AND, EOR, ORR and BIC in their three operand forms (41_wide_data_processing.md R180, R181, R192, R194, with R174 and R176). -/
def Obligations.WideLogicalResults : Prop :=
  ∀ (c : Cond) (sf : Bool) (rn rd : Reg) (s : State), condHolds c s = true →
    (∀ (rot : BitVec 4) (imm8 : BitVec 8) (v : Word) (sc : Bool), (Op2.imm rot imm8).eval s = (v, sc) →
      LogicalDone sf rd (s.getReg rn &&& v) sc s (exec (.wAndImm c sf rn rd rot imm8) s) ∧
      LogicalDone sf rd (s.getReg rn ^^^ v) sc s (exec (.wEorImm c sf rn rd rot imm8) s) ∧
      LogicalDone sf rd (s.getReg rn ||| v) sc s (exec (.wOrrImm c sf rn rd rot imm8) s) ∧
      LogicalDone sf rd (s.getReg rn &&& ~~~v) sc s (exec (.wBicImm c sf rn rd rot imm8) s)) ∧
    (∀ (shamt : BitVec 5) (ty : ShiftType) (rm : Reg) (v : Word) (sc : Bool), (Op2.shi shamt ty rm).eval s = (v, sc) →
      LogicalDone sf rd (s.getReg rn &&& v) sc s (exec (.wAndShi c sf rn rd shamt ty rm) s) ∧
      LogicalDone sf rd (s.getReg rn ^^^ v) sc s (exec (.wEorShi c sf rn rd shamt ty rm) s) ∧
      LogicalDone sf rd (s.getReg rn ||| v) sc s (exec (.wOrrShi c sf rn rd shamt ty rm) s) ∧
      LogicalDone sf rd (s.getReg rn &&& ~~~v) sc s (exec (.wBicShi c sf rn rd shamt ty rm) s)) ∧
    (∀ (rs : Reg) (ty : ShiftType) (rm : Reg) (v : Word) (sc : Bool), (Op2.shr rs ty rm).eval s = (v, sc) →
      LogicalDone sf rd (s.getReg rn &&& v) sc s (exec (.wAndShr c sf rn rd rs ty rm) s) ∧
      LogicalDone sf rd (s.getReg rn ^^^ v) sc s (exec (.wEorShr c sf rn rd rs ty rm) s) ∧
      LogicalDone sf rd (s.getReg rn ||| v) sc s (exec (.wOrrShr c sf rn rd rs ty rm) s) ∧
      LogicalDone sf rd (s.getReg rn &&& ~~~v) sc s (exec (.wBicShr c sf rn rd rs ty rm) s))

/-- MOV and MVN in their three operand forms (41_wide_data_processing.md R193, R195, with R174 and R176). -/
def Obligations.WideMoveResults : Prop :=
  ∀ (c : Cond) (sf : Bool) (rd : Reg) (s : State), condHolds c s = true →
    (∀ (rot : BitVec 4) (imm8 : BitVec 8) (v : Word) (sc : Bool), (Op2.imm rot imm8).eval s = (v, sc) →
      LogicalDone sf rd v sc s (exec (.wMovImm c sf rd rot imm8) s) ∧
      LogicalDone sf rd (~~~v) sc s (exec (.wMvnImm c sf rd rot imm8) s)) ∧
    (∀ (shamt : BitVec 5) (ty : ShiftType) (rm : Reg) (v : Word) (sc : Bool), (Op2.shi shamt ty rm).eval s = (v, sc) →
      LogicalDone sf rd v sc s (exec (.wMovShi c sf rd shamt ty rm) s) ∧
      LogicalDone sf rd (~~~v) sc s (exec (.wMvnShi c sf rd shamt ty rm) s)) ∧
    (∀ (rs : Reg) (ty : ShiftType) (rm : Reg) (v : Word) (sc : Bool), (Op2.shr rs ty rm).eval s = (v, sc) →
      LogicalDone sf rd v sc s (exec (.wMovShr c sf rd rs ty rm) s) ∧
      LogicalDone sf rd (~~~v) sc s (exec (.wMvnShr c sf rd rs ty rm) s))

/-- ADD and ADC in their three operand forms (41_wide_data_processing.md R184, R185, with R175 and R176). -/
def Obligations.WideAdditionResults : Prop :=
  ∀ (c : Cond) (sf : Bool) (rn rd : Reg) (s : State), condHolds c s = true →
    (∀ (rot : BitVec 4) (imm8 : BitVec 8) (v : Word) (sc : Bool), (Op2.imm rot imm8).eval s = (v, sc) →
      ArithDone sf rd (plainSum (s.getReg rn) v 0) s (exec (.wAddImm c sf rn rd rot imm8) s) ∧
      ArithDone sf rd (plainSum (s.getReg rn) v s.carry) s (exec (.wAdcImm c sf rn rd rot imm8) s)) ∧
    (∀ (shamt : BitVec 5) (ty : ShiftType) (rm : Reg) (v : Word) (sc : Bool), (Op2.shi shamt ty rm).eval s = (v, sc) →
      ArithDone sf rd (plainSum (s.getReg rn) v 0) s (exec (.wAddShi c sf rn rd shamt ty rm) s) ∧
      ArithDone sf rd (plainSum (s.getReg rn) v s.carry) s (exec (.wAdcShi c sf rn rd shamt ty rm) s)) ∧
    (∀ (rs : Reg) (ty : ShiftType) (rm : Reg) (v : Word) (sc : Bool), (Op2.shr rs ty rm).eval s = (v, sc) →
      ArithDone sf rd (plainSum (s.getReg rn) v 0) s (exec (.wAddShr c sf rn rd rs ty rm) s) ∧
      ArithDone sf rd (plainSum (s.getReg rn) v s.carry) s (exec (.wAdcShr c sf rn rd rs ty rm) s))

/-- SUB, RSB, SBC and RSC in their three operand forms: the difference as integers, C as not-borrow
(41_wide_data_processing.md R182, R183, R186, R187, with R175 and R176). -/
def Obligations.WideSubtractionResults : Prop :=
  ∀ (c : Cond) (sf : Bool) (rn rd : Reg) (s : State), condHolds c s = true →
    (∀ (rot : BitVec 4) (imm8 : BitVec 8) (v : Word) (sc : Bool), (Op2.imm rot imm8).eval s = (v, sc) →
      ArithDone sf rd (plainDiff (s.getReg rn) v 0) s (exec (.wSubImm c sf rn rd rot imm8) s) ∧
      ArithDone sf rd (plainDiff v (s.getReg rn) 0) s (exec (.wRsbImm c sf rn rd rot imm8) s) ∧
      ArithDone sf rd (plainDiff (s.getReg rn) v s.borrow) s (exec (.wSbcImm c sf rn rd rot imm8) s) ∧
      ArithDone sf rd (plainDiff v (s.getReg rn) s.borrow) s (exec (.wRscImm c sf rn rd rot imm8) s)) ∧
    (∀ (shamt : BitVec 5) (ty : ShiftType) (rm : Reg) (v : Word) (sc : Bool), (Op2.shi shamt ty rm).eval s = (v, sc) →
      ArithDone sf rd (plainDiff (s.getReg rn) v 0) s (exec (.wSubShi c sf rn rd shamt ty rm) s) ∧
      ArithDone sf rd (plainDiff v (s.getReg rn) 0) s (exec (.wRsbShi c sf rn rd shamt ty rm) s) ∧
      ArithDone sf rd (plainDiff (s.getReg rn) v s.borrow) s (exec (.wSbcShi c sf rn rd shamt ty rm) s) ∧
      ArithDone sf rd (plainDiff v (s.getReg rn) s.borrow) s (exec (.wRscShi c sf rn rd shamt ty rm) s)) ∧
    (∀ (rs : Reg) (ty : ShiftType) (rm : Reg) (v : Word) (sc : Bool), (Op2.shr rs ty rm).eval s = (v, sc) →
      ArithDone sf rd (plainDiff (s.getReg rn) v 0) s (exec (.wSubShr c sf rn rd rs ty rm) s) ∧
      ArithDone sf rd (plainDiff v (s.getReg rn) 0) s (exec (.wRsbShr c sf rn rd rs ty rm) s) ∧
      ArithDone sf rd (plainDiff (s.getReg rn) v s.borrow) s (exec (.wSbcShr c sf rn rd rs ty rm) s) ∧
      ArithDone sf rd (plainDiff v (s.getReg rn) s.borrow) s (exec (.wRscShr c sf rn rd rs ty rm) s))

/-- TST and TEQ in their three operand forms: flags only (41_wide_data_processing.md R188, R189, with R174). -/
def Obligations.WideTestResults : Prop :=
  ∀ (c : Cond) (rn : Reg) (s : State), condHolds c s = true →
    (∀ (rot : BitVec 4) (imm8 : BitVec 8) (v : Word) (sc : Bool), (Op2.imm rot imm8).eval s = (v, sc) →
      LogicalTestDone (s.getReg rn &&& v) sc s (exec (.wTstImm c rn rot imm8) s) ∧
      LogicalTestDone (s.getReg rn ^^^ v) sc s (exec (.wTeqImm c rn rot imm8) s)) ∧
    (∀ (shamt : BitVec 5) (ty : ShiftType) (rm : Reg) (v : Word) (sc : Bool), (Op2.shi shamt ty rm).eval s = (v, sc) →
      LogicalTestDone (s.getReg rn &&& v) sc s (exec (.wTstShi c rn shamt ty rm) s) ∧
      LogicalTestDone (s.getReg rn ^^^ v) sc s (exec (.wTeqShi c rn shamt ty rm) s)) ∧
    (∀ (rs : Reg) (ty : ShiftType) (rm : Reg) (v : Word) (sc : Bool), (Op2.shr rs ty rm).eval s = (v, sc) →
      LogicalTestDone (s.getReg rn &&& v) sc s (exec (.wTstShr c rn rs ty rm) s) ∧
      LogicalTestDone (s.getReg rn ^^^ v) sc s (exec (.wTeqShr c rn rs ty rm) s))

/-- CMP and CMN in their three operand forms: flags only (41_wide_data_processing.md R190, R191, with R175). -/
def Obligations.WideCompareResults : Prop :=
  ∀ (c : Cond) (rn : Reg) (s : State), condHolds c s = true →
    (∀ (rot : BitVec 4) (imm8 : BitVec 8) (v : Word) (sc : Bool), (Op2.imm rot imm8).eval s = (v, sc) →
      CompareDone (plainDiff (s.getReg rn) v 0) s (exec (.wCmpImm c rn rot imm8) s) ∧
      CompareDone (plainSum (s.getReg rn) v 0) s (exec (.wCmnImm c rn rot imm8) s)) ∧
    (∀ (shamt : BitVec 5) (ty : ShiftType) (rm : Reg) (v : Word) (sc : Bool), (Op2.shi shamt ty rm).eval s = (v, sc) →
      CompareDone (plainDiff (s.getReg rn) v 0) s (exec (.wCmpShi c rn shamt ty rm) s) ∧
      CompareDone (plainSum (s.getReg rn) v 0) s (exec (.wCmnShi c rn shamt ty rm) s)) ∧
    (∀ (rs : Reg) (ty : ShiftType) (rm : Reg) (v : Word) (sc : Bool), (Op2.shr rs ty rm).eval s = (v, sc) →
      CompareDone (plainDiff (s.getReg rn) v 0) s (exec (.wCmpShr c rn rs ty rm) s) ∧
      CompareDone (plainSum (s.getReg rn) v 0) s (exec (.wCmnShr c rn rs ty rm) s))

/-- After a comparison of `a` with `b`, in any of its six forms, EQ, CS, HI, GE and GT hold exactly where `a` stands to `b` as their
names say, unsigned and signed (41_wide_data_processing.md section 3, the sentence of R190 that the spec marks as derived). -/
def Obligations.ComparisonsOrderTheirOperands : Prop :=
  ∀ (i : Instr) (a b : Word) (s : State),
    ((∃ c rn rot imm8, i = .wCmpImm c rn rot imm8 ∧ condHolds c s = true ∧ a = s.getReg rn ∧
        b = ((Op2.imm rot imm8).eval s).1) ∨
     (∃ c rn shamt ty rm, i = .wCmpShi c rn shamt ty rm ∧ condHolds c s = true ∧ a = s.getReg rn ∧
        b = ((Op2.shi shamt ty rm).eval s).1) ∨
     (∃ c rn rs ty rm, i = .wCmpShr c rn rs ty rm ∧ condHolds c s = true ∧ a = s.getReg rn ∧
        b = ((Op2.shr rs ty rm).eval s).1) ∨
     (∃ rd imm8, i = .nCmpImm8 rd imm8 ∧ a = s.getReg rd ∧ b = BitVec.ofNat 32 imm8.toNat) ∨
     (∃ rs rd, i = .nCmpReg rs rd ∧ a = s.getReg rd ∧ b = s.getReg rs) ∨
     (∃ rs rd, i = .nCmpHigh rs rd ∧ a = s.getReg rd ∧ b = s.getReg rs)) →
    ∃ t, exec i s = .next t ∧
      condHolds .eq t = decide (a = b) ∧ condHolds .cs t = decide (b.toNat ≤ a.toNat) ∧
      condHolds .hi t = decide (b.toNat < a.toNat) ∧ condHolds .ge t = decide (b.toInt ≤ a.toInt) ∧
      condHolds .gt t = decide (b.toInt < a.toInt)

/-! ## Branches of both widths -/

/-- Wide B goes to `pc` plus four times the signed field, and BL first links R14 of the current mode to `pc`
(42_wide_branch_and_system.md R210, R211). -/
def Obligations.WideBranchesGoToTheirTargets : Prop :=
  ∀ (c : Cond) (imm24 : BitVec 24) (s : State), condHolds c s = true →
    BranchDone (s.pc + BitVec.ofInt 32 (imm24.toInt * 4)) s (exec (.wB c imm24) s) ∧
    LinkDone s.pc (s.pc + BitVec.ofInt 32 (imm24.toInt * 4)) s (exec (.wBl c imm24) s)

/-- BX of both widths: T takes bit 0 of the register, and `pc` goes to the register's value aligned for the new T
(42_wide_branch_and_system.md R212; 45_narrow_branch_load_store.md R290). -/
def Obligations.BranchExchangeSelectsTheWidth : Prop :=
  ∀ (r : Reg) (s : State),
    (∀ c : Cond, condHolds c s = true → ExchangeDone (s.getReg r) s (exec (.wBx c r) s)) ∧
    ExchangeDone (s.getReg r) s (exec (.nBx r) s)

/-- The software interrupt of both widths branches to R14 of the current mode and does nothing else: no mode change, no link, no saved
status, no use of the comment (42_wide_branch_and_system.md R213; 45_narrow_branch_load_store.md R297). -/
def Obligations.SoftwareInterruptReturnsToTheLink : Prop :=
  ∀ s : State,
    (∀ (c : Cond) (comment24 : BitVec 24), condHolds c s = true →
      BranchDone (s.getReg Reg.lr) s (exec (.wSwi c comment24) s)) ∧
    (∀ comment8 : BitVec 8, BranchDone (s.getReg Reg.lr) s (exec (.nSwi comment8) s))

/-! ## Wide loads and stores -/

/-- The address, the offset address and the write-back condition of a wide load or store (43_wide_load_store.md R220, R221). -/
def Obligations.TransferAddressRule : Prop :=
  ∀ (p u w : Bool) (rn : Reg) (s : State),
    (∀ (imm12 : BitVec 12),
      offsetAddress u rn (.imm imm12) s =
        (if u = true then s.getReg rn + BitVec.ofNat 32 imm12.toNat else s.getReg rn - BitVec.ofNat 32 imm12.toNat)) ∧
    (∀ (shamt : BitVec 5) (ty : ShiftType) (rm : Reg),
      offsetAddress u rn (.reg shamt ty rm) s =
        (if u = true then s.getReg rn + (shiftImm ty shamt.toNat (s.getReg rm) s.flagC).1
         else s.getReg rn - (shiftImm ty shamt.toNat (s.getReg rm) s.flagC).1)) ∧
    (∀ o : SdtOffset, transferAddress p u rn o s = (if p = true then offsetAddress u rn o s else s.getReg rn)) ∧
    (writesBack p w rn = true ↔ (p = false ∨ w = true) ∧ rn ≠ Reg.pc)

/-- LDR and LDRB in both offset forms: the bus read at the transfer address, then the write-back, then `Rd`
(43_wide_load_store.md R222, R223, R225). -/
def Obligations.WideLoadResults : Prop :=
  ∀ (c : Cond) (p u w : Bool) (rn rd : Reg) (s : State), condHolds c s = true →
    (∀ (imm12 : BitVec 12) (o : SdtOffset), o = .imm imm12 →
      LoadDone .word (transferAddress p u rn o s) rd (writesBack p w rn) rn (offsetAddress u rn o s) s
        (exec (.wLdrImm c p u w rn rd imm12) s) ∧
      LoadDone .byte (transferAddress p u rn o s) rd (writesBack p w rn) rn (offsetAddress u rn o s) s
        (exec (.wLdrbImm c p u w rn rd imm12) s)) ∧
    (∀ (shamt : BitVec 5) (ty : ShiftType) (rm : Reg) (o : SdtOffset), o = .reg shamt ty rm →
      LoadDone .word (transferAddress p u rn o s) rd (writesBack p w rn) rn (offsetAddress u rn o s) s
        (exec (.wLdrReg c p u w rn rd shamt ty rm) s) ∧
      LoadDone .byte (transferAddress p u rn o s) rd (writesBack p w rn) rn (offsetAddress u rn o s) s
        (exec (.wLdrbReg c p u w rn rd shamt ty rm) s))

/-- STR and STRB in both offset forms: the value of `Rd` before anything is written goes to the bus at the transfer address, then the
write-back (43_wide_load_store.md R222, R224, R226). -/
def Obligations.WideStoreResults : Prop :=
  ∀ (c : Cond) (p u w : Bool) (rn rd : Reg) (s : State), condHolds c s = true →
    (∀ (imm12 : BitVec 12) (o : SdtOffset), o = .imm imm12 →
      StoreDone .word (transferAddress p u rn o s) (s.getReg rd) (writesBack p w rn) rn (offsetAddress u rn o s) s
        (exec (.wStrImm c p u w rn rd imm12) s) ∧
      StoreDone .byte (transferAddress p u rn o s) (s.getReg rd) (writesBack p w rn) rn (offsetAddress u rn o s) s
        (exec (.wStrbImm c p u w rn rd imm12) s)) ∧
    (∀ (shamt : BitVec 5) (ty : ShiftType) (rm : Reg) (o : SdtOffset), o = .reg shamt ty rm →
      StoreDone .word (transferAddress p u rn o s) (s.getReg rd) (writesBack p w rn) rn (offsetAddress u rn o s) s
        (exec (.wStrReg c p u w rn rd shamt ty rm) s) ∧
      StoreDone .byte (transferAddress p u rn o s) (s.getReg rd) (writesBack p w rn) rn (offsetAddress u rn o s) s
        (exec (.wStrbReg c p u w rn rd shamt ty rm) s))

/-! ## Narrow data processing: results, flags and frames -/

/-- Narrow LSL, LSR and ASR by an immediate: N and Z from the result, C from the shifter, V unchanged
(44_narrow_alu.md R241, R242, R243). -/
def Obligations.NarrowShiftsByImmediate : Prop :=
  ∀ (imm5 : BitVec 5) (rs rd : Reg) (s : State), Reg.isLow rs = true → Reg.isLow rd = true →
    LogicalDone true rd (shiftImm .lsl imm5.toNat (s.getReg rs) s.flagC).1 (shiftImm .lsl imm5.toNat (s.getReg rs) s.flagC).2 s
      (exec (.nLslImm imm5 rs rd) s) ∧
    LogicalDone true rd (shiftImm .lsr imm5.toNat (s.getReg rs) s.flagC).1 (shiftImm .lsr imm5.toNat (s.getReg rs) s.flagC).2 s
      (exec (.nLsrImm imm5 rs rd) s) ∧
    LogicalDone true rd (shiftImm .asr imm5.toNat (s.getReg rs) s.flagC).1 (shiftImm .asr imm5.toNat (s.getReg rs) s.flagC).2 s
      (exec (.nAsrImm imm5 rs rd) s)

/-- Narrow ADD and SUB with a register, a 3-bit and an 8-bit immediate: the result and all four flags
(44_narrow_alu.md R244, R245, R246, R247, R250, R251). -/
def Obligations.NarrowAddAndSubtract : Prop :=
  ∀ (rs rd : Reg) (s : State), Reg.isLow rs = true → Reg.isLow rd = true →
    (∀ rn : Reg, Reg.isLow rn = true →
      ArithDone true rd (plainSum (s.getReg rs) (s.getReg rn) 0) s (exec (.nAddReg rn rs rd) s) ∧
      ArithDone true rd (plainDiff (s.getReg rs) (s.getReg rn) 0) s (exec (.nSubReg rn rs rd) s)) ∧
    (∀ imm3 : BitVec 3,
      ArithDone true rd (plainSum (s.getReg rs) (BitVec.ofNat 32 imm3.toNat) 0) s (exec (.nAddImm3 imm3 rs rd) s) ∧
      ArithDone true rd (plainDiff (s.getReg rs) (BitVec.ofNat 32 imm3.toNat) 0) s (exec (.nSubImm3 imm3 rs rd) s)) ∧
    (∀ imm8 : BitVec 8,
      ArithDone true rd (plainSum (s.getReg rd) (BitVec.ofNat 32 imm8.toNat) 0) s (exec (.nAddImm8 rd imm8) s) ∧
      ArithDone true rd (plainDiff (s.getReg rd) (BitVec.ofNat 32 imm8.toNat) 0) s (exec (.nSubImm8 rd imm8) s))

/-- Narrow MOV and CMP with an 8-bit immediate: MOV sets N to 0 and Z from the immediate and leaves C and V; CMP writes the four flags
and no register (44_narrow_alu.md R248, R249). -/
def Obligations.NarrowMoveAndCompareImmediate : Prop :=
  ∀ (rd : Reg) (imm8 : BitVec 8) (s : State), Reg.isLow rd = true →
    (∃ t, exec (.nMovImm8 rd imm8) s = .next t ∧ OnlyReg (phys s.bank rd) (BitVec.ofNat 32 imm8.toNat) s t ∧ SameOutside s t ∧
      t.flagN = false ∧ t.flagZ = decide (imm8 = 0#8) ∧ SameStatusBut [31, 30] s t) ∧
    CompareDone (plainDiff (s.getReg rd) (BitVec.ofNat 32 imm8.toNat) 0) s (exec (.nCmpImm8 rd imm8) s)

/-- Narrow AND, EOR, ORR, BIC and MVN: N and Z from the result, C and V unchanged
(44_narrow_alu.md R252, R253, R264, R265, R266). -/
def Obligations.NarrowLogic : Prop :=
  ∀ (rs rd : Reg) (s : State), Reg.isLow rs = true → Reg.isLow rd = true →
    LogicalDone true rd (s.getReg rd &&& s.getReg rs) s.flagC s (exec (.nAnd rs rd) s) ∧
    LogicalDone true rd (s.getReg rd ^^^ s.getReg rs) s.flagC s (exec (.nEor rs rd) s) ∧
    LogicalDone true rd (s.getReg rd ||| s.getReg rs) s.flagC s (exec (.nOrr rs rd) s) ∧
    LogicalDone true rd (s.getReg rd &&& ~~~s.getReg rs) s.flagC s (exec (.nBic rs rd) s) ∧
    LogicalDone true rd (~~~s.getReg rs) s.flagC s (exec (.nMvn rs rd) s)

/-- Narrow LSL, LSR, ASR and ROR by a register: only the low byte of `Rs` counts
(44_narrow_alu.md R254, R255, R256, R259). -/
def Obligations.NarrowShiftsByRegister : Prop :=
  ∀ (rs rd : Reg) (n : Nat) (s : State), Reg.isLow rs = true → Reg.isLow rd = true → n = (s.getReg rs).toNat % 256 →
    LogicalDone true rd (shiftReg .lsl n (s.getReg rd) s.flagC).1 (shiftReg .lsl n (s.getReg rd) s.flagC).2 s
      (exec (.nLslReg rs rd) s) ∧
    LogicalDone true rd (shiftReg .lsr n (s.getReg rd) s.flagC).1 (shiftReg .lsr n (s.getReg rd) s.flagC).2 s
      (exec (.nLsrReg rs rd) s) ∧
    LogicalDone true rd (shiftReg .asr n (s.getReg rd) s.flagC).1 (shiftReg .asr n (s.getReg rd) s.flagC).2 s
      (exec (.nAsrReg rs rd) s) ∧
    LogicalDone true rd (shiftReg .ror n (s.getReg rd) s.flagC).1 (shiftReg .ror n (s.getReg rd) s.flagC).2 s
      (exec (.nRorReg rs rd) s)

/-- Narrow ADC, SBC and NEG: the result and all four flags (44_narrow_alu.md R257, R258, R261). -/
def Obligations.NarrowCarryArithmetic : Prop :=
  ∀ (rs rd : Reg) (s : State), Reg.isLow rs = true → Reg.isLow rd = true →
    ArithDone true rd (plainSum (s.getReg rd) (s.getReg rs) s.carry) s (exec (.nAdc rs rd) s) ∧
    ArithDone true rd (plainDiff (s.getReg rd) (s.getReg rs) s.borrow) s (exec (.nSbc rs rd) s) ∧
    ArithDone true rd (plainDiff 0#32 (s.getReg rs) 0) s (exec (.nNeg rs rd) s)

/-- Narrow TST, CMP and CMN between low registers: flags only; TST leaves C and V (44_narrow_alu.md R260, R262, R263). -/
def Obligations.NarrowTests : Prop :=
  ∀ (rs rd : Reg) (s : State), Reg.isLow rs = true → Reg.isLow rd = true →
    LogicalTestDone (s.getReg rd &&& s.getReg rs) s.flagC s (exec (.nTst rs rd) s) ∧
    CompareDone (plainDiff (s.getReg rd) (s.getReg rs) 0) s (exec (.nCmpReg rs rd) s) ∧
    CompareDone (plainSum (s.getReg rd) (s.getReg rs) 0) s (exec (.nCmn rs rd) s)

/-- Narrow ADD, MOV and CMP between any registers: ADD and MOV write no flag and branch when `Rd` is R15, CMP writes only the four
flags, also when `Rd` is R15 (44_narrow_alu.md R270, R271, R272). -/
def Obligations.NarrowHighRegisters : Prop :=
  ∀ (rs rd : Reg) (s : State),
    RegDone (phys s.bank rd) (destValue s rd (s.getReg rd + s.getReg rs)) s (exec (.nAddHigh rs rd) s) ∧
    RegDone (phys s.bank rd) (destValue s rd (s.getReg rs)) s (exec (.nMovHigh rs rd) s) ∧
    CompareDone (plainDiff (s.getReg rd) (s.getReg rs) 0) s (exec (.nCmpHigh rs rd) s)

/-! ## Narrow loads, stores and branches -/

/-- Narrow LDR (pc-relative), LDR and LDRB (immediate offset) (45_narrow_branch_load_store.md R291, R293, R295). -/
def Obligations.NarrowLoads : Prop :=
  ∀ (rb rd : Reg) (s : State), Reg.isLow rb = true → Reg.isLow rd = true →
    (∀ imm8 : BitVec 8,
      LoadDone .word ((s.pc &&& 0xFFFFFFFC#32) + BitVec.ofNat 32 (4 * imm8.toNat)) rd false rb 0#32 s
        (exec (.nLdrPc rd imm8) s)) ∧
    (∀ imm5 : BitVec 5,
      LoadDone .word (s.getReg rb + BitVec.ofNat 32 (4 * imm5.toNat)) rd false rb 0#32 s (exec (.nLdrImm imm5 rb rd) s) ∧
      LoadDone .byte (s.getReg rb + BitVec.ofNat 32 imm5.toNat) rd false rb 0#32 s (exec (.nLdrbImm imm5 rb rd) s))

/-- Narrow STR and STRB (immediate offset) (45_narrow_branch_load_store.md R292, R294). -/
def Obligations.NarrowStores : Prop :=
  ∀ (imm5 : BitVec 5) (rb rd : Reg) (s : State), Reg.isLow rb = true → Reg.isLow rd = true →
    StoreDone .word (s.getReg rb + BitVec.ofNat 32 (4 * imm5.toNat)) (s.getReg rd) false rb 0#32 s
      (exec (.nStrImm imm5 rb rd) s) ∧
    StoreDone .byte (s.getReg rb + BitVec.ofNat 32 imm5.toNat) (s.getReg rd) false rb 0#32 s
      (exec (.nStrbImm imm5 rb rd) s)

/-- The fourteen narrow conditional branches: taken to `pc` plus twice the signed field where the flags say so, and nothing at all
otherwise (45_narrow_branch_load_store.md R296). -/
def Obligations.NarrowConditionalBranches : Prop :=
  ∀ (soff8 : BitVec 8) (s : State) (i : Instr) (taken : Prop),
    ((i = .nBeq soff8 ∧ (taken ↔ s.flagZ = true)) ∨ (i = .nBne soff8 ∧ (taken ↔ s.flagZ = false)) ∨
     (i = .nBcs soff8 ∧ (taken ↔ s.flagC = true)) ∨ (i = .nBcc soff8 ∧ (taken ↔ s.flagC = false)) ∨
     (i = .nBmi soff8 ∧ (taken ↔ s.flagN = true)) ∨ (i = .nBpl soff8 ∧ (taken ↔ s.flagN = false)) ∨
     (i = .nBvs soff8 ∧ (taken ↔ s.flagV = true)) ∨ (i = .nBvc soff8 ∧ (taken ↔ s.flagV = false)) ∨
     (i = .nBhi soff8 ∧ (taken ↔ s.flagC = true ∧ s.flagZ = false)) ∨
     (i = .nBls soff8 ∧ (taken ↔ s.flagC = false ∨ s.flagZ = true)) ∨
     (i = .nBge soff8 ∧ (taken ↔ s.flagN = s.flagV)) ∨ (i = .nBlt soff8 ∧ (taken ↔ s.flagN ≠ s.flagV)) ∨
     (i = .nBgt soff8 ∧ (taken ↔ s.flagZ = false ∧ s.flagN = s.flagV)) ∨
     (i = .nBle soff8 ∧ (taken ↔ s.flagZ = true ∨ s.flagN ≠ s.flagV))) →
    (taken → BranchDone (s.pc + BitVec.ofInt 32 (soff8.toInt * 2)) s (exec i s)) ∧
    (¬ taken → exec i s = .next s)

/-- Narrow B, and the two halves of narrow BL as the separate instructions they are
(45_narrow_branch_load_store.md R298, R299, R300). -/
def Obligations.NarrowBranchesGoToTheirTargets : Prop :=
  ∀ (off11 : BitVec 11) (s : State),
    BranchDone (s.pc + BitVec.ofInt 32 (off11.toInt * 2)) s (exec (.nB off11) s) ∧
    RegDone (phys s.bank Reg.lr) (s.pc + BitVec.ofInt 32 (off11.toInt * 4096)) s (exec (.nBlPrefix off11) s) ∧
    LinkDone (s.pc ||| 1#32) (s.getReg Reg.lr + BitVec.ofNat 32 (2 * off11.toNat)) s (exec (.nBlSuffix off11) s)

/-- The narrow call as a whole: with the prefix at `P` and the suffix at `P + 2`, the target is `P + 2 + d` and the link is
`(P + 4) | 1`; no flag changes (45_narrow_branch_load_store.md section 3, the pair of R300). -/
def Obligations.NarrowCallPair : Prop :=
  ∀ (hi11 lo11 : BitVec 11) (pfx : Word) (s : State), s.flagT = true → s.pc = pfx + 2#32 → pfx.toNat % 2 = 0 →
    ∃ t u, exec (.nBlPrefix hi11) s = .next t ∧ exec (.nBlSuffix lo11) (t.setPc (t.pc + 2#32)) = .next u ∧
      u.pc = pfx + 2#32 + BitVec.ofInt 32 (hi11.toInt * 4096 + 2 * lo11.toNat) ∧
      u.getReg Reg.lr = (pfx + 4#32) ||| 1#32 ∧ u.cpsr = s.cpsr ∧ SameOutside s u

/-! ## State: banks, modes, what a step leaves -/

/-- The banking law: the bank of every mode value; within one mode the sixteen indices are sixteen different registers; a write of R13
or R14 in one mode is seen in another exactly where the two modes have one bank, a write of R8..R12 exactly where both or neither are
fiq, and R0..R7 and R15 are seen in every mode (10_state.md section 2, R22 to R25). -/
def Obligations.BankingLaw : Prop :=
  (∀ m : BitVec 5, bankOf m =
    if m = 0b10001#5 then .fiq else if m = 0b10010#5 then .irq else if m = 0b10011#5 then .svc
    else if m = 0b10111#5 then .abt else if m = 0b11011#5 then .und else .usr) ∧
  (∀ (r q : Reg) (v : Word) (s : State), (s.setReg r v).getReg q = if q = r then v else s.getReg q) ∧
  ∀ (m1 m2 : BitVec 5) (r : Reg) (v : Word) (s : State),
    (setMode m2 ((setMode m1 s).setReg r v)).getReg r =
      (if (r.toNat ≤ 7 ∨ r.toNat = 15) ∨
          (8 ≤ r.toNat ∧ r.toNat ≤ 12 ∧ (m1 = 0b10001#5 ↔ m2 = 0b10001#5)) ∨
          ((r.toNat = 13 ∨ r.toNat = 14) ∧ bankOf m1 = bankOf m2)
       then v else (setMode m2 s).getReg r)

/-- Among instructions only the branch-and-exchange changes T (10_state.md R33). -/
def Obligations.OnlyBranchExchangeWritesT : Prop :=
  ∀ (i : Instr) (s t : State), exec i s = .next t → t.flagT ≠ s.flagT →
    (∃ c rm, i = .wBx c rm) ∨ (∃ rs, i = .nBx rs)

/-- No step changes the mode, the interrupt masks, the reserved bits, a saved-status register, a register of a bank the mode does not
select, `CART_LEN` or the buttons (10_state.md sections 2, 4, 7 and 8; 60_exceptions.md section 3). -/
def Obligations.StepLeavesModeAndShadows : Prop :=
  ∀ s t : State, step s = .next t →
    t.mode = s.mode ∧ (∀ j, 6 ≤ j → j ≤ 27 → t.cpsr.getLsbD j = s.cpsr.getLsbD j) ∧ t.spsr = s.spsr ∧
    t.cartLen = s.cartLen ∧ t.buttons = s.buttons ∧
    (∀ q : PhysReg, (∀ r : Reg, phys s.bank r ≠ q) → t.regs.get q = s.regs.get q)

/-- No step changes a byte of the boot region or of the cartridge window (20_memory.md R81). -/
def Obligations.StepLeavesReadOnlyRegions : Prop :=
  ∀ (s t : State) (a : Nat), step s = .next t → (a < 0x4000 ∨ (0x08000000 ≤ a ∧ a < 0x0A000000)) →
    t.mem.get a = s.mem.get a

/-! ## The bus -/

/-- `MemRead`: the little-endian value of the aligned bytes on a hit and the open-bus value otherwise, a word rotated right by eight
times the low address bits, and nothing changed but the warning log, misalignment first (20_memory.md R75). -/
def Obligations.MemReadLaw : Prop :=
  ∀ (a : Word) (n : Width) (s : State) (al : Word), al = BitVec.ofNat 32 (a.toNat - a.toNat % n.bytes) →
    (memRead a n s).2 =
      { s with
        warnings := s.warnings ++ (if a.toNat % n.bytes = 0 then [] else [Warning.misaligned a n]) ++
          (match mapAddr s.cartLen al n with
            | .hit _ _ => []
            | .outOfBounds _ => [Warning.outOfBounds al n]
            | .unmapped => [Warning.unmapped al n]) } ∧
    (∀ r off, mapAddr s.cartLen al n = .hit r off →
      (n = .byte → (memRead a n s).1.toNat = (s.mem.get al.toNat).toNat) ∧
      (n = .half → (memRead a n s).1.toNat = (s.mem.get al.toNat).toNat + 256 * (s.mem.get (al.toNat + 1)).toNat) ∧
      (n = .word → (memRead a n s).1 =
        BitVec.rotateRight (BitVec.ofNat 32 ((s.mem.get al.toNat).toNat + 256 * (s.mem.get (al.toNat + 1)).toNat +
          65536 * (s.mem.get (al.toNat + 2)).toNat + 16777216 * (s.mem.get (al.toNat + 3)).toNat)) (8 * (a.toNat % 4)))) ∧
    ((∀ r off, mapAddr s.cartLen al n ≠ .hit r off) →
      (n = .byte → (memRead a n s).1.toNat = (Config.openBusByte al).toNat) ∧
      (n = .half → (memRead a n s).1.toNat = (Config.openBusHalf al).toNat) ∧
      (n = .word → (memRead a n s).1 = BitVec.rotateRight (Config.openBusWord al) (8 * (a.toNat % 4)))) ∧
    (memRead a n s).1.toNat < 2 ^ (8 * n.bytes)

/-- `MemWrite`: a hit of a writable region stores the low bytes at the aligned address, little-endian and unrotated; `IO` bytes under
their masks, the table of which is stated, with the display status recomputed after a store to offsets 0..7; every other write is
dropped and warned; nothing else changes (20_memory.md R80, R82; 48_video_timing_unit.md R315). -/
def Obligations.MemWriteLaw : Prop :=
  (∀ o : Nat, o < 0x400 →
    ioMask o = if o = 0x004 then 0xF8#8 else if o ∈ [0x006, 0x007, 0x130, 0x131] then 0x00#8 else 0xFF#8) ∧
  ∀ (a : Word) (n : Width) (v : Word) (s t : State) (al : Word), al = BitVec.ofNat 32 (a.toNat - a.toNat % n.bytes) →
    t = memWrite a n v s →
    t.regs = s.regs ∧ t.cpsr = s.cpsr ∧ SameRest s t ∧
    t.warnings = s.warnings ++ (if a.toNat % n.bytes = 0 then [] else [Warning.misaligned a n]) ++
      (match mapAddr s.cartLen al n with
        | .hit r _ => if r = .boot ∨ r = .cart then [Warning.illegalWrite al n] else []
        | .outOfBounds _ => [Warning.outOfBounds al n]
        | .unmapped => [Warning.unmapped al n]) ∧
    ((∀ r off, mapAddr s.cartLen al n = .hit r off → r = .boot ∨ r = .cart) → SameBytes s t) ∧
    (∀ r off, mapAddr s.cartLen al n = .hit r off → r ≠ .boot → r ≠ .cart → r ≠ .io →
      ∀ b, t.mem.get b =
        if al.toNat ≤ b ∧ b < al.toNat + n.bytes then BitVec.ofNat 8 (v.toNat / 256 ^ (b - al.toNat)) else s.mem.get b) ∧
    (∀ off, mapAddr s.cartLen al n = .hit .io off →
      ∃ m : Memory,
        (∀ b, m.get b =
          if al.toNat ≤ b ∧ b < al.toNat + n.bytes then
            (s.mem.get b &&& ~~~ioMask (b - 0x04000000)) |||
              (BitVec.ofNat 8 (v.toNat / 256 ^ (b - al.toNat)) &&& ioMask (b - 0x04000000))
          else s.mem.get b) ∧
        (8 ≤ off → SameBytes { s with mem := m } t) ∧
        (off < 8 → ∀ b, t.mem.get b =
          if b = 0x04000006 then BitVec.ofNat 8 s.vtu.line
          else if b = 0x04000007 then 0#8
          else if b = 0x04000004 then
            (m.get b &&& 0xF8#8) ||| (if 160 ≤ s.vtu.line then 1#8 else 0#8) |||
              (if s.vtu.line = (m.get 0x04000005).toNat then 4#8 else 0#8)
          else m.get b))

/-- The round-trip law, where it holds: an aligned write to EWRAM, IWRAM, PAL, VRAM, OAM, SAVE, or to `IO` bytes without a write mask,
reads back as the value truncated to the width (20_memory.md section 4, R83, which the spec marks as derived). -/
def Obligations.WriteThenReadRoundTrip : Prop :=
  ∀ (a : Word) (n : Width) (v : Word) (s : State) (r : Region) (off : Nat), a.toNat % n.bytes = 0 →
    mapAddr s.cartLen a n = .hit r off → r ≠ .boot → r ≠ .cart →
    (r = .io → ∀ i, i < n.bytes → ioMask (off + i) = 0xFF#8) →
    (memRead a n (memWrite a n v s)).1 = BitVec.ofNat 32 (v.toNat % 2 ^ (8 * n.bytes))

/-- The address map, with the base and the length of every region: a hit is exactly an address whose `n` bytes lie inside a region, an
out-of-bounds result exactly an address that a region's selector byte selects and whose `n` bytes do not, an unmapped address exactly
one whose top byte no region has; and no address lies in two regions (20_memory.md R61, R62). -/
def Obligations.AddressMapLaw : Prop :=
  ∀ (len : Nat), len ≤ 0x02000000 →
    (∀ r : Region, (r.base, r.length len) =
      match r with
      | .boot => (0x00000000, 0x4000)
      | .ewram => (0x02000000, 0x40000)
      | .iwram => (0x03000000, 0x8000)
      | .io => (0x04000000, 0x400)
      | .pal => (0x05000000, 0x400)
      | .vram => (0x06000000, 0x18000)
      | .oam => (0x07000000, 0x400)
      | .cart => (0x08000000, len)
      | .save => (0x0E000000, 0x10000)) ∧
    (∀ (a : Word) (n : Width) (r : Region),
      mapAddr len a n = .outOfBounds r ↔
        (a.toNat / 2 ^ 24 = r.base / 2 ^ 24 ∨ (r = .cart ∧ a.toNat / 2 ^ 24 = 0x09)) ∧
          r.length len < a.toNat - r.base + n.bytes) ∧
    (∀ (a : Word) (n : Width) (r : Region) (off : Nat),
      mapAddr len a n = .hit r off ↔ a.toNat = r.base + off ∧ off + n.bytes ≤ r.length len) ∧
    (∀ (a : Word) (n : Width),
      mapAddr len a n = .unmapped ↔ a.toNat / 2 ^ 24 ∉ [0x00, 0x02, 0x03, 0x04, 0x05, 0x06, 0x07, 0x08, 0x09, 0x0E]) ∧
    (∀ (r q : Region) (x y : Nat), x < r.length len → y < q.length len → r.base + x = q.base + y → r = q ∧ x = y)

/-! ## The Video Timing Unit -/

/-- The scanline clock: after `advance(c)` the accumulator is below 1232, the line has moved by the number of thresholds crossed,
modulo 228, and a frame is counted at each wrap; nothing changes but the unit's own state and the display status bytes
(48_video_timing_unit.md R316). -/
def Obligations.AdvanceDrivesTheScanlineClock : Prop :=
  ∀ (c k : Nat) (s : State), s.vtu.line < 228 → k = (s.vtu.acc + c) / 1232 →
    (advance c s).vtu.acc = (s.vtu.acc + c) % 1232 ∧
    (advance c s).vtu.line = (s.vtu.line + k) % 228 ∧
    (advance c s).vtu.frame = s.vtu.frame + (s.vtu.line + k) / 228 ∧
    (k = 0 → (advance c s).vtu.fb = s.vtu.fb ∧ (advance c s).mem = s.mem) ∧
    (0 < k → (advance c s).DisplayStatusConsistent) ∧
    (∀ b, b ≠ 0x04000004 → b ≠ 0x04000006 → b ≠ 0x04000007 → (advance c s).mem.get b = s.mem.get b) ∧
    (advance c s).mem.get 0x04000004 &&& 0xF8#8 = s.mem.get 0x04000004 &&& 0xF8#8 ∧
    { (advance c s) with vtu := s.vtu, mem := s.mem } = s

/-- The video unit is a function of the accumulated cycles: one advance of the sum does what two advances do
(48_video_timing_unit.md sections 1 and 3, R310 and R316). -/
def Obligations.AdvanceIsAFunctionOfTheSum : Prop :=
  ∀ (c d : Nat) (s : State), advance d (advance c s) = advance (c + d) s

/-- The line the clock leaves is rendered, from DISPCNT, the palette and the video memory of that moment: blank, mode 3, mode 4 with
its page, or the diagnostic colour; every other row, and a blanking line, leaves the frame buffer as it was
(48_video_timing_unit.md R317, R318, R319, R320, R321, R322). -/
def Obligations.CompletedLineIsRendered : Prop :=
  ∀ (c : Nat) (s : State) (ctl : Half) (colourOf : Nat → Pixel), 1232 ≤ s.vtu.acc + c → s.vtu.acc + c < 2464 →
    ctl = s.mem.get 0x04000001 ++ s.mem.get 0x04000000 →
    (∀ k, colourOf k =
      { r := BitVec.ofNat 8 (k % 32 * 255 / 31)
        g := BitVec.ofNat 8 (k / 32 % 32 * 255 / 31)
        b := BitVec.ofNat 8 (k / 1024 % 32 * 255 / 31) }) →
    ∀ (y x : Nat) (hy : y < 160) (hx : x < 240),
      (((advance c s).vtu.fb)[y]'hy)[x]'hx =
        if y ≠ s.vtu.line then ((s.vtu.fb)[y]'hy)[x]'hx
        else if ctl.getLsbD 7 = true then { r := 255#8, g := 255#8, b := 255#8 }
        else if ctl.toNat % 8 = 3 then
          colourOf ((s.mem.get (0x06000000 + (y * 240 + x) * 2)).toNat +
            256 * (s.mem.get (0x06000000 + (y * 240 + x) * 2 + 1)).toNat)
        else if ctl.toNat % 8 = 4 then
          colourOf ((s.mem.get (0x05000000 + 2 * (s.mem.get (0x06000000 +
              (if ctl.getLsbD 4 = true then 0xA000 else 0) + y * 240 + x)).toNat)).toNat +
            256 * (s.mem.get (0x05000000 + 2 * (s.mem.get (0x06000000 +
              (if ctl.getLsbD 4 = true then 0xA000 else 0) + y * 240 + x)).toNat + 1)).toNat)
        else { r := 255#8, g := 0#8, b := 255#8 }

/-! ## Invariants, reset and the host -/

/-- Every step keeps the machine's invariant (memory in its canonical form and inside the regions, the counters in their ranges, the
display status consistent with the line, KEYINPUT the inverted buttons, `CART_LEN` in its range), and every step keeps `pc`
aligned for T. That memory has a canonical form is the model's choice (log 5). -/
def Obligations.StepKeepsTheInvariant : Prop :=
  ∀ s t : State, step s = .next t → (s.Inv → t.Inv) ∧ (s.PcAligned → t.PcAligned)

/-- The machine right after reset meets the invariant and has its `pc` aligned. -/
def Obligations.ResetMeetsTheInvariant : Prop :=
  State.reset.Inv ∧ State.reset.PcAligned

/-- What `reset()` writes and what it leaves, from any state (10_state.md R46), and that power-on gives the model's reset state
(10_state.md R47). -/
def Obligations.ResetValues : Prop :=
  powerOn = State.reset ∧
  ∀ s t : State, t = resetMachine s →
    (∀ q, t.regs.get q = 0#32) ∧ t.cpsr = 0x000000DF#32 ∧
    t.spsr.fiq = 0#32 ∧ t.spsr.irq = 0#32 ∧ t.spsr.svc = 0#32 ∧ t.spsr.abt = 0#32 ∧ t.spsr.und = 0#32 ∧
    t.cycles = 0 ∧ t.vtu.line = 0 ∧ t.vtu.acc = 0 ∧ t.vtu.frame = 0 ∧
    (∀ (y x : Nat) (hy : y < 160) (hx : x < 240), ((t.vtu.fb)[y]'hy)[x]'hx = { r := 0#8, g := 0#8, b := 0#8 }) ∧
    t.mem.get 0x04000006 = 0#8 ∧ t.mem.get 0x04000007 = 0#8 ∧
    t.mem.get 0x04000004 = (s.mem.get 0x04000004 &&& 0xF8#8) ||| (if s.mem.get 0x04000005 = 0#8 then 4#8 else 0#8) ∧
    t.mem.get 0x04000131 ++ t.mem.get 0x04000130 = 0xFFFF#16 ^^^ s.buttons ∧
    (∀ b, b ∉ [0x04000004, 0x04000006, 0x04000007, 0x04000130, 0x04000131] → t.mem.get b = s.mem.get b) ∧
    t.cartLen = s.cartLen ∧ t.warnings = s.warnings ∧ t.buttons = s.buttons

/-- Calling `reset()` twice gives the whole state that calling it once gives (70_reset_and_hazards.md section 1, R404, whose
whole-state form the spec marks as derived). -/
def Obligations.ResetIsIdempotent : Prop :=
  ∀ s : State, s.MemoryCanonical → resetMachine (resetMachine s) = resetMachine s

/-- `set_button` writes one bit of the mask and mirrors the inverted mask into KEYINPUT, changes nothing else, and ignores an unknown
identifier (49_input_latch_and_host.md R341). -/
def Obligations.SetButtonMirrorsTheMask : Prop :=
  ∀ (id : Int) (pressed : Bool) (s t : State), t = setButton id pressed s →
    (0 ≤ id → id ≤ 9 →
      (∀ j, t.buttons.getLsbD j = if j = id.toNat then pressed else s.buttons.getLsbD j) ∧
      t.mem.get 0x04000131 ++ t.mem.get 0x04000130 = 0xFFFF#16 ^^^ t.buttons ∧
      (∀ b, b ≠ 0x04000130 → b ≠ 0x04000131 → t.mem.get b = s.mem.get b) ∧
      { t with buttons := s.buttons, mem := s.mem } = s) ∧
    (¬ (0 ≤ id ∧ id ≤ 9) → t = s)

/-- The three image loads: which bytes they write, what they truncate and warn of, and that nothing else changes
(49_input_latch_and_host.md section 2, R348, R349, R350). That the bytes of the cartridge window past the image, which are no bytes of
`CART`, read 0 in the list of memory is the model's choice (log 5). -/
def Obligations.ImageLoadsWriteTheirRegions : Prop :=
  ∀ (bytes : List Byte) (s : State), 1 ≤ bytes.length →
    (∃ t, portStep (.loadBootImage bytes) s = .next (.unit, t) ∧
      (∀ b, t.mem.get b = if b < min bytes.length 0x4000 then bytes.getD b 0#8 else s.mem.get b) ∧
      t.warnings = s.warnings ++
        (if 0x4000 < bytes.length then [Warning.oversizeImage .boot bytes.length 0x4000] else []) ∧
      { t with mem := s.mem, warnings := s.warnings } = s) ∧
    (∃ t, portStep (.loadCartridgeImage bytes) s = .next (.unit, t) ∧
      t.cartLen = min bytes.length 0x02000000 ∧
      (∀ b, t.mem.get b =
        if 0x08000000 ≤ b ∧ b < 0x08000000 + min bytes.length 0x02000000 then bytes.getD (b - 0x08000000) 0#8
        else if 0x08000000 ≤ b ∧ b < 0x0A000000 then 0#8 else s.mem.get b) ∧
      t.warnings = s.warnings ++
        (if 0x02000000 < bytes.length then [Warning.oversizeImage .cartridge bytes.length 0x02000000] else []) ∧
      { t with mem := s.mem, warnings := s.warnings, cartLen := s.cartLen } = s) ∧
    (∃ t, portStep (.loadSave bytes) s = .next (.unit, t) ∧
      (∀ b, t.mem.get b =
        if 0x0E000000 ≤ b ∧ b < 0x0E010000 then (bytes.take 0x10000).getD (b - 0x0E000000) 0#8 else s.mem.get b) ∧
      t.warnings = s.warnings ++
        (if 0x10000 < bytes.length then [Warning.oversizeImage .save bytes.length 0x10000] else []) ∧
      { t with mem := s.mem, warnings := s.warnings } = s)

/-- The host's register access goes through the banking rule, writes `pc` unmasked, and is refused outside 0..15 with the state
unchanged; the flag accessors read and write one bit and realign nothing, `get_status` and `set_status` all 32 bits, `get_mode` and
`set_mode` the mode field, `get_saved_status` and `set_saved_status` the one register of the bank they name, and nothing else; the
other calls outside their domains are refused (49_input_latch_and_host.md R355, R356, R357, R358). -/
def Obligations.HostAccessAndItsContract : Prop :=
  ∀ s : State,
    (∀ i : Int, 0 ≤ i → i ≤ 15 →
      portStep (.getRegister i) s = .next (.word (s.regs.get (phys s.bank (BitVec.ofNat 4 i.toNat))), s)) ∧
    (∀ (i : Int) (v : Nat), 0 ≤ i → i ≤ 15 →
      ∃ t, portStep (.setRegister i v) s = .next (.unit, t) ∧
        OnlyReg (phys s.bank (BitVec.ofNat 4 i.toNat)) (BitVec.ofNat 32 v) s t ∧ SameOutside s t ∧ t.cpsr = s.cpsr ∧
        portStep (.getRegister i) t = .next (.word (BitVec.ofNat 32 v), t) ∧
        (i = 15 → t.pc = BitVec.ofNat 32 v)) ∧
    (∀ (i : Int) (v : Nat), ¬ (0 ≤ i ∧ i ≤ 15) →
      portStep (.setRegister i v) s = .refused (.contractViolation "set_register") ∧
      portStep (.getRegister i) s = .refused (.contractViolation "get_register")) ∧
    (∀ (f : StatusFlag) (k : Nat), k = (match f with | .n => 31 | .z => 30 | .c => 29 | .v => 28 | .t => 5) →
      portStep (.getFlag f) s = .next (.flag (s.cpsr.getLsbD k), s) ∧
      ∀ b : Bool, ∃ t, portStep (.setFlag f b) s = .next (.unit, t) ∧ t.cpsr.getLsbD k = b ∧ SameStatusBut [k] s t ∧
        SameRegs s t ∧ SameOutside s t) ∧
    portStep .getStatus s = .next (.word s.cpsr, s) ∧
    (∀ v : Word, ∃ t, portStep (.setStatus v) s = .next (.unit, t) ∧ t.cpsr = v ∧ SameRegs s t ∧ SameOutside s t) ∧
    portStep .getMode s = .next (.mode (s.cpsr.extractLsb' 0 5), s) ∧
    portStep (.getSavedStatus .fiq) s = .next (.word s.spsr.fiq, s) ∧
    portStep (.getSavedStatus .irq) s = .next (.word s.spsr.irq, s) ∧
    portStep (.getSavedStatus .svc) s = .next (.word s.spsr.svc, s) ∧
    portStep (.getSavedStatus .abt) s = .next (.word s.spsr.abt, s) ∧
    portStep (.getSavedStatus .und) s = .next (.word s.spsr.und, s) ∧
    (∀ (b : Bank) (v : Word), b ≠ .usr →
      ∃ t, portStep (.setSavedStatus b v) s = .next (.unit, t) ∧ { t with spsr := s.spsr } = s ∧
        t.spsr.fiq = (if b = .fiq then v else s.spsr.fiq) ∧ t.spsr.irq = (if b = .irq then v else s.spsr.irq) ∧
        t.spsr.svc = (if b = .svc then v else s.spsr.svc) ∧ t.spsr.abt = (if b = .abt then v else s.spsr.abt) ∧
        t.spsr.und = (if b = .und then v else s.spsr.und) ∧ portStep (.getSavedStatus b) t = .next (.word v, t)) ∧
    (∀ m : BitVec 5,
      ∃ t, portStep (.setMode m) s = .next (.unit, t) ∧ t.mode = m ∧ SameRegs s t ∧ SameOutside s t ∧
        SameStatusBut [0, 1, 2, 3, 4] s t) ∧
    portStep (.loadBootImage []) s = .refused (.contractViolation "load_boot_image") ∧
    portStep (.loadCartridgeImage []) s = .refused (.contractViolation "load_cartridge_image") ∧
    portStep (.loadSave []) s = .refused (.contractViolation "load_save") ∧
    (∀ (a : Word) (v n : Nat), n ≠ 1 → n ≠ 2 → n ≠ 4 →
      portStep (.read a n) s = .refused (.contractViolation "read") ∧
      portStep (.write a v n) s = .refused (.contractViolation "write")) ∧
    (∀ c : Int, c < 0 → portStep (.advance c) s = .refused (.contractViolation "advance")) ∧
    (∀ v : Word,
      portStep (.getSavedStatus .usr) s = .refused (.contractViolation "get_saved_status") ∧
      portStep (.setSavedStatus .usr v) s = .refused (.contractViolation "set_saved_status"))
end

