-- ==== Sys2Proof/Laws/State.lean ====
section
/-! SUPPORT. One lemma per field per update of the state, each true by rfl: no later proof unfolds a record update. -/

namespace Sys2Proof.Machine

@[simp] theorem State.setN_regs (s : State) (b : Bool) : (s.setN b).regs = s.regs := rfl
@[simp] theorem State.setN_spsr (s : State) (b : Bool) : (s.setN b).spsr = s.spsr := rfl
@[simp] theorem State.setN_cycles (s : State) (b : Bool) : (s.setN b).cycles = s.cycles := rfl
@[simp] theorem State.setN_mem (s : State) (b : Bool) : (s.setN b).mem = s.mem := rfl
@[simp] theorem State.setN_cartLen (s : State) (b : Bool) : (s.setN b).cartLen = s.cartLen := rfl
@[simp] theorem State.setN_warnings (s : State) (b : Bool) : (s.setN b).warnings = s.warnings := rfl
@[simp] theorem State.setN_vtu (s : State) (b : Bool) : (s.setN b).vtu = s.vtu := rfl
@[simp] theorem State.setN_buttons (s : State) (b : Bool) : (s.setN b).buttons = s.buttons := rfl

@[simp] theorem State.setZ_regs (s : State) (b : Bool) : (s.setZ b).regs = s.regs := rfl
@[simp] theorem State.setZ_spsr (s : State) (b : Bool) : (s.setZ b).spsr = s.spsr := rfl
@[simp] theorem State.setZ_cycles (s : State) (b : Bool) : (s.setZ b).cycles = s.cycles := rfl
@[simp] theorem State.setZ_mem (s : State) (b : Bool) : (s.setZ b).mem = s.mem := rfl
@[simp] theorem State.setZ_cartLen (s : State) (b : Bool) : (s.setZ b).cartLen = s.cartLen := rfl
@[simp] theorem State.setZ_warnings (s : State) (b : Bool) : (s.setZ b).warnings = s.warnings := rfl
@[simp] theorem State.setZ_vtu (s : State) (b : Bool) : (s.setZ b).vtu = s.vtu := rfl
@[simp] theorem State.setZ_buttons (s : State) (b : Bool) : (s.setZ b).buttons = s.buttons := rfl

@[simp] theorem State.setC_regs (s : State) (b : Bool) : (s.setC b).regs = s.regs := rfl
@[simp] theorem State.setC_spsr (s : State) (b : Bool) : (s.setC b).spsr = s.spsr := rfl
@[simp] theorem State.setC_cycles (s : State) (b : Bool) : (s.setC b).cycles = s.cycles := rfl
@[simp] theorem State.setC_mem (s : State) (b : Bool) : (s.setC b).mem = s.mem := rfl
@[simp] theorem State.setC_cartLen (s : State) (b : Bool) : (s.setC b).cartLen = s.cartLen := rfl
@[simp] theorem State.setC_warnings (s : State) (b : Bool) : (s.setC b).warnings = s.warnings := rfl
@[simp] theorem State.setC_vtu (s : State) (b : Bool) : (s.setC b).vtu = s.vtu := rfl
@[simp] theorem State.setC_buttons (s : State) (b : Bool) : (s.setC b).buttons = s.buttons := rfl

@[simp] theorem State.setV_regs (s : State) (b : Bool) : (s.setV b).regs = s.regs := rfl
@[simp] theorem State.setV_spsr (s : State) (b : Bool) : (s.setV b).spsr = s.spsr := rfl
@[simp] theorem State.setV_cycles (s : State) (b : Bool) : (s.setV b).cycles = s.cycles := rfl
@[simp] theorem State.setV_mem (s : State) (b : Bool) : (s.setV b).mem = s.mem := rfl
@[simp] theorem State.setV_cartLen (s : State) (b : Bool) : (s.setV b).cartLen = s.cartLen := rfl
@[simp] theorem State.setV_warnings (s : State) (b : Bool) : (s.setV b).warnings = s.warnings := rfl
@[simp] theorem State.setV_vtu (s : State) (b : Bool) : (s.setV b).vtu = s.vtu := rfl
@[simp] theorem State.setV_buttons (s : State) (b : Bool) : (s.setV b).buttons = s.buttons := rfl

@[simp] theorem State.setT_regs (s : State) (b : Bool) : (s.setT b).regs = s.regs := rfl
@[simp] theorem State.setT_spsr (s : State) (b : Bool) : (s.setT b).spsr = s.spsr := rfl
@[simp] theorem State.setT_cycles (s : State) (b : Bool) : (s.setT b).cycles = s.cycles := rfl
@[simp] theorem State.setT_mem (s : State) (b : Bool) : (s.setT b).mem = s.mem := rfl
@[simp] theorem State.setT_cartLen (s : State) (b : Bool) : (s.setT b).cartLen = s.cartLen := rfl
@[simp] theorem State.setT_warnings (s : State) (b : Bool) : (s.setT b).warnings = s.warnings := rfl
@[simp] theorem State.setT_vtu (s : State) (b : Bool) : (s.setT b).vtu = s.vtu := rfl
@[simp] theorem State.setT_buttons (s : State) (b : Bool) : (s.setT b).buttons = s.buttons := rfl

@[simp] theorem State.setReg_cpsr (s : State) (r : Reg) (v : Word) : (s.setReg r v).cpsr = s.cpsr := rfl
@[simp] theorem State.setReg_spsr (s : State) (r : Reg) (v : Word) : (s.setReg r v).spsr = s.spsr := rfl
@[simp] theorem State.setReg_cycles (s : State) (r : Reg) (v : Word) : (s.setReg r v).cycles = s.cycles := rfl
@[simp] theorem State.setReg_mem (s : State) (r : Reg) (v : Word) : (s.setReg r v).mem = s.mem := rfl
@[simp] theorem State.setReg_cartLen (s : State) (r : Reg) (v : Word) : (s.setReg r v).cartLen = s.cartLen := rfl
@[simp] theorem State.setReg_warnings (s : State) (r : Reg) (v : Word) : (s.setReg r v).warnings = s.warnings := rfl
@[simp] theorem State.setReg_vtu (s : State) (r : Reg) (v : Word) : (s.setReg r v).vtu = s.vtu := rfl
@[simp] theorem State.setReg_buttons (s : State) (r : Reg) (v : Word) : (s.setReg r v).buttons = s.buttons := rfl

@[simp] theorem State.setPc_cpsr (s : State) (v : Word) : (s.setPc v).cpsr = s.cpsr := rfl
@[simp] theorem State.setPc_spsr (s : State) (v : Word) : (s.setPc v).spsr = s.spsr := rfl
@[simp] theorem State.setPc_cycles (s : State) (v : Word) : (s.setPc v).cycles = s.cycles := rfl
@[simp] theorem State.setPc_mem (s : State) (v : Word) : (s.setPc v).mem = s.mem := rfl
@[simp] theorem State.setPc_cartLen (s : State) (v : Word) : (s.setPc v).cartLen = s.cartLen := rfl
@[simp] theorem State.setPc_warnings (s : State) (v : Word) : (s.setPc v).warnings = s.warnings := rfl
@[simp] theorem State.setPc_vtu (s : State) (v : Word) : (s.setPc v).vtu = s.vtu := rfl
@[simp] theorem State.setPc_buttons (s : State) (v : Word) : (s.setPc v).buttons = s.buttons := rfl

@[simp] theorem State.branchTo_cpsr (s : State) (v : Word) : (s.branchTo v).cpsr = s.cpsr := rfl
@[simp] theorem State.branchTo_spsr (s : State) (v : Word) : (s.branchTo v).spsr = s.spsr := rfl
@[simp] theorem State.branchTo_cycles (s : State) (v : Word) : (s.branchTo v).cycles = s.cycles := rfl
@[simp] theorem State.branchTo_mem (s : State) (v : Word) : (s.branchTo v).mem = s.mem := rfl
@[simp] theorem State.branchTo_cartLen (s : State) (v : Word) : (s.branchTo v).cartLen = s.cartLen := rfl
@[simp] theorem State.branchTo_warnings (s : State) (v : Word) : (s.branchTo v).warnings = s.warnings := rfl
@[simp] theorem State.branchTo_vtu (s : State) (v : Word) : (s.branchTo v).vtu = s.vtu := rfl
@[simp] theorem State.branchTo_buttons (s : State) (v : Word) : (s.branchTo v).buttons = s.buttons := rfl

@[simp] theorem State.warn_regs (s : State) (w : Warning) : (s.warn w).regs = s.regs := rfl
@[simp] theorem State.warn_cpsr (s : State) (w : Warning) : (s.warn w).cpsr = s.cpsr := rfl
@[simp] theorem State.warn_spsr (s : State) (w : Warning) : (s.warn w).spsr = s.spsr := rfl
@[simp] theorem State.warn_cycles (s : State) (w : Warning) : (s.warn w).cycles = s.cycles := rfl
@[simp] theorem State.warn_mem (s : State) (w : Warning) : (s.warn w).mem = s.mem := rfl
@[simp] theorem State.warn_cartLen (s : State) (w : Warning) : (s.warn w).cartLen = s.cartLen := rfl
@[simp] theorem State.warn_vtu (s : State) (w : Warning) : (s.warn w).vtu = s.vtu := rfl
@[simp] theorem State.warn_buttons (s : State) (w : Warning) : (s.warn w).buttons = s.buttons := rfl

@[simp] theorem State.setNZ_regs (s : State) (r : Word) : (s.setNZ r).regs = s.regs := rfl
@[simp] theorem State.setNZ_spsr (s : State) (r : Word) : (s.setNZ r).spsr = s.spsr := rfl
@[simp] theorem State.setNZ_cycles (s : State) (r : Word) : (s.setNZ r).cycles = s.cycles := rfl
@[simp] theorem State.setNZ_mem (s : State) (r : Word) : (s.setNZ r).mem = s.mem := rfl
@[simp] theorem State.setNZ_cartLen (s : State) (r : Word) : (s.setNZ r).cartLen = s.cartLen := rfl
@[simp] theorem State.setNZ_warnings (s : State) (r : Word) : (s.setNZ r).warnings = s.warnings := rfl
@[simp] theorem State.setNZ_vtu (s : State) (r : Word) : (s.setNZ r).vtu = s.vtu := rfl
@[simp] theorem State.setNZ_buttons (s : State) (r : Word) : (s.setNZ r).buttons = s.buttons := rfl

@[simp] theorem State.setNZC_regs (s : State) (r : Word) (c : Bool) : (s.setNZC r c).regs = s.regs := rfl
@[simp] theorem State.setNZC_spsr (s : State) (r : Word) (c : Bool) : (s.setNZC r c).spsr = s.spsr := rfl
@[simp] theorem State.setNZC_cycles (s : State) (r : Word) (c : Bool) : (s.setNZC r c).cycles = s.cycles := rfl
@[simp] theorem State.setNZC_mem (s : State) (r : Word) (c : Bool) : (s.setNZC r c).mem = s.mem := rfl
@[simp] theorem State.setNZC_cartLen (s : State) (r : Word) (c : Bool) : (s.setNZC r c).cartLen = s.cartLen := rfl
@[simp] theorem State.setNZC_warnings (s : State) (r : Word) (c : Bool) : (s.setNZC r c).warnings = s.warnings := rfl
@[simp] theorem State.setNZC_vtu (s : State) (r : Word) (c : Bool) : (s.setNZC r c).vtu = s.vtu := rfl
@[simp] theorem State.setNZC_buttons (s : State) (r : Word) (c : Bool) : (s.setNZC r c).buttons = s.buttons := rfl

@[simp] theorem State.setNZCV_regs (s : State) (x : AluResult) : (s.setNZCV x).regs = s.regs := rfl
@[simp] theorem State.setNZCV_spsr (s : State) (x : AluResult) : (s.setNZCV x).spsr = s.spsr := rfl
@[simp] theorem State.setNZCV_cycles (s : State) (x : AluResult) : (s.setNZCV x).cycles = s.cycles := rfl
@[simp] theorem State.setNZCV_mem (s : State) (x : AluResult) : (s.setNZCV x).mem = s.mem := rfl
@[simp] theorem State.setNZCV_cartLen (s : State) (x : AluResult) : (s.setNZCV x).cartLen = s.cartLen := rfl
@[simp] theorem State.setNZCV_warnings (s : State) (x : AluResult) : (s.setNZCV x).warnings = s.warnings := rfl
@[simp] theorem State.setNZCV_vtu (s : State) (x : AluResult) : (s.setNZCV x).vtu = s.vtu := rfl
@[simp] theorem State.setNZCV_buttons (s : State) (x : AluResult) : (s.setNZCV x).buttons = s.buttons := rfl

@[simp] theorem State.charge_regs (s : State) : (s.charge).regs = s.regs := rfl
@[simp] theorem State.charge_cpsr (s : State) : (s.charge).cpsr = s.cpsr := rfl
@[simp] theorem State.charge_spsr (s : State) : (s.charge).spsr = s.spsr := rfl
@[simp] theorem State.charge_mem (s : State) : (s.charge).mem = s.mem := rfl
@[simp] theorem State.charge_cartLen (s : State) : (s.charge).cartLen = s.cartLen := rfl
@[simp] theorem State.charge_warnings (s : State) : (s.charge).warnings = s.warnings := rfl
@[simp] theorem State.charge_vtu (s : State) : (s.charge).vtu = s.vtu := rfl
@[simp] theorem State.charge_buttons (s : State) : (s.charge).buttons = s.buttons := rfl

@[simp] theorem State.advancePc_cpsr (s : State) : (s.advancePc).cpsr = s.cpsr := rfl
@[simp] theorem State.advancePc_spsr (s : State) : (s.advancePc).spsr = s.spsr := rfl
@[simp] theorem State.advancePc_cycles (s : State) : (s.advancePc).cycles = s.cycles := rfl
@[simp] theorem State.advancePc_mem (s : State) : (s.advancePc).mem = s.mem := rfl
@[simp] theorem State.advancePc_cartLen (s : State) : (s.advancePc).cartLen = s.cartLen := rfl
@[simp] theorem State.advancePc_warnings (s : State) : (s.advancePc).warnings = s.warnings := rfl
@[simp] theorem State.advancePc_vtu (s : State) : (s.advancePc).vtu = s.vtu := rfl
@[simp] theorem State.advancePc_buttons (s : State) : (s.advancePc).buttons = s.buttons := rfl

@[simp] theorem advance_regs (c : Nat) (s : State) : (advance c s).regs = s.regs := rfl
@[simp] theorem advance_cpsr (c : Nat) (s : State) : (advance c s).cpsr = s.cpsr := rfl
@[simp] theorem advance_spsr (c : Nat) (s : State) : (advance c s).spsr = s.spsr := rfl
@[simp] theorem advance_cycles (c : Nat) (s : State) : (advance c s).cycles = s.cycles := rfl
@[simp] theorem advance_cartLen (c : Nat) (s : State) : (advance c s).cartLen = s.cartLen := rfl
@[simp] theorem advance_warnings (c : Nat) (s : State) : (advance c s).warnings = s.warnings := rfl
@[simp] theorem advance_buttons (c : Nat) (s : State) : (advance c s).buttons = s.buttons := rfl

@[simp] theorem State.setN_cpsr (s : State) (b : Bool) : (s.setN b).cpsr = setBit s.cpsr 31 b := rfl
@[simp] theorem State.setZ_cpsr (s : State) (b : Bool) : (s.setZ b).cpsr = setBit s.cpsr 30 b := rfl
@[simp] theorem State.setC_cpsr (s : State) (b : Bool) : (s.setC b).cpsr = setBit s.cpsr 29 b := rfl
@[simp] theorem State.setV_cpsr (s : State) (b : Bool) : (s.setV b).cpsr = setBit s.cpsr 28 b := rfl
@[simp] theorem State.setT_cpsr (s : State) (b : Bool) : (s.setT b).cpsr = setBit s.cpsr 5 b := rfl
@[simp] theorem State.warn_warnings (s : State) (w : Warning) : (s.warn w).warnings = s.warnings ++ [w] := rfl
@[simp] theorem State.charge_cycles (s : State) : s.charge.cycles = s.cycles + Config.stepCycles := rfl
@[simp] theorem State.setReg_regs (s : State) (r : Reg) (v : Word) :
    (s.setReg r v).regs = s.regs.set (phys s.bank r) v := rfl
@[simp] theorem State.setPc_regs (s : State) (v : Word) : (s.setPc v).regs = s.regs.set .pc v := rfl
theorem State.setNZ_cpsr (s : State) (r : Word) :
    (s.setNZ r).cpsr = setBit (setBit s.cpsr 31 (r.getLsbD 31)) 30 (r == 0#32) := rfl
theorem State.setNZC_cpsr (s : State) (r : Word) (c : Bool) :
    (s.setNZC r c).cpsr = setBit (s.setNZ r).cpsr 29 c := rfl
theorem State.setNZCV_cpsr (s : State) (x : AluResult) :
    (s.setNZCV x).cpsr = setBit (setBit (s.setNZ x.r).cpsr 29 x.cout) 28 x.ovf := rfl

end Sys2Proof.Machine
end

