-- ==== Sys2Proof/Laws/Registers.lean ====
section
/-! SUPPORT. What a read of a register gives after a write: the physical file, the banking rule, and `x[r]` (10_state.md R22 to
R25). -/

namespace Sys2Proof.Machine

@[simp] theorem RegFile.get_set_same (f : RegFile) (p : PhysReg) (v : Word) : (f.set p v).get p = v := by
  cases p <;> rfl

theorem RegFile.get_set_of_ne (f : RegFile) (p q : PhysReg) (v : Word) (h : q ≠ p) : (f.set p v).get q = f.get q := by
  cases p <;> cases q <;> first | rfl | exact absurd rfl h

theorem RegFile.get_set (f : RegFile) (p q : PhysReg) (v : Word) :
    (f.set p v).get q = if q = p then v else f.get q := by
  by_cases h : q = p
  · subst h; simp
  · simp [h, RegFile.get_set_of_ne f p q v h]

/-- A register file is what its 31 reads give. -/
theorem RegFile.ext_get (f g : RegFile) (h : ∀ p, f.get p = g.get p) : f = g := by
  cases f; cases g
  simp only [RegFile.mk.injEq]
  refine ⟨h .r0, h .r1, h .r2, h .r3, h .r4, h .r5, h .r6, h .r7, h .r8usr, h .r9usr, h .r10usr, h .r11usr, h .r12usr,
    h .r8fiq, h .r9fiq, h .r10fiq, h .r11fiq, h .r12fiq, h .r13usr, h .r14usr, h .r13fiq, h .r14fiq, h .r13irq, h .r14irq,
    h .r13svc, h .r14svc, h .r13abt, h .r14abt, h .r13und, h .r14und, h .pc⟩

/-- Writing back the value a register holds changes nothing. -/
@[simp] theorem RegFile.set_get_same (f : RegFile) (p : PhysReg) : f.set p (f.get p) = f := by
  apply RegFile.ext_get
  intro q
  rw [RegFile.get_set]
  split <;> simp_all

@[simp] theorem RegFile.get_pc (f : RegFile) : f.get .pc = f.pc := rfl
@[simp] theorem RegFile.set_pc_pc (f : RegFile) (v : Word) : (f.set .pc v).pc = v := rfl

/-- Within one bank, different indices are different physical registers. -/
theorem phys_injective (b : Bank) (r q : Reg) (h : phys b r = phys b q) : r = q := by
  revert r q
  cases b <;> decide

theorem phys_eq_pc_iff (b : Bank) (r : Reg) : phys b r = .pc ↔ r = Reg.pc := by
  revert r
  cases b <;> decide

theorem phys_pc (b : Bank) : phys b Reg.pc = .pc := by cases b <;> rfl

theorem phys_ne_pc_of_low (b : Bank) (r : Reg) (h : Reg.isLow r = true) : phys b r ≠ .pc := by
  revert r
  cases b <;> decide

/-- R0..R7 are the same in every bank. -/
theorem phys_low_bank (b b' : Bank) (r : Reg) (h : Reg.isLow r = true) : phys b r = phys b' r := by
  revert r
  cases b <;> cases b' <;> decide

theorem low_ne_pc (r : Reg) (h : Reg.isLow r = true) : r ≠ Reg.pc := by
  revert r
  decide

theorem State.getReg_def (s : State) (r : Reg) : s.getReg r = s.regs.get (phys s.bank r) := rfl

/-- A register is read through the mode and the file alone. -/
theorem State.getReg_congr (s t : State) (r : Reg) (hr : t.regs = s.regs) (hb : t.bank = s.bank) :
    t.getReg r = s.getReg r := by simp [State.getReg, hr, hb]

@[simp] theorem State.bank_setReg (s : State) (r : Reg) (v : Word) : (s.setReg r v).bank = s.bank := rfl
@[simp] theorem State.bank_setPc (s : State) (v : Word) : (s.setPc v).bank = s.bank := rfl
@[simp] theorem State.bank_branchTo (s : State) (v : Word) : (s.branchTo v).bank = s.bank := rfl
@[simp] theorem State.bank_warn (s : State) (w : Warning) : (s.warn w).bank = s.bank := rfl

theorem State.getReg_setReg (s : State) (r q : Reg) (v : Word) :
    (s.setReg r v).getReg q = if q = r then v else s.getReg q := by
  show (s.regs.set (phys s.bank r) v).get (phys s.bank q) = _
  rw [RegFile.get_set]
  by_cases h : q = r
  · simp [h]
  · rw [if_neg (fun e => h (phys_injective s.bank q r e)), if_neg h]
    rfl

theorem State.getReg_pc (s : State) : s.getReg Reg.pc = s.pc := by
  simp [State.getReg, phys_pc, State.pc]

@[simp] theorem State.setPc_pc (s : State) (v : Word) : (s.setPc v).pc = v := rfl

theorem State.branchTo_regs (s : State) (t : Word) :
    (s.branchTo t).regs = s.regs.set .pc (if s.flagT then t &&& 0xFFFFFFFE#32 else t &&& 0xFFFFFFFC#32) := rfl

theorem State.branchTo_pc (s : State) (t : Word) :
    (s.branchTo t).pc = if s.flagT then t &&& 0xFFFFFFFE#32 else t &&& 0xFFFFFFFC#32 := rfl

/-- What the write of a destination that may be R15 does to the register file. -/
theorem State.writeDest_regs (s : State) (rd : Reg) (v : Word) :
    (s.writeDest rd v).regs = s.regs.set (phys s.bank rd)
      (if rd = Reg.pc then (if s.flagT then v &&& 0xFFFFFFFE#32 else v &&& 0xFFFFFFFC#32) else v) := by
  unfold State.writeDest
  split
  · rename_i h
    rw [State.branchTo_regs, h, phys_pc]
  · rfl

/-- The write of a destination changes no other part of the state. -/
theorem State.writeDest_frame (s : State) (rd : Reg) (v : Word) :
    (s.writeDest rd v).cpsr = s.cpsr ∧ (s.writeDest rd v).spsr = s.spsr ∧ (s.writeDest rd v).cycles = s.cycles ∧
    (s.writeDest rd v).mem = s.mem ∧ (s.writeDest rd v).cartLen = s.cartLen ∧ (s.writeDest rd v).warnings = s.warnings ∧
    (s.writeDest rd v).vtu = s.vtu ∧ (s.writeDest rd v).buttons = s.buttons := by
  unfold State.writeDest
  split <;> exact ⟨rfl, rfl, rfl, rfl, rfl, rfl, rfl, rfl⟩

end Sys2Proof.Machine
end

