-- ==== Sys2Proof/Laws/Status.lean ====
section
/-! SUPPORT. What a bit of the status register is after a flag is written (10_state.md R31, R32; 41_wide_data_processing.md R174,
R175). -/

namespace Sys2Proof.Machine

theorem getLsbD_setBit (w : Word) (i j : Nat) (b : Bool) (hi : i < 32) :
    (setBit w i b).getLsbD j = if j = i then b else w.getLsbD j := by
  unfold setBit
  by_cases hj : j < 32
  · by_cases h : j = i
    · subst h; simp [hj]
    · by_cases h2 : j < i
      · simp [hj, h, h2]
      · have h3 : ¬ (j - i = 0) := by omega
        simp [hj, h, h2, h3]
  · have : ¬ j = i := by omega
    rw [if_neg this, BitVec.getLsbD_of_ge _ _ (by omega), BitVec.getLsbD_of_ge _ _ (by omega)]

theorem getLsbD_setNZ (s : State) (r : Word) (j : Nat) :
    (s.setNZ r).cpsr.getLsbD j = if j = 30 then r == 0#32 else if j = 31 then r.getLsbD 31 else s.cpsr.getLsbD j := by
  rw [State.setNZ_cpsr, getLsbD_setBit _ _ _ _ (by omega), getLsbD_setBit _ _ _ _ (by omega)]

theorem getLsbD_setNZC (s : State) (r : Word) (c : Bool) (j : Nat) :
    (s.setNZC r c).cpsr.getLsbD j =
      if j = 29 then c else if j = 30 then r == 0#32 else if j = 31 then r.getLsbD 31 else s.cpsr.getLsbD j := by
  rw [State.setNZC_cpsr, getLsbD_setBit _ _ _ _ (by omega), getLsbD_setNZ]

theorem getLsbD_setNZCV (s : State) (x : AluResult) (j : Nat) :
    (s.setNZCV x).cpsr.getLsbD j =
      if j = 28 then x.ovf else if j = 29 then x.cout else if j = 30 then x.r == 0#32
      else if j = 31 then x.r.getLsbD 31 else s.cpsr.getLsbD j := by
  rw [State.setNZCV_cpsr, getLsbD_setBit _ _ _ _ (by omega), getLsbD_setBit _ _ _ _ (by omega), getLsbD_setNZ]

/-- The mode is bits 4:0, so a status register that keeps them keeps the mode. -/
theorem mode_congr (s t : State) (h : ∀ j, j < 5 → t.cpsr.getLsbD j = s.cpsr.getLsbD j) : t.mode = s.mode := by
  unfold State.mode
  ext j hj
  simp [BitVec.getElem_extractLsb', h j hj]

theorem bank_congr (s t : State) (h : ∀ j, j < 5 → t.cpsr.getLsbD j = s.cpsr.getLsbD j) : t.bank = s.bank := by
  simp [State.bank, mode_congr s t h]

@[simp] theorem State.bank_setNZ (s : State) (r : Word) : (s.setNZ r).bank = s.bank := by
  apply bank_congr
  intro j hj
  rw [getLsbD_setNZ, if_neg (by omega), if_neg (by omega)]

@[simp] theorem State.bank_setNZC (s : State) (r : Word) (c : Bool) : (s.setNZC r c).bank = s.bank := by
  apply bank_congr
  intro j hj
  rw [getLsbD_setNZC, if_neg (by omega), if_neg (by omega), if_neg (by omega)]

@[simp] theorem State.bank_setNZCV (s : State) (x : AluResult) : (s.setNZCV x).bank = s.bank := by
  apply bank_congr
  intro j hj
  rw [getLsbD_setNZCV, if_neg (by omega), if_neg (by omega), if_neg (by omega), if_neg (by omega)]

@[simp] theorem State.bank_setT (s : State) (b : Bool) : (s.setT b).bank = s.bank := by
  apply bank_congr
  intro j hj
  rw [State.setT_cpsr, getLsbD_setBit _ _ _ _ (by omega), if_neg (by omega)]

@[simp] theorem State.flagT_setT (s : State) (b : Bool) : (s.setT b).flagT = b := by
  show (setBit s.cpsr 5 b).getLsbD 5 = b
  rw [getLsbD_setBit _ _ _ _ (by omega), if_pos rfl]

/-- A state whose status register is kept reads the same flags. -/
theorem flags_congr (s t : State) (h : t.cpsr = s.cpsr) :
    t.flagN = s.flagN ∧ t.flagZ = s.flagZ ∧ t.flagC = s.flagC ∧ t.flagV = s.flagV ∧ t.flagT = s.flagT ∧ t.bank = s.bank := by
  simp [State.flagN, State.flagZ, State.flagC, State.flagV, State.flagT, State.bank, State.mode, h]

end Sys2Proof.Machine
end

