-- ==== Sys2Proof/Laws/Arith.lean ====
section
/-! SUPPORT. The arithmetic of `AddWithCarry`: sums and differences as integers (00_scope.md R17; 41_wide_data_processing.md R175). -/

namespace Sys2Proof.Machine

theorem addWithCarry_r_toNat (a b : Word) (cin : Bool) :
    (addWithCarry a b cin).r.toNat = (a.toNat + b.toNat + cin.toNat) % 2 ^ 32 := by
  simp [addWithCarry]

/-- The complement as an integer. -/
theorem toInt_not (a : Word) : (~~~a).toInt = -a.toInt - 1 := by
  have h := a.isLt
  have h1 : (~~~a).toNat = 2 ^ 32 - 1 - a.toNat := by simp
  rw [BitVec.toInt_eq_toNat_cond, BitVec.toInt_eq_toNat_cond, h1]
  split <;> split <;> omega

theorem toInt_ofBool (b : Bool) : (b.toInt : Int) = (b.toNat : Int) := by cases b <;> rfl

/-- ADD, CMN: `AddWithCarry(a, b, 0)` is the plain sum. -/
theorem addWithCarry_eq_plainSum (a b : Word) (cin : Bool) : addWithCarry a b cin = plainSum a b cin.toNat := by
  have h : (cin.toInt : Int) = (cin.toNat : Int) := toInt_ofBool cin
  simp only [addWithCarry, plainSum, AluResult.mk.injEq, true_and, h]
  rw [← decide_not]
  exact decide_eq_decide.2 (by omega)

/-- SUB, CMP, SBC and their like: `AddWithCarry(a, ~b, c)` is the plain difference with the borrow `1 - c`. -/
theorem addWithCarry_not_eq_plainDiff (a b : Word) (cin : Bool) :
    addWithCarry a (~~~b) cin = plainDiff a b (1 - cin.toNat) := by
  have hb := b.isLt
  have ha := a.isLt
  have hk : cin.toNat ≤ 1 := by cases cin <;> decide
  have h1 : (~~~b).toNat = 2 ^ 32 - 1 - b.toNat := by simp
  have h2 : (((1 - cin.toNat : Nat)) : Int) = 1 - (cin.toNat : Int) := by omega
  rw [addWithCarry_eq_plainSum]
  simp only [plainSum, plainDiff, AluResult.mk.injEq]
  refine ⟨?_, ?_, ?_⟩
  · apply BitVec.eq_of_toNat_eq
    rw [h1]
    simp only [BitVec.toNat_ofNat, BitVec.toNat_sub]
    omega
  · rw [h1]
    exact decide_eq_decide.2 (by omega)
  · rw [toInt_not, h2]
    exact decide_eq_decide.2 (by omega)

theorem State.carry_eq (s : State) : s.carry = s.flagC.toNat := by
  unfold State.carry
  cases s.flagC <;> rfl

theorem State.borrow_eq (s : State) : s.borrow = 1 - s.flagC.toNat := by
  unfold State.borrow
  cases s.flagC <;> rfl

theorem aluAdd_eq (a b : Word) (cin : Bool) : aluAdd a b cin = plainSum a b 0 := addWithCarry_eq_plainSum a b false

theorem aluSub_eq (a b : Word) (cin : Bool) : aluSub a b cin = plainDiff a b 0 := addWithCarry_not_eq_plainDiff a b true

theorem aluRsb_eq (a b : Word) (cin : Bool) : aluRsb a b cin = plainDiff b a 0 := addWithCarry_not_eq_plainDiff b a true

theorem aluAdc_eq (a b : Word) (s : State) : aluAdc a b s.flagC = plainSum a b s.carry := by
  rw [State.carry_eq]; exact addWithCarry_eq_plainSum a b _

theorem aluSbc_eq (a b : Word) (s : State) : aluSbc a b s.flagC = plainDiff a b s.borrow := by
  rw [State.borrow_eq]; exact addWithCarry_not_eq_plainDiff a b _

theorem aluRsc_eq (a b : Word) (s : State) : aluRsc a b s.flagC = plainDiff b a s.borrow := by
  rw [State.borrow_eq]; exact addWithCarry_not_eq_plainDiff b a _

end Sys2Proof.Machine
end

