-- ==== Sys2Proof/Laws/Memory.lean ====
section
/-! SUPPORT. The laws of memory: read after write, the canonical form kept by every operation, and canonical memories that read the
same are the same list (20_memory.md R65, R66). -/

namespace Sys2Proof.Machine

theorem Memory.get_insert (m : Memory) (a b : Nat) (v : Byte) :
    (m.insert a v).get b = if b = a then v else m.get b := by
  induction m with
  | nil =>
    by_cases h : a = b
    · simp [Memory.insert, Memory.get, h]
    · simp [Memory.insert, Memory.get, h, Ne.symm h]
  | cons c rest ih =>
    obtain ⟨k, w⟩ := c
    simp only [Memory.insert]
    split
    · by_cases h : a = b
      · simp [Memory.get, h]
      · simp [Memory.get, h, Ne.symm h]
    · split
      · rename_i h2
        by_cases h : a = b
        · simp [Memory.get, h]
        · have : ¬ k = b := by omega
          simp [Memory.get, h, Ne.symm h, this]
      · by_cases h : k = b
        · have : ¬ b = a := by omega
          simp [Memory.get, h, this]
        · simp [Memory.get, h, ih]

theorem Memory.get_remove (m : Memory) (a b : Nat) :
    (m.remove a).get b = if b = a then unlistedByte a else m.get b := by
  unfold Memory.remove
  induction m with
  | nil =>
    by_cases h : b = a
    · simp [Memory.get, h]
    · simp [Memory.get, h]
  | cons c rest ih =>
    obtain ⟨k, w⟩ := c
    rw [List.filter_cons]
    by_cases hk : k = a
    · subst hk
      by_cases h : b = k
      · simp [h, ih] at *; simpa [h] using ih
      · simp [h, Ne.symm h, Memory.get] at *; simpa [h] using ih
    · have hne : (k != a) = true := by simpa using hk
      rw [if_pos (by simpa using hk)]
      by_cases h : k = b
      · have : ¬ b = a := by omega
        simp [Memory.get, h, this]
      · simp [Memory.get, h, ih]

/-- Read after write, for every list: no premise on its form. -/
theorem Memory.get_set (m : Memory) (a b : Nat) (v : Byte) :
    (m.set a v).get b = if b = a then v else m.get b := by
  unfold Memory.set
  split
  · rename_i h
    rw [Memory.get_remove, h]
  · rw [Memory.get_insert]

@[simp] theorem Memory.get_set_same (m : Memory) (a : Nat) (v : Byte) : (m.set a v).get a = v := by simp [Memory.get_set]

theorem Memory.get_set_of_ne (m : Memory) (a b : Nat) (v : Byte) (h : b ≠ a) : (m.set a v).get b = m.get b := by
  simp [Memory.get_set, h]

/-! ## The canonical form -/

theorem aboveAddress_some (l : Option Nat) (k : Nat) : aboveAddress l k = true ↔ ∀ x, l = some x → x < k := by
  cases l <;> simp [aboveAddress]

theorem Memory.risingFrom_weaken (m : Memory) (l : Option Nat) (k : Nat) (h : Memory.risingFrom (some k) m = true)
    (hl : ∀ x, l = some x → x ≤ k) : Memory.risingFrom l m = true := by
  cases m with
  | nil => cases l <;> rfl
  | cons c rest =>
    obtain ⟨j, w⟩ := c
    simp only [Memory.risingFrom, Bool.and_eq_true, aboveAddress_some] at h ⊢
    refine ⟨⟨?_, h.1.2⟩, h.2⟩
    intro x hx
    have := hl x hx
    have := h.1.1 k rfl
    omega

theorem Memory.risingFrom_insert (m : Memory) (l : Option Nat) (a : Nat) (v : Byte) (h : Memory.risingFrom l m = true)
    (hl : aboveAddress l a = true) (hv : v ≠ unlistedByte a) : Memory.risingFrom l (m.insert a v) = true := by
  induction m generalizing l with
  | nil => simp [Memory.insert, Memory.risingFrom, hv, hl]
  | cons c rest ih =>
    obtain ⟨k, w⟩ := c
    simp only [Memory.risingFrom, Bool.and_eq_true] at h
    simp only [Memory.insert]
    split
    · rename_i hak
      simp only [Memory.risingFrom, Bool.and_eq_true]
      exact ⟨⟨hl, by simpa using hv⟩, ⟨by simpa [aboveAddress] using hak, h.1.2⟩, h.2⟩
    · split
      · rename_i _ hak
        subst hak
        simp only [Memory.risingFrom, Bool.and_eq_true]
        exact ⟨⟨hl, by simpa using hv⟩, h.2⟩
      · rename_i h1 h2
        simp only [Memory.risingFrom, Bool.and_eq_true]
        exact ⟨h.1, ih _ h.2 (by simp [aboveAddress]; omega)⟩

theorem Memory.risingFrom_filter (m : Memory) (l : Option Nat) (p : Host.Cell → Bool)
    (h : Memory.risingFrom l m = true) : Memory.risingFrom l (m.filter p) = true := by
  induction m generalizing l with
  | nil => simpa using h
  | cons c rest ih =>
    obtain ⟨k, w⟩ := c
    simp only [Memory.risingFrom, Bool.and_eq_true] at h
    rw [List.filter_cons]
    split
    · simp only [Memory.risingFrom, Bool.and_eq_true]
      exact ⟨h.1, ih _ h.2⟩
    · refine Memory.risingFrom_weaken _ _ k (ih _ h.2) ?_
      intro x hx
      exact Nat.le_of_lt ((aboveAddress_some l k).1 h.1.1 x hx)

/-- Every write keeps the canonical form. -/
theorem Memory.wf_set (m : Memory) (a : Nat) (v : Byte) (h : m.wf = true) : (m.set a v).wf = true := by
  unfold Memory.wf Memory.set at *
  split
  · exact Memory.risingFrom_filter m none _ h
  · rename_i hv
    exact Memory.risingFrom_insert m none a v h rfl hv

theorem Memory.wf_filter (m : Memory) (p : Host.Cell → Bool) (h : m.wf = true) : Memory.wf (m.filter p) = true :=
  Memory.risingFrom_filter m none p h

theorem Memory.wf_nil : Memory.wf [] = true := rfl

theorem Memory.get_of_risingFrom (m : Memory) (k a : Nat) (h : Memory.risingFrom (some k) m = true) (ha : a ≤ k) :
    m.get a = unlistedByte a := by
  induction m generalizing k with
  | nil => rfl
  | cons c rest ih =>
    obtain ⟨j, w⟩ := c
    simp only [Memory.risingFrom, Bool.and_eq_true, aboveAddress, decide_eq_true_eq] at h
    have : ¬ j = a := by omega
    simp only [Memory.get, this, if_false]
    exact ih j h.2 (by omega)

theorem Memory.ext_risingFrom (m n : Memory) (l l' : Option Nat) (hm : Memory.risingFrom l m = true)
    (hn : Memory.risingFrom l' n = true) (h : ∀ a, m.get a = n.get a) : m = n := by
  induction m generalizing n l l' with
  | nil =>
    cases n with
    | nil => rfl
    | cons c rest =>
      obtain ⟨j, w⟩ := c
      simp only [Memory.risingFrom, Bool.and_eq_true] at hn
      have := h j
      simp [Memory.get] at this
      exact absurd this.symm (by simpa using hn.1.2)
  | cons c rest ih =>
    obtain ⟨k, v⟩ := c
    cases n with
    | nil =>
      simp only [Memory.risingFrom, Bool.and_eq_true] at hm
      have := h k
      simp [Memory.get] at this
      exact absurd this (by simpa using hm.1.2)
    | cons d rest' =>
      obtain ⟨j, w⟩ := d
      simp only [Memory.risingFrom, Bool.and_eq_true] at hm hn
      have hv : v ≠ unlistedByte k := by simpa using hm.1.2
      have hw : w ≠ unlistedByte j := by simpa using hn.1.2
      have hkj : k = j := by
        rcases Nat.lt_trichotomy k j with hlt | heq | hgt
        · have h1 := h k
          have h2 : ¬ j = k := by omega
          simp only [Memory.get, if_true, h2, if_false] at h1
          rw [Memory.get_of_risingFrom rest' j k hn.2 (by omega)] at h1
          exact absurd h1 hv
        · exact heq
        · have h1 := h j
          have h2 : ¬ k = j := by omega
          simp only [Memory.get, if_true, h2, if_false] at h1
          rw [Memory.get_of_risingFrom rest k j hm.2 (by omega)] at h1
          exact absurd h1.symm hw
      subst hkj
      have hvw : v = w := by simpa [Memory.get] using h k
      subst hvw
      have hrest : rest = rest' := by
        refine ih rest' (some k) (some k) hm.2 hn.2 ?_
        intro a
        by_cases ha : k = a
        · subst ha
          rw [Memory.get_of_risingFrom rest k k hm.2 (Nat.le_refl _), Memory.get_of_risingFrom rest' k k hn.2 (Nat.le_refl _)]
        · simpa [Memory.get, ha] using h a
      rw [hrest]

/-- Canonical memories that read the same are the same list. -/
theorem Memory.eq_of_get (m n : Memory) (hm : m.wf = true) (hn : n.wf = true) (h : ∀ a, m.get a = n.get a) : m = n :=
  Memory.ext_risingFrom m n none none hm hn h

/-! ## Which addresses are listed -/

theorem Memory.mem_insert (m : Memory) (a : Nat) (v : Byte) (c : Host.Cell) (h : c ∈ m.insert a v) : c ∈ m ∨ c = (a, v) := by
  induction m with
  | nil => simpa [Memory.insert] using h
  | cons d rest ih =>
    obtain ⟨k, w⟩ := d
    simp only [Memory.insert] at h
    split at h
    · simp only [List.mem_cons] at h ⊢; tauto
    · split at h
      · simp only [List.mem_cons] at h ⊢; tauto
      · simp only [List.mem_cons] at h ⊢
        rcases h with h | h
        · tauto
        · rcases ih h with h | h <;> tauto

theorem Memory.mem_set (m : Memory) (a : Nat) (v : Byte) (c : Host.Cell) (h : c ∈ m.set a v) : c ∈ m ∨ c.1 = a := by
  unfold Memory.set at h
  split at h
  · exact Or.inl (List.mem_of_mem_filter h)
  · rcases Memory.mem_insert m a v c h with h | h
    · exact Or.inl h
    · exact Or.inr (by rw [h])

/-! ## Stores of more than one byte -/

/-- Whatever each byte's put keeps, a store of bytes keeps. -/
theorem Memory.storeWith_keeps (P : Memory → Prop) (put : Memory → Nat → Byte → Memory) (m : Memory) (a : Nat) (v : Word)
    (n : Width) (hput : ∀ m i b, i < n.bytes → P m → P (put m (a + i) b)) (h : P m) :
    P (Memory.storeWith put m a v n) := by
  cases n with
  | byte => exact hput m 0 _ (by decide) h
  | half => exact hput _ 1 _ (by decide) (hput m 0 _ (by decide) h)
  | word =>
    exact hput _ 3 _ (by decide) (hput _ 2 _ (by decide) (hput _ 1 _ (by decide) (hput m 0 _ (by decide) h)))

theorem Memory.wf_putIo (m : Memory) (a : Nat) (b : Byte) (h : m.wf = true) : (m.putIo a b).wf = true :=
  Memory.wf_set _ _ _ h

theorem Memory.wf_store (m : Memory) (a : Nat) (n : Width) (v : Word) (h : m.wf = true) : (m.store a n v).wf = true :=
  Memory.storeWith_keeps (fun m => m.wf = true) Memory.set m a v n (fun m i b _ hm => Memory.wf_set m (a + i) b hm) h

theorem Memory.wf_storeIo (m : Memory) (a : Nat) (n : Width) (v : Word) (h : m.wf = true) :
    (Memory.storeWith Memory.putIo m a v n).wf = true :=
  Memory.storeWith_keeps (fun m => m.wf = true) Memory.putIo m a v n (fun m i b _ hm => Memory.wf_putIo m (a + i) b hm) h

theorem wf_vtuRefresh (line : Nat) (m : Memory) (h : m.wf = true) : (vtuRefresh line m).wf = true :=
  Memory.wf_set _ _ _ (Memory.wf_set _ _ _ (Memory.wf_set _ _ _ h))

theorem wf_storeHit (r : Region) (off : Nat) (n : Width) (v : Word) (line : Nat) (m : Memory) (h : m.wf = true) :
    (storeHit r off n v line m).wf = true := by
  cases r <;> simp only [storeHit] <;> try exact Memory.wf_store _ _ _ _ h
  split
  · exact wf_vtuRefresh _ _ (Memory.wf_storeIo _ _ _ _ h)
  · exact Memory.wf_storeIo _ _ _ _ h

theorem wf_mirrorButtons (b : BitVec 16) (m : Memory) (h : m.wf = true) : (mirrorButtons b m).wf = true :=
  Memory.wf_set _ _ _ (Memory.wf_set _ _ _ h)

theorem wf_loadBytes (bs : List Byte) (m : Memory) (a : Nat) (h : m.wf = true) : (m.loadBytes a bs).wf = true := by
  induction bs generalizing m a with
  | nil => exact h
  | cons b bs ih => exact ih _ _ (Memory.wf_set _ _ _ h)

theorem wf_clearRange (m : Memory) (lo hi : Nat) (h : m.wf = true) : (m.clearRange lo hi).wf = true :=
  Memory.wf_filter _ _ h

/-- A plain store reads back byte by byte, and leaves every other byte. -/
theorem Memory.get_store (m : Memory) (a : Nat) (n : Width) (v : Word) (b : Nat) :
    (m.store a n v).get b = if a ≤ b ∧ b < a + n.bytes then byteOf v (b - a) else m.get b := by
  have hgoal : ∀ k, n.bytes = k → (m.store a n v).get b = if a ≤ b ∧ b < a + k then byteOf v (b - a) else m.get b := by
    intro k hk
    cases n <;> simp only [Memory.store, Memory.storeWith, Memory.get_set]
    · obtain rfl : 1 = k := hk
      by_cases h : b = a
      · subst h; simp
      · rw [if_neg h, if_neg (by omega)]
    · obtain rfl : 2 = k := hk
      by_cases h1 : b = a + 1
      · subst h1; simp
      · by_cases h : b = a
        · subst h; simp
        · rw [if_neg h1, if_neg h, if_neg (by omega)]
    · obtain rfl : 4 = k := hk
      by_cases h3 : b = a + 3
      · subst h3; simp
      · by_cases h2 : b = a + 2
        · subst h2; simp
        · by_cases h1 : b = a + 1
          · subst h1; simp
          · by_cases h : b = a
            · subst h; simp
            · rw [if_neg h3, if_neg h2, if_neg h1, if_neg h, if_neg (by omega)]
  exact hgoal _ rfl

/-- What the refresh leaves in the five registers it may touch, and that it leaves every other byte. -/
theorem get_vtuRefresh (line : Nat) (m : Memory) (a : Nat) :
    (vtuRefresh line m).get a =
      if a = 0x04000004 then (m.get 0x04000004 &&& 0xF8#8) ||| statusBits line (m.get 0x04000005)
      else if a = 0x04000007 then 0#8
      else if a = 0x04000006 then BitVec.ofNat 8 line
      else m.get a := by
  simp [vtuRefresh, Memory.get_set, Region.base]

/-- What the mirror leaves in KEYINPUT, and that it leaves every other byte. -/
theorem get_mirrorButtons (b : BitVec 16) (m : Memory) (a : Nat) :
    (mirrorButtons b m).get a =
      if a = 0x04000131 then (0xFFFF#16 ^^^ b).extractLsb' 8 8
      else if a = 0x04000130 then (0xFFFF#16 ^^^ b).extractLsb' 0 8
      else m.get a := by
  simp [mirrorButtons, Memory.get_set, Region.key, Region.base]

end Sys2Proof.Machine
end

