-- ==== Sys2Proof/Laws/Exec.lean ====
section
/-! SUPPORT. For each shared operation of the meanings, one lemma that says everything it can do, in the words of Safety.lean. -/

namespace Sys2Proof.Machine

theorem whenCond_of_holds (c : Cond) (f : State → State) (s : State) (h : condHolds c s = true) :
    whenCond c f s = .next (f s) := by simp [whenCond, h]

theorem whenCond_of_fails (c : Cond) (f : State → State) (s : State) (h : condHolds c s = false) :
    whenCond c f s = .next s := by simp [whenCond, h]

theorem whenCond_next (c : Cond) (f : State → State) (s t : State) (h : whenCond c f s = .next t) :
    t = s ∨ (condHolds c s = true ∧ t = f s) := by
  cases hc : condHolds c s with
  | false => rw [whenCond_of_fails c f s hc] at h; cases h; exact Or.inl rfl
  | true => rw [whenCond_of_holds c f s hc] at h; cases h; exact Or.inr ⟨rfl, rfl⟩

/-! ## What the pieces of a result leave -/

theorem SameOutside.refl (s : State) : SameOutside s s := ⟨fun _ => rfl, rfl, rfl, rfl, rfl, rfl, rfl⟩

/-- A state that differs in `regs` and `cpsr` alone is the same outside them. -/
theorem sameOutside_of_eq (s t : State) (h : { t with regs := s.regs, cpsr := s.cpsr } = s) : SameOutside s t := by
  cases s; cases t
  simp only [State.mk.injEq, true_and] at h
  obtain ⟨h1, h2, h3, h4, h5, h6, h7⟩ := h
  exact ⟨fun a => by simp [h3], h5, h1, h2, h4, h6, h7⟩

theorem onlyReg_set (s t : State) (p : PhysReg) (v : Word) (h : t.regs = s.regs.set p v) : OnlyReg p v s t := by
  intro q
  rw [h, RegFile.get_set]

theorem writeDest_onlyReg (s : State) (rd : Reg) (v : Word) : OnlyReg (phys s.bank rd) (destValue s rd v) s (s.writeDest rd v) := by
  apply onlyReg_set
  rw [State.writeDest_regs]
  rfl

theorem writeDest_outside (s : State) (rd : Reg) (v : Word) : SameOutside s (s.writeDest rd v) := by
  obtain ⟨-, h2, h3, h4, h5, h6, h7, h8⟩ := s.writeDest_frame rd v
  exact ⟨fun a => by rw [h4], h6, h2, h3, h5, h7, h8⟩

theorem writeDest_cpsr (s : State) (rd : Reg) (v : Word) : (s.writeDest rd v).cpsr = s.cpsr := (s.writeDest_frame rd v).1

theorem writeDest_of_ne (s : State) (rd : Reg) (v : Word) (h : rd ≠ Reg.pc) : s.writeDest rd v = s.setReg rd v := by
  simp [State.writeDest, h]

/-- A logical finish is the write of the destination, with the flags where they are written. -/
theorem finishLogical_eq (sf : Bool) (rd : Reg) (r : Word) (sc : Bool) (s : State) :
    finishLogical sf rd r sc s =
      if sf = true ∧ rd ≠ Reg.pc then (s.writeDest rd r).setNZC r sc else s.writeDest rd r := by
  unfold finishLogical State.writeDest
  by_cases h : rd = Reg.pc
  · simp [h]
  · cases sf <;> simp [h]

/-- An arithmetic finish is the write of the destination, with the flags where they are written. -/
theorem finishArith_eq (sf : Bool) (rd : Reg) (x : AluResult) (s : State) :
    finishArith sf rd x s =
      if sf = true ∧ rd ≠ Reg.pc then (s.writeDest rd x.r).setNZCV x else s.writeDest rd x.r := by
  unfold finishArith State.writeDest
  by_cases h : rd = Reg.pc
  · simp [h]
  · cases sf <;> simp [h]

theorem beq_eq_decide_zero (r : Word) : (r == 0#32) = decide (r = 0#32) := by
  by_cases h : r = 0#32 <;> simp [h]

/-- What N, Z and C are after `setNZC`, and that the other bits are kept. -/
theorem setNZC_flags (s : State) (r : Word) (c : Bool) :
    FlagsNZ r (s.setNZC r c) ∧ (s.setNZC r c).flagC = c ∧ SameStatusBut [31, 30, 29] s (s.setNZC r c) := by
  refine ⟨⟨?_, ?_⟩, ?_, ?_⟩
  · rw [State.flagN, getLsbD_setNZC]; rfl
  · rw [State.flagZ, getLsbD_setNZC, ← beq_eq_decide_zero]; rfl
  · rw [State.flagC, getLsbD_setNZC]; rfl
  · intro j hj
    simp only [List.mem_cons, List.not_mem_nil, or_false, not_or] at hj
    rw [getLsbD_setNZC, if_neg hj.2.2, if_neg hj.2.1, if_neg hj.1]

/-- What N and Z are after `setNZ`, and that the other bits are kept. -/
theorem setNZ_flags (s : State) (r : Word) :
    FlagsNZ r (s.setNZ r) ∧ SameStatusBut [31, 30] s (s.setNZ r) := by
  refine ⟨⟨?_, ?_⟩, ?_⟩
  · rw [State.flagN, getLsbD_setNZ]; rfl
  · rw [State.flagZ, getLsbD_setNZ, ← beq_eq_decide_zero]; rfl
  · intro j hj
    simp only [List.mem_cons, List.not_mem_nil, or_false, not_or] at hj
    rw [getLsbD_setNZ, if_neg hj.2, if_neg hj.1]

/-- What the four flags are after `setNZCV`, and that the other bits are kept. -/
theorem setNZCV_flags (s : State) (x : AluResult) :
    FlagsNZ x.r (s.setNZCV x) ∧ (s.setNZCV x).flagC = x.cout ∧ (s.setNZCV x).flagV = x.ovf ∧
      SameStatusBut [31, 30, 29, 28] s (s.setNZCV x) := by
  refine ⟨⟨?_, ?_⟩, ?_, ?_, ?_⟩
  · rw [State.flagN, getLsbD_setNZCV]; rfl
  · rw [State.flagZ, getLsbD_setNZCV, ← beq_eq_decide_zero]; rfl
  · rw [State.flagC, getLsbD_setNZCV]; rfl
  · rw [State.flagV, getLsbD_setNZCV]; rfl
  · intro j hj
    simp only [List.mem_cons, List.not_mem_nil, or_false, not_or] at hj
    rw [getLsbD_setNZCV, if_neg hj.2.2.2, if_neg hj.2.2.1, if_neg hj.2.1, if_neg hj.1]

/-! ## Results with a destination -/

theorem finishLogical_done (sf : Bool) (rd : Reg) (r : Word) (sc : Bool) (s : State) :
    LogicalDone sf rd r sc s (.next (finishLogical sf rd r sc s)) := by
  refine ⟨_, rfl, ?_⟩
  rw [finishLogical_eq]
  split
  · exact ⟨writeDest_onlyReg s rd r, writeDest_outside s rd r, by
      have h := setNZC_flags (s.writeDest rd r) r sc
      exact ⟨h.1, h.2.1, fun j hj => by rw [h.2.2 j hj, writeDest_cpsr]⟩⟩
  · exact ⟨writeDest_onlyReg s rd r, writeDest_outside s rd r, writeDest_cpsr s rd r⟩

theorem finishArith_done (sf : Bool) (rd : Reg) (x : AluResult) (s : State) :
    ArithDone sf rd x s (.next (finishArith sf rd x s)) := by
  refine ⟨_, rfl, ?_⟩
  rw [finishArith_eq]
  split
  · exact ⟨writeDest_onlyReg s rd x.r, writeDest_outside s rd x.r, by
      have h := setNZCV_flags (s.writeDest rd x.r) x
      exact ⟨h.1, h.2.1, h.2.2.1, fun j hj => by rw [h.2.2.2 j hj, writeDest_cpsr]⟩⟩
  · exact ⟨writeDest_onlyReg s rd x.r, writeDest_outside s rd x.r, writeDest_cpsr s rd x.r⟩

/-- AND, EOR, ORR, BIC. -/
theorem dpLogical_done (f : Word → Word → Word) (c : Cond) (sf : Bool) (rn rd : Reg) (o : Op2) (s : State)
    (h : condHolds c s = true) :
    LogicalDone sf rd (f (s.getReg rn) (o.eval s).1) (o.eval s).2 s (dpLogical f c sf rn rd o s) := by
  rw [dpLogical, whenCond_of_holds c _ s h]
  exact finishLogical_done sf rd _ _ s

/-- MOV, MVN. -/
theorem dpMove_done (f : Word → Word) (c : Cond) (sf : Bool) (rd : Reg) (o : Op2) (s : State) (h : condHolds c s = true) :
    LogicalDone sf rd (f (o.eval s).1) (o.eval s).2 s (dpMove f c sf rd o s) := by
  rw [dpMove, whenCond_of_holds c _ s h]
  exact finishLogical_done sf rd _ _ s

/-- SUB, RSB, ADD, ADC, SBC, RSC. -/
theorem dpArith_done (f : Word → Word → Bool → AluResult) (c : Cond) (sf : Bool) (rn rd : Reg) (o : Op2) (s : State)
    (h : condHolds c s = true) :
    ArithDone sf rd (f (s.getReg rn) (o.eval s).1 s.flagC) s (dpArith f c sf rn rd o s) := by
  rw [dpArith, whenCond_of_holds c _ s h]
  exact finishArith_done sf rd _ s

/-! ## Flags alone -/

theorem setNZC_testDone (s : State) (r : Word) (sc : Bool) : LogicalTestDone r sc s (.next (s.setNZC r sc)) := by
  have h := setNZC_flags s r sc
  exact ⟨_, rfl, fun _ => rfl, sameOutside_of_eq s _ rfl, h.1, h.2.1, h.2.2⟩

theorem setNZCV_compareDone (s : State) (x : AluResult) : CompareDone x s (.next (s.setNZCV x)) := by
  have h := setNZCV_flags s x
  exact ⟨_, rfl, fun _ => rfl, sameOutside_of_eq s _ rfl, h.1, h.2.1, h.2.2.1, h.2.2.2⟩

/-- TST, TEQ. -/
theorem dpTestLogical_done (f : Word → Word → Word) (c : Cond) (rn : Reg) (o : Op2) (s : State) (h : condHolds c s = true) :
    LogicalTestDone (f (s.getReg rn) (o.eval s).1) (o.eval s).2 s (dpTestLogical f c rn o s) := by
  rw [dpTestLogical, whenCond_of_holds c _ s h]
  exact setNZC_testDone s _ _

/-- CMP, CMN. -/
theorem dpTestArith_done (f : Word → Word → Bool → AluResult) (c : Cond) (rn : Reg) (o : Op2) (s : State)
    (h : condHolds c s = true) :
    CompareDone (f (s.getReg rn) (o.eval s).1 s.flagC) s (dpTestArith f c rn o s) := by
  rw [dpTestArith, whenCond_of_holds c _ s h]
  exact setNZCV_compareDone s _

/-! ## Narrow data processing -/

/-- A narrow shift is the S form of the wide logical result. -/
theorem narrowShift_done (rd : Reg) (x : Word × Bool) (s : State) (h : Reg.isLow rd = true) :
    LogicalDone true rd x.1 x.2 s (narrowShift rd x s) := by
  have hp := low_ne_pc rd h
  have e : narrowShift rd x s = .next (finishLogical true rd x.1 x.2 s) := by
    rw [finishLogical_eq, if_pos ⟨rfl, hp⟩, writeDest_of_ne s rd x.1 hp]
    rfl
  rw [e]
  exact finishLogical_done true rd x.1 x.2 s

theorem narrowArith_done (rd : Reg) (x : AluResult) (s : State) (h : Reg.isLow rd = true) :
    ArithDone true rd x s (narrowArith rd x s) := by
  have hp := low_ne_pc rd h
  have e : narrowArith rd x s = .next (finishArith true rd x s) := by
    rw [finishArith_eq, if_pos ⟨rfl, hp⟩, writeDest_of_ne s rd x.r hp]
    rfl
  rw [e]
  exact finishArith_done true rd x s

theorem destValue_low (s : State) (rd : Reg) (v : Word) (h : Reg.isLow rd = true) : destValue s rd v = v := by
  simp [destValue, low_ne_pc rd h]

/-- What a narrow logical result leaves: C and V among it. -/
theorem narrowLogical_next (rd : Reg) (r : Word) (s : State) :
    ∃ t, narrowLogical rd r s = .next t ∧ OnlyReg (phys s.bank rd) r s t ∧ SameOutside s t ∧ FlagsNZ r t ∧
      SameStatusBut [31, 30] s t := by
  have h := setNZ_flags (s.setReg rd r) r
  exact ⟨_, rfl, onlyReg_set s _ _ _ rfl, sameOutside_of_eq s _ rfl, h.1, h.2⟩

theorem narrowLogical_done (rd : Reg) (r : Word) (s : State) (h : Reg.isLow rd = true) :
    LogicalDone true rd r s.flagC s (narrowLogical rd r s) := by
  obtain ⟨t, e, h1, h2, h3, h4⟩ := narrowLogical_next rd r s
  refine ⟨t, e, ?_, h2, ?_⟩
  · rw [destValue_low s rd r h]; exact h1
  · rw [if_pos ⟨rfl, low_ne_pc rd h⟩]
    exact ⟨h3, h4 29 (by decide), fun j hj => h4 j (by simp only [List.mem_cons, List.not_mem_nil, or_false, not_or] at hj ⊢; exact ⟨hj.1, hj.2.1⟩)⟩

theorem narrowCompare_done (x : AluResult) (s : State) : CompareDone x s (narrowCompare x s) := setNZCV_compareDone s x

theorem setNZ_testDone (s : State) (r : Word) : LogicalTestDone r s.flagC s (.next (s.setNZ r)) := by
  have h := setNZ_flags s r
  exact ⟨_, rfl, fun _ => rfl, sameOutside_of_eq s _ rfl, h.1, h.2 29 (by decide),
    fun j hj => h.2 j (by simp only [List.mem_cons, List.not_mem_nil, or_false, not_or] at hj ⊢; exact ⟨hj.1, hj.2.1⟩)⟩

theorem writeDest_done (s : State) (rd : Reg) (v : Word) :
    RegDone (phys s.bank rd) (destValue s rd v) s (.next (s.writeDest rd v)) :=
  ⟨_, rfl, writeDest_onlyReg s rd v, writeDest_outside s rd v, writeDest_cpsr s rd v⟩

/-! ## Branches -/

theorem branchTo_done (s : State) (v : Word) : BranchDone v s (.next (s.branchTo v)) :=
  ⟨_, rfl, onlyReg_set s _ _ _ (State.branchTo_regs s v), sameOutside_of_eq s _ rfl, rfl⟩

theorem link_done (s : State) (link v : Word) : LinkDone link v s (.next ((s.setReg Reg.lr link).branchTo v)) := by
  refine ⟨_, rfl, sameOutside_of_eq s _ rfl, rfl, ?_⟩
  intro q
  rw [State.branchTo_regs, RegFile.get_set]
  show (if q = .pc then _ else (s.regs.set (phys s.bank Reg.lr) link).get q) = _
  rw [RegFile.get_set]
  rfl

theorem branchExchange_done (s : State) (v : Word) : ExchangeDone v s (.next (s.branchExchange v)) := by
  refine ⟨_, rfl, ?_, sameOutside_of_eq s _ rfl, ?_, ?_⟩
  · apply onlyReg_set
    show ((s.setT (v.getLsbD 0)).branchTo v).regs = _
    rw [State.branchTo_regs, State.flagT_setT]
    rfl
  · show (s.setT (v.getLsbD 0)).flagT = _
    exact State.flagT_setT s _
  · intro j hj
    simp only [List.mem_cons, List.not_mem_nil, or_false] at hj
    show (s.setT (v.getLsbD 0)).cpsr.getLsbD j = _
    rw [State.setT_cpsr, getLsbD_setBit _ _ _ _ (by omega), if_neg hj]

end Sys2Proof.Machine
end

