-- ==== Sys2Proof/Laws/Bus.lean ====
section
/-! SUPPORT. What the address map, the two bus operations and the loads and stores over them can do (20_memory.md R61 to R91;
43_wide_load_store.md R222). -/

namespace Sys2Proof.Machine

/-! ## The address map -/

theorem selector_toNat (a : Word) : (a.extractLsb' 24 8).toNat = a.toNat / 2 ^ 24 := by
  have h := a.isLt
  rw [BitVec.extractLsb'_toNat, Nat.shiftRight_eq_div_pow]
  omega

/-- The selector bytes, each with its region. -/
theorem regionOf_eq_some (sel : Nat) (r : Region) :
    regionOf sel = some r ↔ (sel = r.base / 2 ^ 24 ∨ (sel = 9 ∧ r = .cart)) := by
  constructor
  · intro h
    unfold regionOf at h
    split at h <;> first | (cases h; simp [Region.base]) | cases h
  · rintro (h | ⟨h, rfl⟩)
    · subst h; cases r <;> rfl
    · subst h; rfl

theorem regionOf_eq_none (sel : Nat) :
    regionOf sel = none ↔ sel ∉ [0x00, 0x02, 0x03, 0x04, 0x05, 0x06, 0x07, 0x08, 0x09, 0x0E] := by
  unfold regionOf
  split <;> simp_all

/-- A hit names its region, its offset and that the bytes fit. -/
theorem mapAddr_hit (len : Nat) (a : Word) (n : Width) (r : Region) (off : Nat) (h : mapAddr len a n = .hit r off) :
    regionOf (a.toNat / 2 ^ 24) = some r ∧ a.toNat = r.base + off ∧ off + n.bytes ≤ r.length len := by
  unfold mapAddr at h
  rw [selector_toNat] at h
  split at h
  · cases h
  · rename_i q hq
    split at h
    · rename_i hfit
      cases h
      refine ⟨hq, ?_, hfit⟩
      rcases (regionOf_eq_some _ _).1 hq with h1 | ⟨h1, rfl⟩
      · cases r <;> simp only [Region.base] at * <;> omega
      · simp only [Region.base] at *; omega
    · cases h

theorem mapAddr_outOfBounds (len : Nat) (a : Word) (n : Width) (r : Region) (h : mapAddr len a n = .outOfBounds r) :
    regionOf (a.toNat / 2 ^ 24) = some r ∧ ¬ a.toNat - r.base + n.bytes ≤ r.length len := by
  unfold mapAddr at h
  rw [selector_toNat] at h
  split at h
  · cases h
  · rename_i q hq
    split at h
    · cases h
    · rename_i hfit
      cases h
      exact ⟨hq, hfit⟩

theorem mapAddr_unmapped_iff (len : Nat) (a : Word) (n : Width) :
    mapAddr len a n = .unmapped ↔ regionOf (a.toNat / 2 ^ 24) = none := by
  unfold mapAddr
  rw [selector_toNat]
  cases h : regionOf (a.toNat / 2 ^ 24) with
  | none => exact iff_of_true rfl rfl
  | some q =>
    dsimp only
    split <;> exact iff_of_false (by intro e; cases e) (by intro e; cases e)

theorem mapAddr_eq (len : Nat) (a : Word) (n : Width) (r : Region) (h : regionOf (a.toNat / 2 ^ 24) = some r) :
    mapAddr len a n =
      if a.toNat - r.base + n.bytes ≤ r.length len then .hit r (a.toNat - r.base) else .outOfBounds r := by
  unfold mapAddr
  rw [selector_toNat, h]

/-- A byte within a region's length is in the region's window. -/
theorem regionOf_of_offset (len : Nat) (hl : len ≤ 0x02000000) (r : Region) (off : Nat) (h : off < r.length len) :
    regionOf ((r.base + off) / 2 ^ 24) = some r := by
  rw [regionOf_eq_some]
  by_cases hc : r = .cart
  · subst hc
    simp only [Region.base, Region.length] at *
    rcases Nat.lt_or_ge off 0x01000000 with h1 | h1
    · left; omega
    · right; exact ⟨by omega, trivial⟩
  · left
    cases r <;> simp only [Region.base, Region.length] at * <;> first | omega | exact absurd trivial hc

/-! ## Alignment -/

theorem Width.bytes_pos (n : Width) : 0 < n.bytes := by cases n <;> decide

theorem alignTo_toNat (a : Word) (n : Width) : (alignTo a n).toNat = a.toNat - a.toNat % n.bytes := by
  have h := a.isLt
  have key : ∀ k, k < 3 → ∀ x : Nat, x < 2 ^ 32 → x &&& (2 ^ 32 - 2 ^ k) = x - x % 2 ^ k := by
    intro k hk x hx
    have e : x &&& (2 ^ 32 - 2 ^ k) = x / 2 ^ k * 2 ^ k := by
      apply Nat.eq_of_testBit_eq
      intro i
      have hmask : (2 ^ 32 - 2 ^ k : Nat) = (2 ^ (32 - k) - 1) * 2 ^ k := by
        rcases k with _ | _ | _ | k <;> first | rfl | omega
      rw [Nat.testBit_and, hmask, Nat.testBit_mul_two_pow, Nat.testBit_mul_two_pow, Nat.testBit_two_pow_sub_one,
        Nat.testBit_div_two_pow]
      by_cases hi : k ≤ i
      · have e2 : i - k + k = i := by omega
        simp only [hi, decide_true, Bool.true_and, e2]
        by_cases h32 : i < 32
        · have : i - k < 32 - k := by omega
          simp [this]
        · have : x.testBit i = false := Nat.testBit_lt_two_pow (Nat.lt_of_lt_of_le hx (Nat.pow_le_pow_right (by omega) (by omega)))
          simp [this]
      · simp [hi]
    have := Nat.div_add_mod x (2 ^ k)
    rw [e, Nat.mul_comm]
    omega
  cases n
  · simp [alignTo, Width.bytes, Nat.mod_one]
  · have := key 1 (by omega) a.toNat h
    simpa [alignTo, Width.bytes] using this
  · have := key 2 (by omega) a.toNat h
    simpa [alignTo, Width.bytes] using this

theorem alignTo_eq_iff (a : Word) (n : Width) : alignTo a n = a ↔ a.toNat % n.bytes = 0 := by
  have h := alignTo_toNat a n
  have h2 : a.toNat % n.bytes ≤ a.toNat := Nat.mod_le _ _
  constructor
  · intro e; rw [e] at h; omega
  · intro e; apply BitVec.eq_of_toNat_eq; omega

theorem alignTo_eq_ofNat (a : Word) (n : Width) : alignTo a n = BitVec.ofNat 32 (a.toNat - a.toNat % n.bytes) := by
  apply BitVec.eq_of_toNat_eq
  rw [alignTo_toNat, BitVec.toNat_ofNat]
  exact (Nat.mod_eq_of_lt (Nat.lt_of_le_of_lt (Nat.sub_le _ _) a.isLt)).symm

/-! ## Warnings of an access -/

/-- The entries an access appends for its alignment. -/
def alignWarnings (a : Word) (n : Width) : List Warning := if a.toNat % n.bytes = 0 then [] else [Warning.misaligned a n]

/-- The entries a read appends for its map result. -/
def readWarnings (len : Nat) (al : Word) (n : Width) : List Warning :=
  match mapAddr len al n with
  | .hit _ _ => []
  | .outOfBounds _ => [Warning.outOfBounds al n]
  | .unmapped => [Warning.unmapped al n]

/-- The entries a write appends for its map result. -/
def writeWarnings (len : Nat) (al : Word) (n : Width) : List Warning :=
  match mapAddr len al n with
  | .hit r _ => if r = .boot ∨ r = .cart then [Warning.illegalWrite al n] else []
  | .outOfBounds _ => [Warning.outOfBounds al n]
  | .unmapped => [Warning.unmapped al n]

theorem warnAlign_eq (a : Word) (n : Width) (s : State) :
    s.warnAlign a n = { s with warnings := s.warnings ++ alignWarnings a n } := by
  unfold State.warnAlign alignWarnings
  by_cases h : a.toNat % n.bytes = 0
  · rw [if_pos ((alignTo_eq_iff a n).2 h), if_pos h]; simp
  · rw [if_neg (fun e => h ((alignTo_eq_iff a n).1 e)), if_neg h]; rfl

/-- Everything a bus read does to the state: it appends to the warning log. -/
theorem memRead_state (a : Word) (n : Width) (s : State) :
    (memRead a n s).2 =
      { s with warnings := s.warnings ++ alignWarnings a n ++ readWarnings s.cartLen (alignTo a n) n } := by
  unfold memRead readWarnings
  rw [warnAlign_eq]
  dsimp only
  cases mapAddr s.cartLen (alignTo a n) n <;> simp [State.warn]

/-- The value of a bus read. -/
theorem memRead_value (a : Word) (n : Width) (s : State) :
    (memRead a n s).1 = rotateRead a
      (match mapAddr s.cartLen (alignTo a n) n with
        | .hit _ _ => s.mem.load (alignTo a n).toNat n
        | _ => Config.openBus (alignTo a n) n) n := by
  unfold memRead
  dsimp only
  cases h : mapAddr s.cartLen (alignTo a n) n with
  | hit r off => simp [Region.key, ← (mapAddr_hit _ _ _ _ _ h).2.1]
  | outOfBounds r => rfl
  | unmapped => rfl

theorem memRead_eq_with (a : Word) (n : Width) (s : State) :
    (memRead a n s).2 = { s with warnings := (memRead a n s).2.warnings } := by rw [memRead_state]

/-- Everything a bus write does to the state. -/
theorem memWrite_state (a : Word) (n : Width) (v : Word) (s : State) :
    memWrite a n v s =
      { s with
        warnings := s.warnings ++ alignWarnings a n ++ writeWarnings s.cartLen (alignTo a n) n
        mem :=
          match mapAddr s.cartLen (alignTo a n) n with
          | .hit r off => if r = .boot ∨ r = .cart then s.mem else storeHit r off n v s.vtu.line s.mem
          | _ => s.mem } := by
  unfold memWrite writeWarnings
  rw [warnAlign_eq]
  dsimp only
  cases mapAddr s.cartLen (alignTo a n) n with
  | hit r off => cases r <;> simp [Region.readOnly, State.warn]
  | outOfBounds r => simp [State.warn]
  | unmapped => simp [State.warn]

theorem memWrite_frame (a : Word) (n : Width) (v : Word) (s : State) :
    (memWrite a n v s).regs = s.regs ∧ (memWrite a n v s).cpsr = s.cpsr ∧ SameRest s (memWrite a n v s) := by
  rw [memWrite_state]
  exact ⟨rfl, rfl, rfl, rfl, rfl, rfl, rfl⟩

/-! ## Bytes after a store -/

/-- Storing bytes with any put that changes only its own byte changes only the bytes stored to. -/
theorem get_storeWith_of_outside (put : Memory → Nat → Byte → Memory)
    (hput : ∀ m a b x, b ≠ a → (put m a x).get b = m.get b)
    (m : Memory) (a : Nat) (v : Word) (n : Width) (b : Nat) (hb : ¬ (a ≤ b ∧ b < a + n.bytes)) :
    (Memory.storeWith put m a v n).get b = m.get b := by
  refine Memory.storeWith_keeps (fun m' => m'.get b = m.get b) put m a v n ?_ rfl
  intro m' i x hi hm
  rw [hput m' (a + i) b x (by omega), hm]

theorem get_putIo_of_ne (m : Memory) (a b : Nat) (x : Byte) (h : b ≠ a) : (m.putIo a x).get b = m.get b :=
  Memory.get_set_of_ne _ _ _ _ h

/-- The bytes a masked store leaves. -/
theorem get_storeIo (m : Memory) (a : Nat) (n : Width) (v : Word) (b : Nat) :
    (Memory.storeWith Memory.putIo m a v n).get b =
      if a ≤ b ∧ b < a + n.bytes then
        (m.get b &&& ~~~ioMask (b - 0x04000000)) ||| (byteOf v (b - a) &&& ioMask (b - 0x04000000))
      else m.get b := by
  by_cases hb : a ≤ b ∧ b < a + n.bytes
  · rw [if_pos hb]
    obtain ⟨i, rfl⟩ : ∃ i, b = a + i := ⟨b - a, by omega⟩
    have hi : i < n.bytes := by omega
    have e : a + i - a = i := by omega
    rw [e]
    have same : ∀ m' x, (Memory.putIo m' (a + i) x).get (a + i) =
        (m'.get (a + i) &&& ~~~ioMask (a + i - 0x04000000)) ||| (x &&& ioMask (a + i - 0x04000000)) :=
      fun m' x => Memory.get_set_same _ _ _
    cases n
    · have : i = 0 := by simp only [Width.bytes] at hi; omega
      subst this
      exact same m _
    · have : i = 0 ∨ i = 1 := by simp only [Width.bytes] at hi; omega
      rcases this with rfl | rfl
      · show (Memory.putIo (Memory.putIo m a _) (a + 1) _).get a = _
        rw [get_putIo_of_ne _ _ _ _ (by omega)]
        exact same m _
      · show (Memory.putIo (Memory.putIo m a _) (a + 1) _).get (a + 1) = _
        rw [same, get_putIo_of_ne _ _ _ _ (by omega)]
    · have : i = 0 ∨ i = 1 ∨ i = 2 ∨ i = 3 := by simp only [Width.bytes] at hi; omega
      rcases this with rfl | rfl | rfl | rfl
      · show (Memory.putIo (Memory.putIo (Memory.putIo (Memory.putIo m a _) (a + 1) _) (a + 2) _) (a + 3) _).get a = _
        rw [get_putIo_of_ne _ _ _ _ (by omega), get_putIo_of_ne _ _ _ _ (by omega), get_putIo_of_ne _ _ _ _ (by omega)]
        exact same m _
      · show (Memory.putIo (Memory.putIo (Memory.putIo (Memory.putIo m a _) (a + 1) _) (a + 2) _) (a + 3) _).get (a + 1) = _
        rw [get_putIo_of_ne _ _ _ _ (by omega), get_putIo_of_ne _ _ _ _ (by omega), same, get_putIo_of_ne _ _ _ _ (by omega)]
      · show (Memory.putIo (Memory.putIo (Memory.putIo (Memory.putIo m a _) (a + 1) _) (a + 2) _) (a + 3) _).get (a + 2) = _
        rw [get_putIo_of_ne _ _ _ _ (by omega), same, get_putIo_of_ne _ _ _ _ (by omega), get_putIo_of_ne _ _ _ _ (by omega)]
      · show (Memory.putIo (Memory.putIo (Memory.putIo (Memory.putIo m a _) (a + 1) _) (a + 2) _) (a + 3) _).get (a + 3) = _
        rw [same, get_putIo_of_ne _ _ _ _ (by omega), get_putIo_of_ne _ _ _ _ (by omega), get_putIo_of_ne _ _ _ _ (by omega)]
  · rw [if_neg hb]
    exact get_storeWith_of_outside _ get_putIo_of_ne m a v n b hb

theorem get_vtuRefresh_of_ne (line : Nat) (m : Memory) (b : Nat) (h4 : b ≠ 0x04000004) (h6 : b ≠ 0x04000006)
    (h7 : b ≠ 0x04000007) : (vtuRefresh line m).get b = m.get b := by
  rw [get_vtuRefresh, if_neg h4, if_neg h7, if_neg h6]

/-- A byte a bus write does not store to, outside the display status it may refresh, is kept. -/
theorem get_memWrite_of_outside (a : Word) (n : Width) (v : Word) (s : State) (b : Nat) (hb : ¬ inAccess a n b)
    (hr : ¬ inRefresh a n b) : (memWrite a n v s).mem.get b = s.mem.get b := by
  rw [memWrite_state]
  dsimp only
  split
  · rename_i r off h
    have hk := (mapAddr_hit _ _ _ _ _ h).2.1
    split
    · rfl
    · have hplain : (s.mem.store (r.key off) n v).get b = s.mem.get b := by
        rw [Memory.get_store, if_neg (by unfold inAccess at hb; rw [hk] at hb; exact hb)]
      cases r <;> simp only [storeHit] <;> try exact hplain
      have hio : (Memory.storeWith Memory.putIo s.mem (Region.key .io off) v n).get b = s.mem.get b :=
        get_storeWith_of_outside _ get_putIo_of_ne _ _ _ _ _ (by unfold inAccess at hb; rw [hk] at hb; exact hb)
      split
      · rename_i hoff
        have hin : (alignTo a n).toNat / 8 = 0x04000000 / 8 := by
          rw [hk]; simp only [Region.base]; omega
        rw [get_vtuRefresh_of_ne _ _ _ (fun e => hr ⟨hin, Or.inl e⟩) (fun e => hr ⟨hin, Or.inr (Or.inl e)⟩)
          (fun e => hr ⟨hin, Or.inr (Or.inr e)⟩), hio]
      · exact hio
  · rfl

theorem wf_memWrite (a : Word) (n : Width) (v : Word) (s : State) (h : s.mem.wf = true) :
    (memWrite a n v s).mem.wf = true := by
  rw [memWrite_state]
  dsimp only
  split
  · split
    · exact h
    · exact wf_storeHit _ _ _ _ _ _ h
  · exact h

/-! ## Loads and stores -/

theorem memRead_regs (a : Word) (n : Width) (s : State) : (memRead a n s).2.regs = s.regs := by rw [memRead_state]
theorem memRead_cpsr (a : Word) (n : Width) (s : State) : (memRead a n s).2.cpsr = s.cpsr := by rw [memRead_state]
theorem memRead_mem (a : Word) (n : Width) (s : State) : (memRead a n s).2.mem = s.mem := by rw [memRead_state]
theorem memRead_rest (a : Word) (n : Width) (s : State) : SameRest s (memRead a n s).2 := by
  rw [memRead_state]; exact ⟨rfl, rfl, rfl, rfl, rfl⟩

theorem memRead_bank (a : Word) (n : Width) (s : State) : (memRead a n s).2.bank = s.bank := by
  simp [State.bank, State.mode, memRead_cpsr]

theorem baseWriteBack_frame (s : State) (wb : Bool) (rn : Reg) (oa : Word) :
    (s.baseWriteBack wb rn oa).cpsr = s.cpsr ∧ (s.baseWriteBack wb rn oa).mem = s.mem ∧
    (s.baseWriteBack wb rn oa).warnings = s.warnings ∧ SameRest s (s.baseWriteBack wb rn oa) ∧
    ∀ q, (s.baseWriteBack wb rn oa).regs.get q = if wb = true ∧ q = phys s.bank rn then oa else s.regs.get q := by
  cases wb
  · exact ⟨rfl, rfl, rfl, ⟨rfl, rfl, rfl, rfl, rfl⟩, fun q => by simp [State.baseWriteBack]⟩
  · refine ⟨rfl, rfl, rfl, ⟨rfl, rfl, rfl, rfl, rfl⟩, fun q => ?_⟩
    show (s.regs.set (phys s.bank rn) oa).get q = _
    rw [RegFile.get_set]
    simp

/-- Wide LDR and LDRB. -/
theorem wideLoad_done (n : Width) (c : Cond) (p u w : Bool) (rn rd : Reg) (o : SdtOffset) (s : State)
    (h : condHolds c s = true) :
    LoadDone n (transferAddress p u rn o s) rd (writesBack p w rn) rn (offsetAddress u rn o s) s
      (wideLoad n c p u w rn rd o s) := by
  rw [wideLoad, whenCond_of_holds c _ s h]
  refine ⟨_, rfl, ?_⟩
  dsimp only
  generalize transferAddress p u rn o s = addr
  generalize offsetAddress u rn o s = oa
  generalize writesBack p w rn = wb
  obtain ⟨b1, b2, b3, b4, b5⟩ := baseWriteBack_frame (memRead addr n s).2 wb rn oa
  have hbank : ((memRead addr n s).2.baseWriteBack wb rn oa).bank = s.bank := by
    rw [State.bank, State.mode, b1, memRead_cpsr]; rfl
  have hT : ((memRead addr n s).2.baseWriteBack wb rn oa).flagT = s.flagT := by
    rw [State.flagT, b1, memRead_cpsr]; rfl
  have hout := writeDest_outside ((memRead addr n s).2.baseWriteBack wb rn oa) rd (memRead addr n s).1
  have hreg := writeDest_onlyReg ((memRead addr n s).2.baseWriteBack wb rn oa) rd (memRead addr n s).1
  refine ⟨?_, ?_, ?_, ?_, ?_⟩
  · rw [writeDest_cpsr, b1, memRead_cpsr]
  · intro a
    rw [hout.1 a, b2, memRead_mem]
  · obtain ⟨r1, r2, r3, r4, r5⟩ := hout.2.2
    obtain ⟨q1, q2, q3, q4, q5⟩ := b4
    obtain ⟨p1, p2, p3, p4, p5⟩ := memRead_rest addr n s
    exact ⟨r1.trans (q1.trans p1), r2.trans (q2.trans p2), r3.trans (q3.trans p3), r4.trans (q4.trans p4), r5.trans (q5.trans p5)⟩
  · rw [hout.2.1, b3]
  · intro q
    rw [hreg q, hbank, b5 q, memRead_bank, memRead_regs, destValue, destValue, hT]

/-- Wide STR and STRB. -/
theorem wideStore_done (n : Width) (c : Cond) (p u w : Bool) (rn rd : Reg) (o : SdtOffset) (s : State)
    (h : condHolds c s = true) :
    StoreDone n (transferAddress p u rn o s) (s.getReg rd) (writesBack p w rn) rn (offsetAddress u rn o s) s
      (wideStore n c p u w rn rd o s) := by
  rw [wideStore, whenCond_of_holds c _ s h]
  refine ⟨_, rfl, ?_⟩
  generalize transferAddress p u rn o s = addr
  generalize offsetAddress u rn o s = oa
  generalize writesBack p w rn = wb
  generalize s.getReg rd = v
  obtain ⟨b1, b2, b3, b4, b5⟩ := baseWriteBack_frame (memWrite addr n v s) wb rn oa
  obtain ⟨m1, m2, m3⟩ := memWrite_frame addr n v s
  refine ⟨by rw [b1, m2], ?_, by rw [b2], by rw [b3], ?_, ?_⟩
  · obtain ⟨q1, q2, q3, q4, q5⟩ := b4
    obtain ⟨p1, p2, p3, p4, p5⟩ := m3
    exact ⟨q1.trans p1, q2.trans p2, q3.trans p3, q4.trans p4, q5.trans p5⟩
  · intro a ha hr
    rw [b2]
    exact get_memWrite_of_outside addr n v s a ha hr
  · intro q
    rw [b5 q, m1, State.bank, State.mode, m2]
    rfl

/-- Narrow loads. -/
theorem narrowLoad_done (n : Width) (addr : Word) (rd rb : Reg) (s : State) (h : Reg.isLow rd = true) :
    LoadDone n addr rd false rb 0#32 s (narrowLoad n addr rd s) := by
  refine ⟨_, rfl, ?_, ?_, ?_, rfl, ?_⟩
  · show (memRead addr n s).2.cpsr = _
    rw [memRead_cpsr]
  · intro a
    show (memRead addr n s).2.mem.get a = _
    rw [memRead_mem]
  · exact memRead_rest addr n s
  · intro q
    show ((memRead addr n s).2.regs.set (phys (memRead addr n s).2.bank rd) _).get q = _
    rw [RegFile.get_set, memRead_bank, memRead_regs, destValue_low s rd _ h]
    simp

/-- Narrow stores. -/
theorem narrowStore_done (n : Width) (addr : Word) (rd rb : Reg) (s : State) :
    StoreDone n addr (s.getReg rd) false rb 0#32 s (narrowStore n addr rd s) := by
  obtain ⟨m1, m2, m3⟩ := memWrite_frame addr n (s.getReg rd) s
  exact ⟨_, rfl, m2, m3, rfl, rfl, fun a ha hr => get_memWrite_of_outside addr n _ s a ha hr, fun q => by simp [m1]⟩

end Sys2Proof.Machine
end

