-- ==== Sys2Proof/Laws/Encoding.lean ====
section
/-! SUPPORT. What each field of an encoded word is: the encoder's words taken apart by the decoder's field functions, one group of
lemmas per format (30_encoding.md R113 to R127). -/

namespace Sys2Proof

@[simp] theorem Cond.ofBits_toBits (c : Cond) : Cond.ofBits c.toBits = c := by cases c <;> rfl

@[simp] theorem ShiftType.ofBits_toBits (ty : ShiftType) : ShiftType.ofBits ty.toBits = ty := by cases ty <;> rfl

theorem Cond.toBits_ofBits (b : BitVec 4) : (Cond.ofBits b).toBits = b := by revert b; decide

theorem ShiftType.toBits_ofBits (b : BitVec 2) : (ShiftType.ofBits b).toBits = b := by revert b; decide

/-! ## Fields and bits of a concatenation -/

theorem field_high {n m : Nat} (x : BitVec n) (y : BitVec m) (k w : Nat) (h : m ≤ k) :
    (x ++ y).extractLsb' k w = x.extractLsb' (k - m) w := by
  ext i hi
  have h1 : ¬ k + i < m := by omega
  have h2 : k + i - m = k - m + i := by omega
  simp [BitVec.getElem_extractLsb', BitVec.getLsbD_append, h1, h2]

theorem field_low {n m : Nat} (x : BitVec n) (y : BitVec m) (k w : Nat) (h : k + w ≤ m) :
    (x ++ y).extractLsb' k w = y.extractLsb' k w := by
  ext i hi
  have h1 : k + i < m := by omega
  simp [BitVec.getElem_extractLsb', BitVec.getLsbD_append, h1]

theorem field_all {w : Nat} (x : BitVec w) : x.extractLsb' 0 w = x := by
  ext i hi
  simp

theorem bit_high {n m : Nat} (x : BitVec n) (y : BitVec m) (k : Nat) (h : m ≤ k) :
    (x ++ y).getLsbD k = x.getLsbD (k - m) := by
  have h1 : ¬ k < m := by omega
  simp [BitVec.getLsbD_append, h1]

theorem bit_low {n m : Nat} (x : BitVec n) (y : BitVec m) (k : Nat) (h : k < m) :
    (x ++ y).getLsbD k = y.getLsbD k := by
  simp [BitVec.getLsbD_append, h]

theorem bit_ofBool (b : Bool) : (BitVec.ofBool b).getLsbD 0 = b := by cases b <;> rfl

/-! ## The wide decoder by format -/

theorem isStatusTransfer_eq (w : Word) : isStatusTransfer w = (w.getLsbD 24 && !w.getLsbD 23 && !w.getLsbD 20) := by
  have h : (w.extractLsb' 23 2 == 2#2) = (w.getLsbD 24 && !w.getLsbD 23) := by
    have hb : w.extractLsb' 23 2 = BitVec.ofBool (w.getLsbD 24) ++ BitVec.ofBool (w.getLsbD 23) := by
      apply BitVec.eq_of_getLsbD_eq
      intro i hi
      have : i = 0 ∨ i = 1 := by omega
      rcases this with rfl | rfl
      · rw [bit_low _ _ _ (by omega), bit_ofBool, BitVec.getLsbD_extractLsb']; rfl
      · rw [bit_high _ _ _ (by omega), bit_ofBool, BitVec.getLsbD_extractLsb']; rfl
    rw [hb]
    cases w.getLsbD 24 <;> cases w.getLsbD 23 <;> rfl
  rw [isStatusTransfer, h]

/-- What the fixed bits of the BX pattern say of the fields the other formats are told apart by. -/
theorem bx_bits (w : Word) (h : w &&& 0x0FFFFFF0#32 = 0x012FFF10#32) :
    w.getLsbD 27 = false ∧ w.getLsbD 26 = false ∧ w.getLsbD 25 = false ∧ w.getLsbD 24 = true ∧ w.getLsbD 23 = false ∧
    w.getLsbD 20 = false := by
  have hb : ∀ k, (w &&& 0x0FFFFFF0#32).getLsbD k = (0x012FFF10#32).getLsbD k := fun k => by rw [h]
  have h27 := hb 27
  have h26 := hb 26
  have h25 := hb 25
  have h24 := hb 24
  have h23 := hb 23
  have h20 := hb 20
  simp at h27 h26 h25 h24 h23 h20
  simp [h27, h26, h25, h24, h23, h20]

/-! ## Fields of each wide format -/

/-- W-DP, form `imm`. -/
theorem dpImm_fields (c : Cond) (op : BitVec 4) (sf : Bool) (rn rd : Reg) (rot : BitVec 4) (imm8 : BitVec 8) :
    condOf (dpImmWord c op sf rn rd rot imm8) = c ∧
    (dpImmWord c op sf rn rd rot imm8).extractLsb' 25 3 = 0b001#3 ∧
    fieldOpcode (dpImmWord c op sf rn rd rot imm8) = op.toNat ∧
    (dpImmWord c op sf rn rd rot imm8).getLsbD 20 = sf ∧
    fieldRn (dpImmWord c op sf rn rd rot imm8) = rn ∧
    fieldRd (dpImmWord c op sf rn rd rot imm8) = rd ∧
    (dpImmWord c op sf rn rd rot imm8).extractLsb' 8 4 = rot ∧
    (dpImmWord c op sf rn rd rot imm8).extractLsb' 0 8 = imm8 ∧
    (dpImmWord c op sf rn rd rot imm8).getLsbD 25 = true ∧
    (dpImmWord c op sf rn rd rot imm8).getLsbD 24 = op.getLsbD 3 ∧
    (dpImmWord c op sf rn rd rot imm8).getLsbD 23 = op.getLsbD 2 := by
  unfold dpImmWord
  simp only [condOf, fieldRn, fieldRd, fieldRm, fieldShamt, fieldType, fieldOpcode]
  refine ⟨?_, ?_, ?_, ?_, ?_, ?_, ?_, ?_, ?_, ?_, ?_⟩ <;>
    simp (disch := omega) only [field_high, field_low, field_all, bit_high, bit_low, bit_ofBool, Nat.reduceSub] <;>
    first | done | rfl | simp only [Cond.ofBits_toBits, ShiftType.ofBits_toBits]

/-- W-DP, form `reg-shift-imm`. -/
theorem dpShi_fields (c : Cond) (op : BitVec 4) (sf : Bool) (rn rd : Reg) (shamt : BitVec 5) (ty : ShiftType) (rm : Reg) :
    condOf (dpShiWord c op sf rn rd shamt ty rm) = c ∧
    (dpShiWord c op sf rn rd shamt ty rm).extractLsb' 25 3 = 0b000#3 ∧
    fieldOpcode (dpShiWord c op sf rn rd shamt ty rm) = op.toNat ∧
    (dpShiWord c op sf rn rd shamt ty rm).getLsbD 20 = sf ∧
    fieldRn (dpShiWord c op sf rn rd shamt ty rm) = rn ∧
    fieldRd (dpShiWord c op sf rn rd shamt ty rm) = rd ∧
    fieldShamt (dpShiWord c op sf rn rd shamt ty rm) = shamt ∧
    fieldType (dpShiWord c op sf rn rd shamt ty rm) = ty ∧
    fieldRm (dpShiWord c op sf rn rd shamt ty rm) = rm ∧
    (dpShiWord c op sf rn rd shamt ty rm).getLsbD 4 = false ∧
    (dpShiWord c op sf rn rd shamt ty rm).getLsbD 24 = op.getLsbD 3 ∧
    (dpShiWord c op sf rn rd shamt ty rm).getLsbD 23 = op.getLsbD 2 := by
  unfold dpShiWord
  simp only [condOf, fieldRn, fieldRd, fieldRm, fieldShamt, fieldType, fieldOpcode]
  refine ⟨?_, ?_, ?_, ?_, ?_, ?_, ?_, ?_, ?_, ?_, ?_, ?_⟩ <;>
    simp (disch := omega) only [field_high, field_low, field_all, bit_high, bit_low, bit_ofBool, Nat.reduceSub] <;>
    first | done | rfl | simp only [Cond.ofBits_toBits, ShiftType.ofBits_toBits]

/-- W-DP, form `reg-shift-reg`. -/
theorem dpShr_fields (c : Cond) (op : BitVec 4) (sf : Bool) (rn rd rs : Reg) (ty : ShiftType) (rm : Reg) :
    condOf (dpShrWord c op sf rn rd rs ty rm) = c ∧
    (dpShrWord c op sf rn rd rs ty rm).extractLsb' 25 3 = 0b000#3 ∧
    fieldOpcode (dpShrWord c op sf rn rd rs ty rm) = op.toNat ∧
    (dpShrWord c op sf rn rd rs ty rm).getLsbD 20 = sf ∧
    fieldRn (dpShrWord c op sf rn rd rs ty rm) = rn ∧
    fieldRd (dpShrWord c op sf rn rd rs ty rm) = rd ∧
    (dpShrWord c op sf rn rd rs ty rm).extractLsb' 8 4 = rs ∧
    fieldType (dpShrWord c op sf rn rd rs ty rm) = ty ∧
    fieldRm (dpShrWord c op sf rn rd rs ty rm) = rm ∧
    (dpShrWord c op sf rn rd rs ty rm).getLsbD 4 = true ∧
    (dpShrWord c op sf rn rd rs ty rm).getLsbD 7 = false ∧
    (dpShrWord c op sf rn rd rs ty rm).getLsbD 24 = op.getLsbD 3 ∧
    (dpShrWord c op sf rn rd rs ty rm).getLsbD 23 = op.getLsbD 2 := by
  unfold dpShrWord
  simp only [condOf, fieldRn, fieldRd, fieldRm, fieldShamt, fieldType, fieldOpcode]
  refine ⟨?_, ?_, ?_, ?_, ?_, ?_, ?_, ?_, ?_, ?_, ?_, ?_, ?_⟩ <;>
    simp (disch := omega) only [field_high, field_low, field_all, bit_high, bit_low, bit_ofBool, Nat.reduceSub] <;>
    first | done | rfl | simp only [Cond.ofBits_toBits, ShiftType.ofBits_toBits]

/-- W-SDT, immediate offset. -/
theorem sdtImm_fields (c : Cond) (p u b w l : Bool) (rn rd : Reg) (imm12 : BitVec 12) :
    condOf (sdtImmWord c p u b w l rn rd imm12) = c ∧
    (sdtImmWord c p u b w l rn rd imm12).getLsbD 24 = p ∧
    (sdtImmWord c p u b w l rn rd imm12).getLsbD 23 = u ∧
    (sdtImmWord c p u b w l rn rd imm12).getLsbD 22 = b ∧
    (sdtImmWord c p u b w l rn rd imm12).getLsbD 21 = w ∧
    (sdtImmWord c p u b w l rn rd imm12).getLsbD 20 = l ∧
    fieldRn (sdtImmWord c p u b w l rn rd imm12) = rn ∧
    fieldRd (sdtImmWord c p u b w l rn rd imm12) = rd ∧
    (sdtImmWord c p u b w l rn rd imm12).extractLsb' 0 12 = imm12 ∧
    (sdtImmWord c p u b w l rn rd imm12).extractLsb' 25 3 = 0b010#3 ∧
    (sdtImmWord c p u b w l rn rd imm12).getLsbD 26 = true := by
  unfold sdtImmWord
  simp only [condOf, fieldRn, fieldRd, fieldRm, fieldShamt, fieldType, fieldOpcode]
  refine ⟨?_, ?_, ?_, ?_, ?_, ?_, ?_, ?_, ?_, ?_, ?_⟩ <;>
    simp (disch := omega) only [field_high, field_low, field_all, bit_high, bit_low, bit_ofBool, Nat.reduceSub] <;>
    first | done | rfl | simp only [Cond.ofBits_toBits, ShiftType.ofBits_toBits]

/-- W-SDT, register offset. -/
theorem sdtReg_fields (c : Cond) (p u b w l : Bool) (rn rd : Reg) (shamt : BitVec 5) (ty : ShiftType) (rm : Reg) :
    condOf (sdtRegWord c p u b w l rn rd shamt ty rm) = c ∧
    (sdtRegWord c p u b w l rn rd shamt ty rm).getLsbD 24 = p ∧
    (sdtRegWord c p u b w l rn rd shamt ty rm).getLsbD 23 = u ∧
    (sdtRegWord c p u b w l rn rd shamt ty rm).getLsbD 22 = b ∧
    (sdtRegWord c p u b w l rn rd shamt ty rm).getLsbD 21 = w ∧
    (sdtRegWord c p u b w l rn rd shamt ty rm).getLsbD 20 = l ∧
    fieldRn (sdtRegWord c p u b w l rn rd shamt ty rm) = rn ∧
    fieldRd (sdtRegWord c p u b w l rn rd shamt ty rm) = rd ∧
    fieldShamt (sdtRegWord c p u b w l rn rd shamt ty rm) = shamt ∧
    fieldType (sdtRegWord c p u b w l rn rd shamt ty rm) = ty ∧
    fieldRm (sdtRegWord c p u b w l rn rd shamt ty rm) = rm ∧
    (sdtRegWord c p u b w l rn rd shamt ty rm).getLsbD 4 = false ∧
    (sdtRegWord c p u b w l rn rd shamt ty rm).extractLsb' 25 3 = 0b011#3 ∧
    (sdtRegWord c p u b w l rn rd shamt ty rm).getLsbD 26 = true := by
  unfold sdtRegWord
  simp only [condOf, fieldRn, fieldRd, fieldRm, fieldShamt, fieldType, fieldOpcode]
  refine ⟨?_, ?_, ?_, ?_, ?_, ?_, ?_, ?_, ?_, ?_, ?_, ?_, ?_, ?_⟩ <;>
    simp (disch := omega) only [field_high, field_low, field_all, bit_high, bit_low, bit_ofBool, Nat.reduceSub] <;>
    first | done | rfl | simp only [Cond.ofBits_toBits, ShiftType.ofBits_toBits]

/-- W-B. -/
theorem branch_fields (c : Cond) (l : Bool) (imm24 : BitVec 24) :
    condOf (branchWord c l imm24) = c ∧
    (branchWord c l imm24).getLsbD 24 = l ∧
    (branchWord c l imm24).extractLsb' 0 24 = imm24 ∧
    (branchWord c l imm24).extractLsb' 25 3 = 0b101#3 ∧
    (branchWord c l imm24).getLsbD 27 = true := by
  unfold branchWord
  simp only [condOf, fieldRn, fieldRd, fieldRm, fieldShamt, fieldType, fieldOpcode]
  refine ⟨?_, ?_, ?_, ?_, ?_⟩ <;>
    simp (disch := omega) only [field_high, field_low, field_all, bit_high, bit_low, bit_ofBool, Nat.reduceSub] <;>
    first | done | rfl | simp only [Cond.ofBits_toBits, ShiftType.ofBits_toBits]

/-- W-SWI. -/
theorem swi_fields (c : Cond) (comment24 : BitVec 24) :
    condOf (swiWord c comment24) = c ∧
    (swiWord c comment24).getLsbD 24 = true ∧
    (swiWord c comment24).extractLsb' 0 24 = comment24 ∧
    (swiWord c comment24).extractLsb' 25 3 = 0b111#3 ∧
    (swiWord c comment24).getLsbD 27 = true := by
  unfold swiWord
  simp only [condOf, fieldRn, fieldRd, fieldRm, fieldShamt, fieldType, fieldOpcode]
  refine ⟨?_, ?_, ?_, ?_, ?_⟩ <;>
    simp (disch := omega) only [field_high, field_low, field_all, bit_high, bit_low, bit_ofBool, Nat.reduceSub] <;>
    first | done | rfl | simp only [Cond.ofBits_toBits, ShiftType.ofBits_toBits]

/-- W-BX: the field and the fixed bits. -/
theorem bx_fields (c : Cond) (rm : Reg) :
    condOf (bxWord c rm) = c ∧ fieldRm (bxWord c rm) = rm ∧ bxWord c rm &&& 0x0FFFFFF0#32 = 0x012FFF10#32 := by
  refine ⟨?_, ?_, ?_⟩
  · unfold bxWord condOf
    simp (disch := omega) only [field_high, field_all, Nat.reduceSub]
    exact Cond.ofBits_toBits c
  · unfold bxWord fieldRm
    simp (disch := omega) only [field_low, field_all]
  · cases c <;> revert rm <;> decide

/-! ## Each wide format reaches its own decoder -/

theorem not_bx_of_bit27 (w : Word) (h : w.getLsbD 27 = true) : ¬ w &&& 0x0FFFFFF0#32 = 0x012FFF10#32 := by
  intro hb
  exact Bool.noConfusion (h.symm.trans (bx_bits w hb).1)

theorem not_bx_of_bit26 (w : Word) (h : w.getLsbD 26 = true) : ¬ w &&& 0x0FFFFFF0#32 = 0x012FFF10#32 := by
  intro hb
  exact Bool.noConfusion (h.symm.trans (bx_bits w hb).2.1)

theorem not_bx_of_bit25 (w : Word) (h : w.getLsbD 25 = true) : ¬ w &&& 0x0FFFFFF0#32 = 0x012FFF10#32 := by
  intro hb
  exact Bool.noConfusion (h.symm.trans (bx_bits w hb).2.2.1)

theorem not_bx_of_not_status (w : Word) (h : isStatusTransfer w = false) : ¬ w &&& 0x0FFFFFF0#32 = 0x012FFF10#32 := by
  intro hb
  have f := bx_bits w hb
  rw [isStatusTransfer_eq, f.2.2.2.1, f.2.2.2.2.1, f.2.2.2.2.2] at h
  simp at h

/-- The pattern of a data-processing word is an instruction unless its opcode is 8..11 with S = 0 (R140 item 2). -/
theorem decodeWide_dpImm (c : Cond) (op : BitVec 4) (sf : Bool) (rn rd : Reg) (rot : BitVec 4) (imm8 : BitVec 8)
    (h : (op.getLsbD 3 && !op.getLsbD 2 && !sf) = false) :
    decodeWide (dpImmWord c op sf rn rd rot imm8) = .instr (decodeDpImm (dpImmWord c op sf rn rd rot imm8)) := by
  obtain ⟨-, f1, -, f3, -, -, -, -, -, f9, f10⟩ := dpImm_fields c op sf rn rd rot imm8
  have hs : isStatusTransfer (dpImmWord c op sf rn rd rot imm8) = false := by rw [isStatusTransfer_eq, f9, f10, f3, h]
  rw [decodeWide, if_neg (not_bx_of_not_status _ hs), f1]
  show (if isStatusTransfer _ then _ else _) = _
  rw [hs]
  rfl

theorem decodeWide_dpShi (c : Cond) (op : BitVec 4) (sf : Bool) (rn rd : Reg) (shamt : BitVec 5) (ty : ShiftType) (rm : Reg)
    (h : (op.getLsbD 3 && !op.getLsbD 2 && !sf) = false) :
    decodeWide (dpShiWord c op sf rn rd shamt ty rm) = .instr (decodeDpShi (dpShiWord c op sf rn rd shamt ty rm)) := by
  obtain ⟨-, f1, -, f3, -, -, -, -, -, f8, f9, f10⟩ := dpShi_fields c op sf rn rd shamt ty rm
  have hs : isStatusTransfer (dpShiWord c op sf rn rd shamt ty rm) = false := by rw [isStatusTransfer_eq, f9, f10, f3, h]
  rw [decodeWide, if_neg (not_bx_of_not_status _ hs), f1]
  show (if _ then _ else if isStatusTransfer _ then _ else if _ then _ else _) = _
  rw [hs, f8]
  rfl

theorem decodeWide_dpShr (c : Cond) (op : BitVec 4) (sf : Bool) (rn rd rs : Reg) (ty : ShiftType) (rm : Reg)
    (h : (op.getLsbD 3 && !op.getLsbD 2 && !sf) = false) :
    decodeWide (dpShrWord c op sf rn rd rs ty rm) = .instr (decodeDpShr (dpShrWord c op sf rn rd rs ty rm)) := by
  obtain ⟨-, f1, -, f3, -, -, -, -, -, f8, f7, f9, f10⟩ := dpShr_fields c op sf rn rd rs ty rm
  have hs : isStatusTransfer (dpShrWord c op sf rn rd rs ty rm) = false := by rw [isStatusTransfer_eq, f9, f10, f3, h]
  rw [decodeWide, if_neg (not_bx_of_not_status _ hs), f1]
  show (if _ then _ else if isStatusTransfer _ then _ else if _ then _ else _) = _
  rw [hs, f8, f7]
  rfl

theorem decodeWide_sdtImm (c : Cond) (p u b w l : Bool) (rn rd : Reg) (imm12 : BitVec 12) :
    decodeWide (sdtImmWord c p u b w l rn rd imm12) = .instr (decodeSdtImm (sdtImmWord c p u b w l rn rd imm12)) := by
  obtain ⟨-, -, -, -, -, -, -, -, -, f9, f10⟩ := sdtImm_fields c p u b w l rn rd imm12
  rw [decodeWide, if_neg (not_bx_of_bit26 _ f10), f9]
  rfl

theorem decodeWide_sdtReg (c : Cond) (p u b w l : Bool) (rn rd : Reg) (shamt : BitVec 5) (ty : ShiftType) (rm : Reg) :
    decodeWide (sdtRegWord c p u b w l rn rd shamt ty rm) = .instr (decodeSdtReg (sdtRegWord c p u b w l rn rd shamt ty rm)) := by
  obtain ⟨-, -, -, -, -, -, -, -, -, -, -, f8, f9, f10⟩ := sdtReg_fields c p u b w l rn rd shamt ty rm
  rw [decodeWide, if_neg (not_bx_of_bit26 _ f10), f9]
  show (if _ then _ else _) = _
  rw [f8]
  rfl

theorem decodeWide_branch (c : Cond) (l : Bool) (imm24 : BitVec 24) :
    decodeWide (branchWord c l imm24) = .instr (if l then .wBl c imm24 else .wB c imm24) := by
  obtain ⟨f0, f1, f2, f3, f4⟩ := branch_fields c l imm24
  rw [decodeWide, if_neg (not_bx_of_bit27 _ f4), f3]
  show (if _ then _ else _) = _
  rw [f1, f0, f2]
  cases l <;> rfl

theorem decodeWide_swi (c : Cond) (comment24 : BitVec 24) :
    decodeWide (swiWord c comment24) = .instr (.wSwi c comment24) := by
  obtain ⟨f0, f1, f2, f3, f4⟩ := swi_fields c comment24
  rw [decodeWide, if_neg (not_bx_of_bit27 _ f4), f3]
  show (if _ then _ else _) = _
  rw [f1, f0, f2]
  rfl

theorem decodeWide_bx (c : Cond) (rm : Reg) : decodeWide (bxWord c rm) = .instr (.wBx c rm) := by
  obtain ⟨f0, f1, f2⟩ := bx_fields c rm
  rw [decodeWide, if_pos f2, f0, f1]

/-! ## Fields of each narrow format -/

/-- A low register is the zero extension of its 3-bit field. -/
theorem Reg.ofLow_low (r : Reg) (h : Reg.isLow r = true) : Reg.ofLow r.low = r := by
  revert r
  decide

theorem Reg.isLow_ofLow (b : BitVec 3) : Reg.isLow (Reg.ofLow b) = true := by
  revert b
  decide

/-- A register number is its top bit and its low field. -/
theorem Reg.high_low (r : Reg) : r.extractLsb' 3 1 ++ r.extractLsb' 0 3 = r := by
  revert r
  decide

/-- N1. -/
theorem n1_fields (op : BitVec 2) (imm5 : BitVec 5) (rs rd : Reg) :
    (n1Half op imm5 rs rd).extractLsb' 13 3 = 0b000#3 ∧
    (n1Half op imm5 rs rd).extractLsb' 11 2 = op ∧
    (n1Half op imm5 rs rd).extractLsb' 6 5 = imm5 ∧
    (n1Half op imm5 rs rd).extractLsb' 3 3 = rs.low ∧
    (n1Half op imm5 rs rd).extractLsb' 0 3 = rd.low := by
  unfold n1Half
  refine ⟨?_, ?_, ?_, ?_, ?_⟩ <;>
    simp (disch := omega) only [field_high, field_low, field_all, bit_high, bit_low, Nat.reduceSub]

/-- N2. -/
theorem n2_fields (i op : BitVec 1) (f : BitVec 3) (rs rd : Reg) :
    (n2Half i op f rs rd).extractLsb' 11 2 = 0b11#2 ∧
    (n2Half i op f rs rd).getLsbD 10 = i.getLsbD 0 ∧
    (n2Half i op f rs rd).getLsbD 9 = op.getLsbD 0 ∧
    (n2Half i op f rs rd).extractLsb' 6 3 = f ∧
    (n2Half i op f rs rd).extractLsb' 3 3 = rs.low ∧
    (n2Half i op f rs rd).extractLsb' 0 3 = rd.low ∧
    (n2Half i op f rs rd).extractLsb' 13 3 = 0b000#3 := by
  unfold n2Half
  refine ⟨?_, ?_, ?_, ?_, ?_, ?_, ?_⟩ <;>
    simp (disch := omega) only [field_high, field_low, field_all, bit_high, bit_low, Nat.reduceSub] <;>
    rfl

/-- N3. -/
theorem n3_fields (op : BitVec 2) (rd : Reg) (imm8 : BitVec 8) :
    (n3Half op rd imm8).extractLsb' 13 3 = 0b001#3 ∧
    (n3Half op rd imm8).extractLsb' 11 2 = op ∧
    (n3Half op rd imm8).extractLsb' 8 3 = rd.low ∧
    (n3Half op rd imm8).extractLsb' 0 8 = imm8 := by
  unfold n3Half
  refine ⟨?_, ?_, ?_, ?_⟩ <;>
    simp (disch := omega) only [field_high, field_low, field_all, bit_high, bit_low, Nat.reduceSub]

/-- N4. -/
theorem n4_fields (op : BitVec 4) (rs rd : Reg) :
    (n4Half op rs rd).extractLsb' 13 3 = 0b010#3 ∧
    (n4Half op rs rd).getLsbD 12 = false ∧
    (n4Half op rs rd).getLsbD 11 = false ∧
    (n4Half op rs rd).getLsbD 10 = false ∧
    (n4Half op rs rd).extractLsb' 6 4 = op ∧
    (n4Half op rs rd).extractLsb' 3 3 = rs.low ∧
    (n4Half op rs rd).extractLsb' 0 3 = rd.low := by
  unfold n4Half
  refine ⟨?_, ?_, ?_, ?_, ?_, ?_, ?_⟩ <;>
    simp (disch := omega) only [field_high, field_low, field_all, bit_high, bit_low, Nat.reduceSub] <;>
    rfl

/-- N5. -/
theorem n5_fields (op : BitVec 2) (rs rd : Reg) :
    (n5Half op rs rd).extractLsb' 13 3 = 0b010#3 ∧
    (n5Half op rs rd).getLsbD 12 = false ∧
    (n5Half op rs rd).getLsbD 11 = false ∧
    (n5Half op rs rd).getLsbD 10 = true ∧
    (n5Half op rs rd).extractLsb' 8 2 = op ∧
    (n5Half op rs rd).extractLsb' 7 1 = rd.extractLsb' 3 1 ∧
    (n5Half op rs rd).extractLsb' 3 4 = rs ∧
    (n5Half op rs rd).extractLsb' 0 3 = rd.extractLsb' 0 3 ∧
    (n5Half op rs rd).getLsbD 7 = (rd.extractLsb' 3 1).getLsbD 0 := by
  unfold n5Half
  refine ⟨?_, ?_, ?_, ?_, ?_, ?_, ?_, ?_, ?_⟩ <;>
    simp (disch := omega) only [field_high, field_low, field_all, bit_high, bit_low, Nat.reduceSub] <;>
    rfl

/-- N6. -/
theorem n6_fields (rd : Reg) (imm8 : BitVec 8) :
    (n6Half rd imm8).extractLsb' 13 3 = 0b010#3 ∧
    (n6Half rd imm8).getLsbD 12 = false ∧
    (n6Half rd imm8).getLsbD 11 = true ∧
    (n6Half rd imm8).extractLsb' 8 3 = rd.low ∧
    (n6Half rd imm8).extractLsb' 0 8 = imm8 := by
  unfold n6Half
  refine ⟨?_, ?_, ?_, ?_, ?_⟩ <;>
    simp (disch := omega) only [field_high, field_low, field_all, bit_high, bit_low, Nat.reduceSub] <;>
    rfl

/-- N9. -/
theorem n9_fields (b l : BitVec 1) (imm5 : BitVec 5) (rb rd : Reg) :
    (n9Half b l imm5 rb rd).extractLsb' 13 3 = 0b011#3 ∧
    (n9Half b l imm5 rb rd).getLsbD 12 = b.getLsbD 0 ∧
    (n9Half b l imm5 rb rd).getLsbD 11 = l.getLsbD 0 ∧
    (n9Half b l imm5 rb rd).extractLsb' 6 5 = imm5 ∧
    (n9Half b l imm5 rb rd).extractLsb' 3 3 = rb.low ∧
    (n9Half b l imm5 rb rd).extractLsb' 0 3 = rd.low := by
  unfold n9Half
  refine ⟨?_, ?_, ?_, ?_, ?_, ?_⟩ <;>
    simp (disch := omega) only [field_high, field_low, field_all, bit_high, bit_low, Nat.reduceSub]

/-- N16 and N17. -/
theorem n16_fields (cond : BitVec 4) (low : BitVec 8) :
    (n16Half cond low).extractLsb' 13 3 = 0b110#3 ∧
    (n16Half cond low).getLsbD 12 = true ∧
    (n16Half cond low).extractLsb' 8 4 = cond ∧
    (n16Half cond low).extractLsb' 0 8 = low := by
  unfold n16Half
  refine ⟨?_, ?_, ?_, ?_⟩ <;>
    simp (disch := omega) only [field_high, field_low, field_all, bit_high, bit_low, Nat.reduceSub] <;>
    rfl

/-- N18 and N19. -/
theorem n18_fields (hi : BitVec 5) (off11 : BitVec 11) :
    (n18Half hi off11).extractLsb' 13 3 = hi.extractLsb' 2 3 ∧
    (n18Half hi off11).extractLsb' 11 2 = hi.extractLsb' 0 2 ∧
    (n18Half hi off11).extractLsb' 0 11 = off11 := by
  unfold n18Half
  refine ⟨?_, ?_, ?_⟩ <;>
    simp (disch := omega) only [field_high, field_low, field_all, bit_high, bit_low, Nat.reduceSub]

end Sys2Proof
end

