-- ==== Sys2Proof/Laws/Video.lean ====
section
/-! SUPPORT. The laws of the Video Timing Unit: what one completed line does, what `k` of them do, that `advance` completes exactly
`(acc + c) / LINE_CYCLES` of them, and what a rendered cell is (48_video_timing_unit.md R315 to R322). -/

namespace Sys2Proof.Machine

/-! ## One line and `k` lines -/

/-- `k` completed lines, one after another. -/
def completeLines : Nat → Vtu × Memory → Vtu × Memory
  | 0, p => p
  | k + 1, p => completeLines k (completeLine p)

/-- The unit with `d` more cycles in its accumulator. -/
def addAcc (d : Nat) (p : Vtu × Memory) : Vtu × Memory := ({ p.1 with acc := p.1.acc + d }, p.2)

theorem completeLines_add (j k : Nat) (p : Vtu × Memory) : completeLines (j + k) p = completeLines k (completeLines j p) := by
  induction j generalizing p with
  | zero => simp [completeLines]
  | succ j ih => rw [Nat.succ_add]; exact ih (completeLine p)

theorem addAcc_add (c d : Nat) (p : Vtu × Memory) : addAcc d (addAcc c p) = addAcc (c + d) p := by
  simp [addAcc, Nat.add_assoc]

theorem completeLine_acc (p : Vtu × Memory) : (completeLine p).1.acc = p.1.acc - 1232 := rfl

theorem completeLine_addAcc (d : Nat) (p : Vtu × Memory) (h : 1232 ≤ p.1.acc) :
    completeLine (addAcc d p) = addAcc d (completeLine p) := by
  have e : p.1.acc + d - 1232 = p.1.acc - 1232 + d := by omega
  simp only [completeLine, addAcc, Config.lineCycles, e]
  rfl

theorem completeLines_addAcc (k d : Nat) (p : Vtu × Memory) (h : k * 1232 ≤ p.1.acc) :
    completeLines k (addAcc d p) = addAcc d (completeLines k p) := by
  induction k generalizing p with
  | zero => rfl
  | succ k ih =>
    have h2 : k * 1232 ≤ (completeLine p).1.acc := Nat.le_sub_of_add_le (by show k * 1232 + 1232 ≤ p.1.acc; omega)
    rw [completeLines, completeLine_addAcc d p (by omega), ih _ h2, completeLines]

theorem completeLines_acc (k : Nat) (p : Vtu × Memory) : (completeLines k p).1.acc = p.1.acc - k * 1232 := by
  induction k generalizing p with
  | zero => simp [completeLines]
  | succ k ih =>
    rw [completeLines, ih, completeLine_acc]
    omega

theorem completeLines_line (k : Nat) (p : Vtu × Memory) (h : p.1.line < 228) :
    (completeLines k p).1.line = (p.1.line + k) % 228 := by
  induction k generalizing p with
  | zero => simp [completeLines, Nat.mod_eq_of_lt h]
  | succ k ih =>
    rw [completeLines, ih _ (Nat.mod_lt _ (by decide))]
    show ((p.1.line + 1) % 228 + k) % 228 = _
    omega

theorem completeLines_frame (k : Nat) (p : Vtu × Memory) (h : p.1.line < 228) :
    (completeLines k p).1.frame = p.1.frame + (p.1.line + k) / 228 := by
  induction k generalizing p with
  | zero => simp [completeLines, Nat.div_eq_of_lt h]
  | succ k ih =>
    rw [completeLines, ih _ (Nat.mod_lt _ (by decide))]
    show (if (p.1.line + 1) % 228 = 0 then p.1.frame + 1 else p.1.frame) + ((p.1.line + 1) % 228 + k) / 228 = _
    split <;> omega

theorem completeLines_get (k : Nat) (p : Vtu × Memory) (b : Nat) (h4 : b ≠ 0x04000004) (h6 : b ≠ 0x04000006)
    (h7 : b ≠ 0x04000007) : (completeLines k p).2.get b = p.2.get b := by
  induction k generalizing p with
  | zero => rfl
  | succ k ih =>
    rw [completeLines, ih]
    show (vtuRefresh _ p.2).get b = _
    rw [get_vtuRefresh, if_neg h4, if_neg h7, if_neg h6]

theorem statusBits_high (line : Nat) (c : Byte) : statusBits line c &&& 0xF8#8 = 0#8 := by
  unfold statusBits
  split <;> split <;> decide

theorem statusBits_low (line : Nat) (c : Byte) : statusBits line c &&& 0x07#8 = statusBits line c := by
  unfold statusBits
  split <;> split <;> decide

theorem byte_refresh_high (x y : Byte) (h : y &&& 0xF8#8 = 0#8) : ((x &&& 0xF8#8) ||| y) &&& 0xF8#8 = x &&& 0xF8#8 := by
  apply BitVec.eq_of_getLsbD_eq
  intro i hi
  have e : (y &&& 0xF8#8).getLsbD i = (0#8).getLsbD i := by rw [h]
  rw [BitVec.getLsbD_and, BitVec.getLsbD_zero] at e
  rw [BitVec.getLsbD_and, BitVec.getLsbD_or, BitVec.getLsbD_and]
  revert e
  generalize (0xF8#8).getLsbD i = m
  cases x.getLsbD i <;> cases y.getLsbD i <;> cases m <;> simp

theorem byte_refresh_low (x y : Byte) (h : y &&& 0x07#8 = y) : ((x &&& 0xF8#8) ||| y) &&& 0x07#8 = y := by
  rw [BitVec.and_comm, BitVec.and_or_distrib_left, BitVec.and_comm _ y, h,
    show 0x07#8 &&& (x &&& 0xF8#8) = (0x07#8 &&& 0xF8#8) &&& x by
      rw [BitVec.and_comm x, BitVec.and_assoc]]
  simp

/-- A refresh leaves the display status consistent with the line it is given. -/
theorem vtuRefresh_consistent (line : Nat) (m : Memory) :
    (vtuRefresh line m).get 0x04000006 = BitVec.ofNat 8 line ∧ (vtuRefresh line m).get 0x04000007 = 0#8 ∧
    (vtuRefresh line m).get 0x04000004 &&& 0x07#8 = statusBits line ((vtuRefresh line m).get 0x04000005) ∧
    (vtuRefresh line m).get 0x04000004 &&& 0xF8#8 = m.get 0x04000004 &&& 0xF8#8 := by
  refine ⟨by rw [get_vtuRefresh]; rfl, by rw [get_vtuRefresh]; rfl, ?_, ?_⟩
  · rw [get_vtuRefresh, get_vtuRefresh]
    exact byte_refresh_low _ _ (statusBits_low _ _)
  · rw [get_vtuRefresh]
    exact byte_refresh_high _ _ (statusBits_high _ _)

theorem completeLines_control (k : Nat) (p : Vtu × Memory) :
    (completeLines k p).2.get 0x04000004 &&& 0xF8#8 = p.2.get 0x04000004 &&& 0xF8#8 := by
  induction k generalizing p with
  | zero => rfl
  | succ k ih =>
    rw [completeLines, ih]
    exact (vtuRefresh_consistent _ p.2).2.2.2

/-- After at least one completed line the display status is that of the line. -/
theorem completeLines_consistent (k : Nat) (p : Vtu × Memory) (h : 0 < k) :
    (completeLines k p).2.get 0x04000006 = BitVec.ofNat 8 (completeLines k p).1.line ∧
    (completeLines k p).2.get 0x04000007 = 0#8 ∧
    (completeLines k p).2.get 0x04000004 &&& 0x07#8 =
      statusBits (completeLines k p).1.line ((completeLines k p).2.get 0x04000005) := by
  obtain ⟨j, rfl⟩ : ∃ j, k = j + 1 := ⟨k - 1, by omega⟩
  rw [completeLines_add]
  have h := vtuRefresh_consistent (nextLine (completeLines j p).1.line) (completeLines j p).2
  exact ⟨h.1, h.2.1, h.2.2.1⟩

theorem wf_completeLines (k : Nat) (p : Vtu × Memory) (h : p.2.wf = true) : (completeLines k p).2.wf = true := by
  induction k generalizing p with
  | zero => exact h
  | succ k ih => exact ih _ (wf_vtuRefresh _ _ h)

/-! ## The loop -/

theorem advanceLoop_eq (k : Nat) (p : Vtu × Memory) (h : k * 1232 ≤ p.1.acc) : advanceLoop k p = completeLines k p := by
  induction k generalizing p with
  | zero => rfl
  | succ k ih =>
    have h2 : k * 1232 ≤ (completeLine p).1.acc := Nat.le_sub_of_add_le (by show k * 1232 + 1232 ≤ p.1.acc; omega)
    have h1 : Config.lineCycles ≤ p.1.acc := by
      have e : Config.lineCycles = 1232 := rfl
      omega
    rw [advanceLoop, if_pos h1, ih _ h2, completeLines]

/-- `advance` completes exactly as many lines as the accumulator has thresholds. -/
theorem advanceVtu_eq (c : Nat) (v : Vtu) (m : Memory) :
    advanceVtu c v m = completeLines ((v.acc + c) / 1232) (addAcc c (v, m)) :=
  advanceLoop_eq _ _ (by show (v.acc + c) / 1232 * 1232 ≤ v.acc + c; omega)

/-- The loop's own condition fails when it ends: the bound on its turns never cuts it short. -/
theorem advanceVtu_acc (c : Nat) (v : Vtu) (m : Memory) : (advanceVtu c v m).1.acc = (v.acc + c) % 1232 := by
  rw [advanceVtu_eq, completeLines_acc]
  show v.acc + c - _ = _
  omega

theorem advance_frame (c : Nat) (s : State) :
    (advance c s).regs = s.regs ∧ (advance c s).cpsr = s.cpsr ∧ (advance c s).spsr = s.spsr ∧
    (advance c s).cycles = s.cycles ∧ (advance c s).cartLen = s.cartLen ∧ (advance c s).warnings = s.warnings ∧
    (advance c s).buttons = s.buttons := ⟨rfl, rfl, rfl, rfl, rfl, rfl, rfl⟩

theorem get_advance_of_ne (c : Nat) (s : State) (b : Nat) (h4 : b ≠ 0x04000004) (h6 : b ≠ 0x04000006)
    (h7 : b ≠ 0x04000007) : (advance c s).mem.get b = s.mem.get b := by
  show (advanceVtu c s.vtu s.mem).2.get b = _
  rw [advanceVtu_eq, completeLines_get _ _ _ h4 h6 h7]
  rfl

theorem wf_advance (c : Nat) (s : State) (h : s.mem.wf = true) : (advance c s).mem.wf = true := by
  show (advanceVtu c s.vtu s.mem).2.wf = true
  rw [advanceVtu_eq]
  exact wf_completeLines _ _ h

/-! ## Rendering -/

/-- A rendered row replaces row `y` and leaves every other row. -/
theorem renderLine_get (fb : FrameBuffer) (m : Memory) (y : Nat) (j x : Nat) (hj : j < 160) (hx : x < 240) :
    ((renderLine fb m y)[j]'hj)[x]'hx = if j = y then renderPixel m (dispcnt m) y x else (fb[j]'hj)[x]'hx := by
  unfold renderLine
  rw [Vector.getElem_setIfInBounds]
  by_cases h : j = y
  · subst h
    rw [if_pos rfl, if_pos rfl]
    simp [renderRow]
  · rw [if_neg (fun e => h e.symm), if_neg h]

theorem channel8_eq (c : Half) (i k : Nat) (hk : k = c.toNat / 2 ^ i % 32) :
    channel8 (c.extractLsb' i 5) = BitVec.ofNat 8 (k * 255 / 31) := by
  unfold channel8
  rw [BitVec.extractLsb'_toNat, Nat.shiftRight_eq_div_pow, hk]

/-- The colour of a halfword, as numbers. -/
theorem colour_eq (c : Half) :
    colour c =
      { r := BitVec.ofNat 8 (c.toNat % 32 * 255 / 31)
        g := BitVec.ofNat 8 (c.toNat / 32 % 32 * 255 / 31)
        b := BitVec.ofNat 8 (c.toNat / 1024 % 32 * 255 / 31) } := by
  unfold colour
  rw [channel8_eq c 0 (c.toNat % 32) (by simp), channel8_eq c 5 (c.toNat / 32 % 32) rfl,
    channel8_eq c 10 (c.toNat / 1024 % 32) rfl]

end Sys2Proof.Machine
end

