-- ==== Sys2Proof/Laws/Step.lean ====
section
/-! SUPPORT. What an instruction can do to the state at most, said once for all of them; and what the step adds around it
(40_step_and_conditions.md R150 to R162). -/

namespace Sys2Proof.Machine

/-- What every instruction but the branch-and-exchange keeps: memory but for one bus write, everything `SameRest` names, T and every
status bit but the four flags, every register the mode does not select, and, where `ok` holds, a `pc` that is kept or aligned. -/
structure Kept (ok : Prop) (s t : State) : Prop where
  mem : t.mem = s.mem ∨ ∃ a n v, t.mem = (memWrite a n v s).mem
  rest : SameRest s t
  status : SameStatusBut [31, 30, 29, 28] s t
  banks : ∀ q, (∀ r, phys s.bank r ≠ q) → t.regs.get q = s.regs.get q
  pc : ok → t.pc = s.pc ∨ ∃ v, t.pc = alignedTarget s.flagT v

theorem SameRest.refl (s : State) : SameRest s s := ⟨rfl, rfl, rfl, rfl, rfl⟩

theorem SameRest.trans {s t u : State} (h : SameRest s t) (k : SameRest t u) : SameRest s u :=
  ⟨k.1.trans h.1, k.2.1.trans h.2.1, k.2.2.1.trans h.2.2.1, k.2.2.2.1.trans h.2.2.2.1, k.2.2.2.2.trans h.2.2.2.2⟩

theorem kept_refl (ok : Prop) (s : State) : Kept ok s s :=
  ⟨Or.inl rfl, SameRest.refl s, fun _ _ => rfl, fun _ _ => rfl, fun _ => Or.inl rfl⟩

/-- A state whose only changes are in one register the mode selects, and where that is R15 the value is aligned. -/
theorem kept_of_set (ok : Prop) (s t : State) (rd : Reg) (v : Word) (hr : t.regs = s.regs.set (phys s.bank rd) v)
    (hm : t.mem = s.mem) (hrest : SameRest s t) (hc : SameStatusBut [31, 30, 29, 28] s t)
    (hp : ok → rd ≠ Reg.pc ∨ ∃ x, v = alignedTarget s.flagT x) : Kept ok s t := by
  refine ⟨Or.inl hm, hrest, hc, ?_, ?_⟩
  · intro q hq
    rw [hr, RegFile.get_set_of_ne _ _ _ _ (fun e => hq rd e.symm)]
  · intro hok
    show t.regs.pc = s.regs.pc ∨ ∃ v, t.regs.pc = _
    rw [← RegFile.get_pc t.regs, hr, RegFile.get_set]
    by_cases h : PhysReg.pc = phys s.bank rd
    · rw [if_pos h]
      rcases hp hok with h2 | h2
      · exact absurd ((phys_eq_pc_iff _ _).1 h.symm) h2
      · exact Or.inr h2
    · rw [if_neg h]
      exact Or.inl rfl

theorem kept_writeDest {ok : Prop} (s : State) (rd : Reg) (v : Word) : Kept ok s (s.writeDest rd v) := by
  obtain ⟨h1, h2, h3, h4, h5, h6, h7, h8⟩ := s.writeDest_frame rd v
  refine kept_of_set ok s _ rd _ (s.writeDest_regs rd v) h4 ⟨h2, h3, h5, h7, h8⟩ (fun j _ => by rw [h1]) ?_
  intro _
  by_cases h : rd = Reg.pc
  · exact Or.inr ⟨v, by rw [if_pos h]; rfl⟩
  · exact Or.inl h

theorem kept_setNZCV {ok : Prop} (s : State) (x : AluResult) : Kept ok s (s.setNZCV x) :=
  ⟨Or.inl rfl, ⟨rfl, rfl, rfl, rfl, rfl⟩, (setNZCV_flags s x).2.2.2, fun _ _ => rfl, fun _ => Or.inl rfl⟩

theorem sameStatusBut_weaken {l k : List Nat} {s t : State} (h : SameStatusBut l s t) (hl : ∀ j, j ∈ l → j ∈ k) :
    SameStatusBut k s t := fun j hj => h j (fun e => hj (hl j e))

theorem kept_setNZC {ok : Prop} (s : State) (r : Word) (c : Bool) : Kept ok s (s.setNZC r c) :=
  ⟨Or.inl rfl, ⟨rfl, rfl, rfl, rfl, rfl⟩, sameStatusBut_weaken (setNZC_flags s r c).2.2 (by decide), fun _ _ => rfl,
    fun _ => Or.inl rfl⟩

theorem kept_setNZ {ok : Prop} (s : State) (r : Word) : Kept ok s (s.setNZ r) :=
  ⟨Or.inl rfl, ⟨rfl, rfl, rfl, rfl, rfl⟩, sameStatusBut_weaken (setNZ_flags s r).2 (by decide), fun _ _ => rfl,
    fun _ => Or.inl rfl⟩

/-- Flags written after a register: what the two keep together, where the flags touch no register and no memory. -/
theorem kept_flags_after {ok : Prop} {s t u : State} (h : Kept ok s t) (k : Kept True t u) (hr : u.regs = t.regs)
    (hm : u.mem = t.mem) : Kept ok s u := by
  refine ⟨by rw [hm]; exact h.mem, h.rest.trans k.rest, fun j hj => (k.status j hj).trans (h.status j hj), ?_, ?_⟩
  · intro q hq
    rw [hr]
    exact h.banks q hq
  · intro hok
    have := h.pc hok
    simpa [State.pc, hr] using this

theorem kept_finishLogical {ok : Prop} (sf : Bool) (rd : Reg) (r : Word) (sc : Bool) (s : State) :
    Kept ok s (finishLogical sf rd r sc s) := by
  rw [finishLogical_eq]
  split
  · exact kept_flags_after (kept_writeDest s rd r) (kept_setNZC _ r sc) rfl rfl
  · exact kept_writeDest s rd r

theorem kept_finishArith {ok : Prop} (sf : Bool) (rd : Reg) (x : AluResult) (s : State) : Kept ok s (finishArith sf rd x s) := by
  rw [finishArith_eq]
  split
  · exact kept_flags_after (kept_writeDest s rd x.r) (kept_setNZCV _ x) rfl rfl
  · exact kept_writeDest s rd x.r

theorem kept_setReg {ok : Prop} (s : State) (rd : Reg) (v : Word) (h : ok → Reg.isLow rd = true) : Kept ok s (s.setReg rd v) :=
  kept_of_set ok s _ rd v rfl rfl ⟨rfl, rfl, rfl, rfl, rfl⟩ (fun _ _ => rfl) (fun hok => Or.inl (low_ne_pc rd (h hok)))

theorem kept_setLr {ok : Prop} (s : State) (v : Word) : Kept ok s (s.setReg Reg.lr v) :=
  kept_of_set ok s _ Reg.lr v rfl rfl ⟨rfl, rfl, rfl, rfl, rfl⟩ (fun _ _ => rfl) (fun _ => Or.inl (by decide))

theorem kept_branchTo {ok : Prop} (s : State) (v : Word) : Kept ok s (s.branchTo v) :=
  kept_of_set ok s _ Reg.pc _ (by rw [phys_pc]; exact State.branchTo_regs s v) rfl ⟨rfl, rfl, rfl, rfl, rfl⟩ (fun _ _ => rfl)
    (fun _ => Or.inr ⟨v, rfl⟩)

theorem kept_link {ok : Prop} (s : State) (link v : Word) : Kept ok s ((s.setReg Reg.lr link).branchTo v) := by
  have h := kept_setLr (ok := ok) s link
  have k := kept_branchTo (ok := ok) (s.setReg Reg.lr link) v
  refine ⟨Or.inl rfl, h.rest.trans k.rest, fun _ _ => rfl, ?_, fun _ => Or.inr ⟨v, rfl⟩⟩
  intro q hq
  exact (k.banks q hq).trans (h.banks q hq)

theorem kept_memWrite {ok : Prop} (a : Word) (n : Width) (v : Word) (s : State) : Kept ok s (memWrite a n v s) := by
  obtain ⟨h1, h2, h3⟩ := memWrite_frame a n v s
  exact ⟨Or.inr ⟨a, n, v, rfl⟩, h3, fun _ _ => by rw [h2], fun _ _ => by rw [h1], fun _ => Or.inl (by simp [State.pc, h1])⟩

theorem kept_memRead {ok : Prop} (a : Word) (n : Width) (s : State) : Kept ok s (memRead a n s).2 :=
  ⟨Or.inl (memRead_mem a n s), memRead_rest a n s, fun _ _ => by rw [memRead_cpsr], fun _ _ => by rw [memRead_regs],
    fun _ => Or.inl (by simp [State.pc, memRead_regs])⟩

theorem writesBack_ne_pc (p w : Bool) (rn : Reg) (h : writesBack p w rn = true) : rn ≠ Reg.pc := by
  simp [writesBack] at h
  exact h.2

theorem kept_baseWriteBack {ok : Prop} (s : State) (p w : Bool) (rn : Reg) (oa : Word) :
    Kept ok s (s.baseWriteBack (writesBack p w rn) rn oa) := by
  unfold State.baseWriteBack
  split
  · rename_i h
    exact kept_of_set ok s _ rn oa rfl rfl ⟨rfl, rfl, rfl, rfl, rfl⟩ (fun _ _ => rfl)
      (fun _ => Or.inl (writesBack_ne_pc p w rn h))
  · exact kept_refl ok s

/-- Two pieces in turn, the second of which stores nothing. -/
theorem Kept.trans {ok : Prop} {s t u : State} (h : Kept ok s t) (k : Kept ok t u) (hm : u.mem = t.mem) : Kept ok s u := by
  have hT : t.flagT = s.flagT := h.status 5 (by decide)
  have hb : t.bank = s.bank := bank_congr s t (fun j hj => h.status j (by
    simp only [List.mem_cons, List.not_mem_nil, or_false, not_or]; omega))
  refine ⟨by rw [hm]; exact h.mem, h.rest.trans k.rest, fun j hj => (k.status j hj).trans (h.status j hj), ?_, ?_⟩
  · intro q hq
    exact (k.banks q (by rw [hb]; exact hq)).trans (h.banks q hq)
  · intro hok
    rcases k.pc hok with e | ⟨v, e⟩
    · rw [e]; exact h.pc hok
    · exact Or.inr ⟨v, by rw [e, hT]⟩

/-- The branch-and-exchange is the only exception: it is written as what it is. -/
def Exchanges (i : Instr) (s t : State) : Prop :=
  ((∃ c rm, i = .wBx c rm) ∨ (∃ rs, i = .nBx rs)) ∧ ∃ v, t = s.branchExchange v

theorem kept_next {ok : Prop} {i : Instr} {s t : State} (h : Kept ok s t) :
    ∃ u, (Host.Outcome.next t : Outcome) = .next u ∧ (Kept ok s u ∨ Exchanges i s u) := ⟨t, rfl, Or.inl h⟩

theorem kept_when {ok : Prop} {i : Instr} (c : Cond) (f : State → State) (s : State) (h : Kept ok s (f s)) :
    ∃ u, whenCond c f s = .next u ∧ (Kept ok s u ∨ Exchanges i s u) := by
  cases hc : condHolds c s with
  | false => exact ⟨s, whenCond_of_fails c f s hc, Or.inl (kept_refl ok s)⟩
  | true => exact ⟨f s, whenCond_of_holds c f s hc, Or.inl h⟩

theorem kept_dpLogical {ok : Prop} {i : Instr} (f : Word → Word → Word) (c : Cond) (sf : Bool) (rn rd : Reg) (o : Op2)
    (s : State) : ∃ u, dpLogical f c sf rn rd o s = .next u ∧ (Kept ok s u ∨ Exchanges i s u) :=
  kept_when c _ s (kept_finishLogical sf rd _ _ s)

theorem kept_dpMove {ok : Prop} {i : Instr} (f : Word → Word) (c : Cond) (sf : Bool) (rd : Reg) (o : Op2)
    (s : State) : ∃ u, dpMove f c sf rd o s = .next u ∧ (Kept ok s u ∨ Exchanges i s u) :=
  kept_when c _ s (kept_finishLogical sf rd _ _ s)

theorem kept_dpArith {ok : Prop} {i : Instr} (f : Word → Word → Bool → AluResult) (c : Cond) (sf : Bool) (rn rd : Reg) (o : Op2)
    (s : State) : ∃ u, dpArith f c sf rn rd o s = .next u ∧ (Kept ok s u ∨ Exchanges i s u) :=
  kept_when c _ s (kept_finishArith sf rd _ s)

theorem kept_dpTestLogical {ok : Prop} {i : Instr} (f : Word → Word → Word) (c : Cond) (rn : Reg) (o : Op2)
    (s : State) : ∃ u, dpTestLogical f c rn o s = .next u ∧ (Kept ok s u ∨ Exchanges i s u) :=
  kept_when c (fun s => s.setNZC (f (s.getReg rn) (o.eval s).1) (o.eval s).2) s (kept_setNZC s _ _)

theorem kept_dpTestArith {ok : Prop} {i : Instr} (f : Word → Word → Bool → AluResult) (c : Cond) (rn : Reg) (o : Op2)
    (s : State) : ∃ u, dpTestArith f c rn o s = .next u ∧ (Kept ok s u ∨ Exchanges i s u) :=
  kept_when c (fun s => s.setNZCV (f (s.getReg rn) (o.eval s).1 s.flagC)) s (kept_setNZCV s _)

theorem kept_when_branch {ok : Prop} {i : Instr} (c : Cond) (v : State → Word) (s : State) :
    ∃ u, whenCond c (fun s => s.branchTo (v s)) s = .next u ∧ (Kept ok s u ∨ Exchanges i s u) :=
  kept_when c (fun s => s.branchTo (v s)) s (kept_branchTo s _)

theorem kept_when_link {ok : Prop} {i : Instr} (c : Cond) (link v : State → Word) (s : State) :
    ∃ u, whenCond c (fun s => (s.setReg Reg.lr (link s)).branchTo (v s)) s = .next u ∧ (Kept ok s u ∨ Exchanges i s u) :=
  kept_when c (fun s => (s.setReg Reg.lr (link s)).branchTo (v s)) s (kept_link s _ _)

theorem kept_when_exchange {ok : Prop} (c : Cond) (rm : Reg) (s : State) :
    ∃ u, whenCond c (fun s => s.branchExchange (s.getReg rm)) s = .next u ∧
      (Kept ok s u ∨ Exchanges (.wBx c rm) s u) := by
  cases hc : condHolds c s with
  | false => exact ⟨s, whenCond_of_fails c _ s hc, Or.inl (kept_refl ok s)⟩
  | true => exact ⟨_, whenCond_of_holds c _ s hc, Or.inr ⟨Or.inl ⟨c, rm, rfl⟩, _, rfl⟩⟩

theorem kept_narrowBranchIf {ok : Prop} {i : Instr} (c : Cond) (soff8 : BitVec 8) (s : State) :
    ∃ u, narrowBranchIf c soff8 s = .next u ∧ (Kept ok s u ∨ Exchanges i s u) := by
  refine ⟨_, rfl, Or.inl ?_⟩
  split
  · exact kept_branchTo s _
  · exact kept_refl ok s

theorem kept_wideLoad {ok : Prop} {i : Instr} (n : Width) (c : Cond) (p u w : Bool) (rn rd : Reg) (o : SdtOffset) (s : State) :
    ∃ t, wideLoad n c p u w rn rd o s = .next t ∧ (Kept ok s t ∨ Exchanges i s t) := by
  refine kept_when c _ s ?_
  refine Kept.trans (Kept.trans (kept_memRead _ n s) (kept_baseWriteBack _ p w rn _) ?_) (kept_writeDest _ rd _) ?_
  · exact (baseWriteBack_frame _ _ _ _).2.1
  · exact (State.writeDest_frame _ _ _).2.2.2.1

theorem kept_wideStore {ok : Prop} {i : Instr} (n : Width) (c : Cond) (p u w : Bool) (rn rd : Reg) (o : SdtOffset) (s : State) :
    ∃ t, wideStore n c p u w rn rd o s = .next t ∧ (Kept ok s t ∨ Exchanges i s t) := by
  refine kept_when c _ s ?_
  exact Kept.trans (kept_memWrite _ n _ s) (kept_baseWriteBack _ p w rn _) (baseWriteBack_frame _ _ _ _).2.1

theorem kept_narrowLoad {ok : Prop} {i : Instr} (n : Width) (addr : Word) (rd : Reg) (s : State) (h : ok → Reg.isLow rd = true) :
    ∃ t, narrowLoad n addr rd s = .next t ∧ (Kept ok s t ∨ Exchanges i s t) :=
  kept_next (Kept.trans (kept_memRead addr n s) (kept_setReg _ rd _ h) rfl)

theorem kept_setReg_then {ok : Prop} (s : State) (rd : Reg) (v : Word) {u : State} (k : Kept True (s.setReg rd v) u)
    (h : ok → Reg.isLow rd = true) (hr : u.regs = (s.setReg rd v).regs := by rfl) (hm : u.mem = s.mem := by rfl) : Kept ok s u :=
  kept_flags_after (kept_setReg s rd v h) k hr hm

theorem kept_narrowShift {ok : Prop} {i : Instr} (rd : Reg) (x : Word × Bool) (s : State) (h : ok → Reg.isLow rd = true) :
    ∃ u, narrowShift rd x s = .next u ∧ (Kept ok s u ∨ Exchanges i s u) :=
  kept_next (kept_setReg_then s rd x.1 (kept_setNZC _ x.1 x.2) h)

theorem kept_narrowLogical {ok : Prop} {i : Instr} (rd : Reg) (r : Word) (s : State) (h : ok → Reg.isLow rd = true) :
    ∃ u, narrowLogical rd r s = .next u ∧ (Kept ok s u ∨ Exchanges i s u) :=
  kept_next (kept_setReg_then s rd r (kept_setNZ _ r) h)

theorem kept_narrowArith {ok : Prop} {i : Instr} (rd : Reg) (x : AluResult) (s : State) (h : ok → Reg.isLow rd = true) :
    ∃ u, narrowArith rd x s = .next u ∧ (Kept ok s u ∨ Exchanges i s u) :=
  kept_next (kept_setReg_then s rd x.r (kept_setNZCV _ x) h)

theorem kept_narrowCompare {ok : Prop} {i : Instr} (x : AluResult) (s : State) :
    ∃ u, narrowCompare x s = .next u ∧ (Kept ok s u ∨ Exchanges i s u) := kept_next (kept_setNZCV s x)

theorem kept_narrowStore {ok : Prop} {i : Instr} (n : Width) (addr : Word) (rd : Reg) (s : State) :
    ∃ u, narrowStore n addr rd s = .next u ∧ (Kept ok s u ∨ Exchanges i s u) :=
  kept_next (kept_memWrite addr n (s.getReg rd) s)

/-- Every instruction answers a next state, and what it can change at most. -/
theorem exec_kept (i : Instr) (s : State) :
    ∃ t, exec i s = .next t ∧ (Kept (i.wellFormed = true) s t ∨ Exchanges i s t) := by
  cases i with
  | wAndImm c sf rn rd rot imm8 => exact kept_dpLogical (· &&& ·) c sf rn rd (.imm rot imm8) s
  | wAndShi c sf rn rd shamt ty rm => exact kept_dpLogical (· &&& ·) c sf rn rd (.shi shamt ty rm) s
  | wAndShr c sf rn rd rs ty rm => exact kept_dpLogical (· &&& ·) c sf rn rd (.shr rs ty rm) s
  | wEorImm c sf rn rd rot imm8 => exact kept_dpLogical (· ^^^ ·) c sf rn rd (.imm rot imm8) s
  | wEorShi c sf rn rd shamt ty rm => exact kept_dpLogical (· ^^^ ·) c sf rn rd (.shi shamt ty rm) s
  | wEorShr c sf rn rd rs ty rm => exact kept_dpLogical (· ^^^ ·) c sf rn rd (.shr rs ty rm) s
  | wSubImm c sf rn rd rot imm8 => exact kept_dpArith aluSub c sf rn rd (.imm rot imm8) s
  | wSubShi c sf rn rd shamt ty rm => exact kept_dpArith aluSub c sf rn rd (.shi shamt ty rm) s
  | wSubShr c sf rn rd rs ty rm => exact kept_dpArith aluSub c sf rn rd (.shr rs ty rm) s
  | wRsbImm c sf rn rd rot imm8 => exact kept_dpArith aluRsb c sf rn rd (.imm rot imm8) s
  | wRsbShi c sf rn rd shamt ty rm => exact kept_dpArith aluRsb c sf rn rd (.shi shamt ty rm) s
  | wRsbShr c sf rn rd rs ty rm => exact kept_dpArith aluRsb c sf rn rd (.shr rs ty rm) s
  | wAddImm c sf rn rd rot imm8 => exact kept_dpArith aluAdd c sf rn rd (.imm rot imm8) s
  | wAddShi c sf rn rd shamt ty rm => exact kept_dpArith aluAdd c sf rn rd (.shi shamt ty rm) s
  | wAddShr c sf rn rd rs ty rm => exact kept_dpArith aluAdd c sf rn rd (.shr rs ty rm) s
  | wAdcImm c sf rn rd rot imm8 => exact kept_dpArith aluAdc c sf rn rd (.imm rot imm8) s
  | wAdcShi c sf rn rd shamt ty rm => exact kept_dpArith aluAdc c sf rn rd (.shi shamt ty rm) s
  | wAdcShr c sf rn rd rs ty rm => exact kept_dpArith aluAdc c sf rn rd (.shr rs ty rm) s
  | wSbcImm c sf rn rd rot imm8 => exact kept_dpArith aluSbc c sf rn rd (.imm rot imm8) s
  | wSbcShi c sf rn rd shamt ty rm => exact kept_dpArith aluSbc c sf rn rd (.shi shamt ty rm) s
  | wSbcShr c sf rn rd rs ty rm => exact kept_dpArith aluSbc c sf rn rd (.shr rs ty rm) s
  | wRscImm c sf rn rd rot imm8 => exact kept_dpArith aluRsc c sf rn rd (.imm rot imm8) s
  | wRscShi c sf rn rd shamt ty rm => exact kept_dpArith aluRsc c sf rn rd (.shi shamt ty rm) s
  | wRscShr c sf rn rd rs ty rm => exact kept_dpArith aluRsc c sf rn rd (.shr rs ty rm) s
  | wTstImm c rn rot imm8 => exact kept_dpTestLogical (· &&& ·) c rn (.imm rot imm8) s
  | wTstShi c rn shamt ty rm => exact kept_dpTestLogical (· &&& ·) c rn (.shi shamt ty rm) s
  | wTstShr c rn rs ty rm => exact kept_dpTestLogical (· &&& ·) c rn (.shr rs ty rm) s
  | wTeqImm c rn rot imm8 => exact kept_dpTestLogical (· ^^^ ·) c rn (.imm rot imm8) s
  | wTeqShi c rn shamt ty rm => exact kept_dpTestLogical (· ^^^ ·) c rn (.shi shamt ty rm) s
  | wTeqShr c rn rs ty rm => exact kept_dpTestLogical (· ^^^ ·) c rn (.shr rs ty rm) s
  | wCmpImm c rn rot imm8 => exact kept_dpTestArith aluSub c rn (.imm rot imm8) s
  | wCmpShi c rn shamt ty rm => exact kept_dpTestArith aluSub c rn (.shi shamt ty rm) s
  | wCmpShr c rn rs ty rm => exact kept_dpTestArith aluSub c rn (.shr rs ty rm) s
  | wCmnImm c rn rot imm8 => exact kept_dpTestArith aluAdd c rn (.imm rot imm8) s
  | wCmnShi c rn shamt ty rm => exact kept_dpTestArith aluAdd c rn (.shi shamt ty rm) s
  | wCmnShr c rn rs ty rm => exact kept_dpTestArith aluAdd c rn (.shr rs ty rm) s
  | wOrrImm c sf rn rd rot imm8 => exact kept_dpLogical (· ||| ·) c sf rn rd (.imm rot imm8) s
  | wOrrShi c sf rn rd shamt ty rm => exact kept_dpLogical (· ||| ·) c sf rn rd (.shi shamt ty rm) s
  | wOrrShr c sf rn rd rs ty rm => exact kept_dpLogical (· ||| ·) c sf rn rd (.shr rs ty rm) s
  | wMovImm c sf rd rot imm8 => exact kept_dpMove (fun b => b) c sf rd (.imm rot imm8) s
  | wMovShi c sf rd shamt ty rm => exact kept_dpMove (fun b => b) c sf rd (.shi shamt ty rm) s
  | wMovShr c sf rd rs ty rm => exact kept_dpMove (fun b => b) c sf rd (.shr rs ty rm) s
  | wBicImm c sf rn rd rot imm8 => exact kept_dpLogical (fun a b => a &&& ~~~b) c sf rn rd (.imm rot imm8) s
  | wBicShi c sf rn rd shamt ty rm => exact kept_dpLogical (fun a b => a &&& ~~~b) c sf rn rd (.shi shamt ty rm) s
  | wBicShr c sf rn rd rs ty rm => exact kept_dpLogical (fun a b => a &&& ~~~b) c sf rn rd (.shr rs ty rm) s
  | wMvnImm c sf rd rot imm8 => exact kept_dpMove (fun b => ~~~b) c sf rd (.imm rot imm8) s
  | wMvnShi c sf rd shamt ty rm => exact kept_dpMove (fun b => ~~~b) c sf rd (.shi shamt ty rm) s
  | wMvnShr c sf rd rs ty rm => exact kept_dpMove (fun b => ~~~b) c sf rd (.shr rs ty rm) s
  | wB c imm24 => exact kept_when_branch c (fun s => s.pc + wideBranchOffset imm24) s
  | wBl c imm24 => exact kept_when_link c (fun s => s.pc) (fun s => s.pc + wideBranchOffset imm24) s
  | wBx c rm => exact kept_when_exchange c rm s
  | wSwi c _ => exact kept_when_branch c (fun s => s.getReg Reg.lr) s
  | wLdrImm c p u w rn rd imm12 => exact kept_wideLoad .word c p u w rn rd (.imm imm12) s
  | wLdrReg c p u w rn rd shamt ty rm => exact kept_wideLoad .word c p u w rn rd (.reg shamt ty rm) s
  | wStrImm c p u w rn rd imm12 => exact kept_wideStore .word c p u w rn rd (.imm imm12) s
  | wStrReg c p u w rn rd shamt ty rm => exact kept_wideStore .word c p u w rn rd (.reg shamt ty rm) s
  | wLdrbImm c p u w rn rd imm12 => exact kept_wideLoad .byte c p u w rn rd (.imm imm12) s
  | wLdrbReg c p u w rn rd shamt ty rm => exact kept_wideLoad .byte c p u w rn rd (.reg shamt ty rm) s
  | wStrbImm c p u w rn rd imm12 => exact kept_wideStore .byte c p u w rn rd (.imm imm12) s
  | wStrbReg c p u w rn rd shamt ty rm => exact kept_wideStore .byte c p u w rn rd (.reg shamt ty rm) s
  | nLslImm imm5 rs rd => exact kept_narrowShift rd (shiftImm .lsl imm5.toNat (s.getReg rs) s.flagC) s (fun h => by simp only [Instr.wellFormed, Bool.and_eq_true] at h; tauto)
  | nLsrImm imm5 rs rd => exact kept_narrowShift rd (shiftImm .lsr imm5.toNat (s.getReg rs) s.flagC) s (fun h => by simp only [Instr.wellFormed, Bool.and_eq_true] at h; tauto)
  | nAsrImm imm5 rs rd => exact kept_narrowShift rd (shiftImm .asr imm5.toNat (s.getReg rs) s.flagC) s (fun h => by simp only [Instr.wellFormed, Bool.and_eq_true] at h; tauto)
  | nAddReg rn rs rd => exact kept_narrowArith rd (aluAdd (s.getReg rs) (s.getReg rn) s.flagC) s (fun h => by simp only [Instr.wellFormed, Bool.and_eq_true] at h; tauto)
  | nSubReg rn rs rd => exact kept_narrowArith rd (aluSub (s.getReg rs) (s.getReg rn) s.flagC) s (fun h => by simp only [Instr.wellFormed, Bool.and_eq_true] at h; tauto)
  | nAddImm3 imm3 rs rd => exact kept_narrowArith rd (aluAdd (s.getReg rs) (imm3.setWidth 32) s.flagC) s (fun h => by simp only [Instr.wellFormed, Bool.and_eq_true] at h; tauto)
  | nSubImm3 imm3 rs rd => exact kept_narrowArith rd (aluSub (s.getReg rs) (imm3.setWidth 32) s.flagC) s (fun h => by simp only [Instr.wellFormed, Bool.and_eq_true] at h; tauto)
  | nMovImm8 rd imm8 => exact kept_narrowLogical rd (imm8.setWidth 32) s (fun h => by simp only [Instr.wellFormed, Bool.and_eq_true] at h; tauto)
  | nCmpImm8 rd imm8 => exact kept_narrowCompare (aluSub (s.getReg rd) (imm8.setWidth 32) s.flagC) s
  | nAddImm8 rd imm8 => exact kept_narrowArith rd (aluAdd (s.getReg rd) (imm8.setWidth 32) s.flagC) s (fun h => by simp only [Instr.wellFormed, Bool.and_eq_true] at h; tauto)
  | nSubImm8 rd imm8 => exact kept_narrowArith rd (aluSub (s.getReg rd) (imm8.setWidth 32) s.flagC) s (fun h => by simp only [Instr.wellFormed, Bool.and_eq_true] at h; tauto)
  | nAnd rs rd => exact kept_narrowLogical rd (s.getReg rd &&& s.getReg rs) s (fun h => by simp only [Instr.wellFormed, Bool.and_eq_true] at h; tauto)
  | nEor rs rd => exact kept_narrowLogical rd (s.getReg rd ^^^ s.getReg rs) s (fun h => by simp only [Instr.wellFormed, Bool.and_eq_true] at h; tauto)
  | nLslReg rs rd => exact kept_narrowShift rd (shiftReg .lsl (lowByte (s.getReg rs)) (s.getReg rd) s.flagC) s (fun h => by simp only [Instr.wellFormed, Bool.and_eq_true] at h; tauto)
  | nLsrReg rs rd => exact kept_narrowShift rd (shiftReg .lsr (lowByte (s.getReg rs)) (s.getReg rd) s.flagC) s (fun h => by simp only [Instr.wellFormed, Bool.and_eq_true] at h; tauto)
  | nAsrReg rs rd => exact kept_narrowShift rd (shiftReg .asr (lowByte (s.getReg rs)) (s.getReg rd) s.flagC) s (fun h => by simp only [Instr.wellFormed, Bool.and_eq_true] at h; tauto)
  | nAdc rs rd => exact kept_narrowArith rd (aluAdc (s.getReg rd) (s.getReg rs) s.flagC) s (fun h => by simp only [Instr.wellFormed, Bool.and_eq_true] at h; tauto)
  | nSbc rs rd => exact kept_narrowArith rd (aluSbc (s.getReg rd) (s.getReg rs) s.flagC) s (fun h => by simp only [Instr.wellFormed, Bool.and_eq_true] at h; tauto)
  | nRorReg rs rd => exact kept_narrowShift rd (shiftReg .ror (lowByte (s.getReg rs)) (s.getReg rd) s.flagC) s (fun h => by simp only [Instr.wellFormed, Bool.and_eq_true] at h; tauto)
  | nTst rs rd => exact kept_next (kept_setNZ s (s.getReg rd &&& s.getReg rs))
  | nNeg rs rd => exact kept_narrowArith rd (aluSub 0#32 (s.getReg rs) s.flagC) s (fun h => by simp only [Instr.wellFormed, Bool.and_eq_true] at h; tauto)
  | nCmpReg rs rd => exact kept_narrowCompare (aluSub (s.getReg rd) (s.getReg rs) s.flagC) s
  | nCmn rs rd => exact kept_narrowCompare (aluAdd (s.getReg rd) (s.getReg rs) s.flagC) s
  | nOrr rs rd => exact kept_narrowLogical rd (s.getReg rd ||| s.getReg rs) s (fun h => by simp only [Instr.wellFormed, Bool.and_eq_true] at h; tauto)
  | nBic rs rd => exact kept_narrowLogical rd (s.getReg rd &&& ~~~s.getReg rs) s (fun h => by simp only [Instr.wellFormed, Bool.and_eq_true] at h; tauto)
  | nMvn rs rd => exact kept_narrowLogical rd (~~~s.getReg rs) s (fun h => by simp only [Instr.wellFormed, Bool.and_eq_true] at h; tauto)
  | nAddHigh rs rd => exact kept_next (kept_writeDest s rd (s.getReg rd + s.getReg rs))
  | nCmpHigh rs rd => exact kept_narrowCompare (aluSub (s.getReg rd) (s.getReg rs) s.flagC) s
  | nMovHigh rs rd => exact kept_next (kept_writeDest s rd (s.getReg rs))
  | nBx rs => exact ⟨s.branchExchange (s.getReg rs), rfl, Or.inr ⟨Or.inr ⟨rs, rfl⟩, s.getReg rs, rfl⟩⟩
  | nLdrPc rd imm8 => exact kept_narrowLoad .word (literalAddress imm8 s) rd s (fun h => by simp only [Instr.wellFormed, Bool.and_eq_true] at h; tauto)
  | nStrImm imm5 rb rd => exact kept_narrowStore .word (narrowWordAddress imm5 rb s) rd s
  | nLdrImm imm5 rb rd => exact kept_narrowLoad .word (narrowWordAddress imm5 rb s) rd s (fun h => by simp only [Instr.wellFormed, Bool.and_eq_true] at h; tauto)
  | nStrbImm imm5 rb rd => exact kept_narrowStore .byte (narrowByteAddress imm5 rb s) rd s
  | nLdrbImm imm5 rb rd => exact kept_narrowLoad .byte (narrowByteAddress imm5 rb s) rd s (fun h => by simp only [Instr.wellFormed, Bool.and_eq_true] at h; tauto)
  | nBeq soff8 => exact kept_narrowBranchIf .eq soff8 s
  | nBne soff8 => exact kept_narrowBranchIf .ne soff8 s
  | nBcs soff8 => exact kept_narrowBranchIf .cs soff8 s
  | nBcc soff8 => exact kept_narrowBranchIf .cc soff8 s
  | nBmi soff8 => exact kept_narrowBranchIf .mi soff8 s
  | nBpl soff8 => exact kept_narrowBranchIf .pl soff8 s
  | nBvs soff8 => exact kept_narrowBranchIf .vs soff8 s
  | nBvc soff8 => exact kept_narrowBranchIf .vc soff8 s
  | nBhi soff8 => exact kept_narrowBranchIf .hi soff8 s
  | nBls soff8 => exact kept_narrowBranchIf .ls soff8 s
  | nBge soff8 => exact kept_narrowBranchIf .ge soff8 s
  | nBlt soff8 => exact kept_narrowBranchIf .lt soff8 s
  | nBgt soff8 => exact kept_narrowBranchIf .gt soff8 s
  | nBle soff8 => exact kept_narrowBranchIf .le soff8 s
  | nSwi _ => exact kept_next (kept_branchTo s (s.getReg Reg.lr))
  | nB off11 => exact kept_next (kept_branchTo s (s.pc + narrowBranchOffset off11))
  | nBlPrefix off11 => exact kept_next (kept_setLr s (s.pc + blPrefixOffset off11))
  | nBlSuffix off11 => exact kept_next (kept_link s (s.pc ||| 1#32) (s.getReg Reg.lr + blSuffixOffset off11))

/-! ## Around the instruction -/

theorem fetch_state (s : State) : (fetch s).2 = (memRead s.pc s.fetchWidth s).2 := rfl

theorem fetchInstr_state (s : State) : (fetchInstr s).2 = (memRead s.pc s.fetchWidth s).2.advancePc := rfl

/-- The state an instruction executes in is the one before the fetch, with `pc` advanced and the warnings of the fetch. -/
theorem fetchInstr_state_eq (s : State) :
    (fetchInstr s).2 = State.setPc { s with warnings := (memRead s.pc s.fetchWidth s).2.warnings } (s.pc + s.instrBytes) := by
  rw [fetchInstr_state, memRead_eq_with]
  rfl

/-- Every processor step answers a next state: that of the instruction, or of nothing for a RESERVED pattern, with the charge. -/
theorem procStep_next (s : State) :
    (∃ i t, (fetchInstr s).1 = .instr i ∧ exec i (fetchInstr s).2 = .next t ∧ procStep s = .next t.charge ∧
      (Kept (i.wellFormed = true) (fetchInstr s).2 t ∨ Exchanges i (fetchInstr s).2 t)) ∨
    (∃ r, (fetchInstr s).1 = .reserved r ∧ procStep s = .next (fetchInstr s).2.charge) := by
  cases h : (fetchInstr s).1 with
  | instr i =>
    obtain ⟨t, e, k⟩ := exec_kept i (fetchInstr s).2
    exact Or.inl ⟨i, t, rfl, e, by rw [procStep, h, execDecoded, e]; rfl, k⟩
  | reserved r => exact Or.inr ⟨r, rfl, by rw [procStep, h]; rfl⟩

theorem step_of_procStep (s t : State) (h : procStep s = .next t) : step s = .next (advance Config.stepCycles t) := by
  rw [step, systemStep, h]
  rfl

theorem stepCycles_pos : 1 ≤ Config.stepCycles := Nat.succ_le_succ (Nat.zero_le _)

end Sys2Proof.Machine
end

