-- ==== Sys2Proof/Laws/Invariant.lean ====
section
/-! SUPPORT. What each of the two things that write memory (a bus write and the advance of the Video Timing Unit) keeps of the
machine's invariant, and that the rest of a step touches none of it. -/

namespace Sys2Proof.Machine

/-- A state that agrees on memory, `CART_LEN`, the unit and the buttons meets the invariant with the other. -/
theorem inv_congr (s t : State) (hm : t.mem = s.mem) (hl : t.cartLen = s.cartLen) (hv : t.vtu = s.vtu)
    (hb : t.buttons = s.buttons) (h : s.Inv) : t.Inv := by
  obtain ⟨h1, h2, h3, h4, h5, h6⟩ := h
  refine ⟨?_, ?_, ?_, ?_, ?_, ?_⟩
  · simpa [State.MemoryCanonical, hm] using h1
  · simpa [State.MemoryMapped, hm, hl] using h2
  · simpa [State.ClockInRange, hv] using h3
  · simpa [State.DisplayStatusConsistent, hm, hv] using h4
  · simpa [State.InputMirrored, hm, hb] using h5
  · simpa [State.CartInRange, hl] using h6

theorem isMapped_key (len : Nat) (hl : len ≤ 0x02000000) (r : Region) (x : Nat) (h : x < r.length len) :
    isMapped len (r.base + x) = true := by
  have e : r.base + x - r.base = x := by omega
  have hr : regionOf ((r.base + x) / 0x1000000) = some r := regionOf_of_offset len hl r x h
  unfold isMapped
  rw [hr]
  simp [e, h]

/-- Bytes put at mapped addresses leave only mapped addresses listed. -/
theorem mapped_storeWith (len : Nat) (put : Memory → Nat → Byte → Memory)
    (hput : ∀ m a b c, c ∈ put m a b → c ∈ m ∨ c.1 = a) (m : Memory) (a : Nat) (v : Word) (n : Width)
    (h : ∀ c ∈ m, isMapped len c.1 = true) (ha : ∀ i, i < n.bytes → isMapped len (a + i) = true) :
    ∀ c ∈ Memory.storeWith put m a v n, isMapped len c.1 = true := by
  refine Memory.storeWith_keeps (fun m => ∀ c ∈ m, isMapped len c.1 = true) put m a v n ?_ h
  intro m' i b hi hm c hc
  rcases hput m' (a + i) b c hc with hc | hc
  · exact hm c hc
  · rw [hc]; exact ha i hi

theorem mem_putIo (m : Memory) (a : Nat) (b : Byte) (c : Host.Cell) (h : c ∈ m.putIo a b) : c ∈ m ∨ c.1 = a :=
  Memory.mem_set m a _ c h

theorem mapped_vtuRefresh (len : Nat) (line : Nat) (m : Memory) (h : ∀ c ∈ m, isMapped len c.1 = true) :
    ∀ c ∈ vtuRefresh line m, isMapped len c.1 = true := by
  intro c hc
  rcases Memory.mem_set _ _ _ c hc with hc | hc
  · rcases Memory.mem_set _ _ _ c hc with hc | hc
    · rcases Memory.mem_set _ _ _ c hc with hc | hc
      · exact h c hc
      · rw [hc]; rfl
    · rw [hc]; rfl
  · rw [hc]; rfl

theorem mapped_completeLines (len k : Nat) (p : Vtu × Memory) (h : ∀ c ∈ p.2, isMapped len c.1 = true) :
    ∀ c ∈ (completeLines k p).2, isMapped len c.1 = true := by
  induction k generalizing p with
  | zero => exact h
  | succ k ih => exact ih _ (mapped_vtuRefresh len _ p.2 h)

/-- A bus write either stores nothing, or stores the bytes of a hit of a writable region. -/
theorem memWrite_mem_cases (a : Word) (n : Width) (v : Word) (s : State) :
    (memWrite a n v s).mem = s.mem ∨
    ∃ r off, mapAddr s.cartLen (alignTo a n) n = .hit r off ∧ r ≠ .boot ∧ r ≠ .cart ∧
      (memWrite a n v s).mem = storeHit r off n v s.vtu.line s.mem := by
  rw [memWrite_state]
  dsimp only
  cases h : mapAddr s.cartLen (alignTo a n) n with
  | hit r off =>
    dsimp only
    by_cases hr : r = .boot ∨ r = .cart
    · rw [if_pos hr]; exact Or.inl rfl
    · rw [if_neg hr]
      exact Or.inr ⟨r, off, rfl, fun e => hr (Or.inl e), fun e => hr (Or.inr e), rfl⟩
  | outOfBounds r => exact Or.inl rfl
  | unmapped => exact Or.inl rfl

/-- Where the bytes of a hit outside the `IO` region lie, no register of the `IO` region does. -/
theorem io_outside_hit (len : Nat) (a : Word) (n : Width) (r : Region) (off b : Nat) (h : mapAddr len a n = .hit r off)
    (hl : len ≤ 0x02000000) (hr : r ≠ .io) (hb : 0x04000000 ≤ b ∧ b < 0x04000400) :
    ¬ (r.key off ≤ b ∧ b < r.key off + n.bytes) := by
  have h2 := (mapAddr_hit _ _ _ _ _ h).2.2
  intro h3
  cases r <;> simp only [Region.key, Region.base, Region.length] at * <;> first | omega | exact absurd rfl hr

/-- A store to the `IO` region leaves the bits its mask protects. -/
theorem get_storeIo_masked (m : Memory) (a : Nat) (n : Width) (v : Word) (b : Nat) (h : ioMask (b - 0x04000000) = 0#8) :
    (Memory.storeWith Memory.putIo m a v n).get b = m.get b := by
  have e : ∀ x y : Byte, (x &&& ~~~0#8) ||| (y &&& 0#8) = x := by
    intro x y
    rw [show (~~~0#8 : Byte) = BitVec.allOnes 8 from rfl, BitVec.and_allOnes, BitVec.and_zero, BitVec.or_zero]
  rw [get_storeIo, h, e]
  split <;> rfl

theorem get_storeIo_status (m : Memory) (a : Nat) (n : Width) (v : Word) :
    (Memory.storeWith Memory.putIo m a v n).get 0x04000004 &&& 0x07#8 = m.get 0x04000004 &&& 0x07#8 := by
  rw [get_storeIo]
  split
  · show ((_ &&& ~~~0xF8#8) ||| (_ &&& 0xF8#8)) &&& 0x07#8 = _
    generalize m.get 0x04000004 = x
    generalize byteOf v _ = y
    apply BitVec.eq_of_getLsbD_eq
    intro i hi
    have hmask : ∀ i, i < 8 → (0xF8#8).getLsbD i = !(0x07#8).getLsbD i := by decide
    rw [BitVec.getLsbD_and, BitVec.getLsbD_or, BitVec.getLsbD_and, BitVec.getLsbD_and, BitVec.getLsbD_and, BitVec.getLsbD_not,
      hmask i hi]
    cases (0x07#8).getLsbD i <;> simp [hi]
  · rfl

theorem wf_of_memWrite (a : Word) (n : Width) (v : Word) (s : State) (h : s.MemoryCanonical) :
    (memWrite a n v s).MemoryCanonical := wf_memWrite a n v s h

theorem mapped_memWrite (a : Word) (n : Width) (v : Word) (s : State) (h : s.MemoryMapped) (hc : s.CartInRange) :
    (memWrite a n v s).MemoryMapped := by
  have hlen : (memWrite a n v s).cartLen = s.cartLen := (memWrite_frame a n v s).2.2.2.2.1
  unfold State.MemoryMapped
  rw [hlen]
  rcases memWrite_mem_cases a n v s with e | ⟨r, off, hm, -, -, e⟩
  · rw [e]; exact h
  · rw [e]
    have h2 := (mapAddr_hit _ _ _ _ _ hm).2.2
    have ha : ∀ i, i < n.bytes → isMapped s.cartLen (r.key off + i) = true := by
      intro i hi
      have := isMapped_key s.cartLen hc r (off + i) (by omega)
      rwa [← Nat.add_assoc] at this
    cases r <;> simp only [storeHit] <;> try exact mapped_storeWith _ _ Memory.mem_set _ _ _ _ h ha
    split
    · exact mapped_vtuRefresh _ _ _ (mapped_storeWith _ _ mem_putIo _ _ _ _ h ha)
    · exact mapped_storeWith _ _ mem_putIo _ _ _ _ h ha

/-- KEYINPUT reads as before after any bus write. -/
theorem keyinput_memWrite (a : Word) (n : Width) (v : Word) (s : State) (hc : s.CartInRange) (b : Nat)
    (hb : b = 0x04000130 ∨ b = 0x04000131) : (memWrite a n v s).mem.get b = s.mem.get b := by
  rcases memWrite_mem_cases a n v s with e | ⟨r, off, hm, -, -, e⟩
  · rw [e]
  · rw [e]
    by_cases hr : r = .io
    · subst hr
      have hmask : ioMask (b - 0x04000000) = 0#8 := by rcases hb with rfl | rfl <;> rfl
      simp only [storeHit]
      split
      · rw [get_vtuRefresh_of_ne _ _ _ (by omega) (by omega) (by omega)]
        exact get_storeIo_masked _ _ _ _ _ hmask
      · exact get_storeIo_masked _ _ _ _ _ hmask
    · have e2 : storeHit r off n v s.vtu.line s.mem = s.mem.store (r.key off) n v := by
        cases r <;> first | rfl | exact absurd rfl hr
      rw [e2, Memory.get_store, if_neg (io_outside_hit _ _ _ _ _ b hm hc hr (by omega))]

theorem display_memWrite (a : Word) (n : Width) (v : Word) (s : State) (h : s.DisplayStatusConsistent) (hc : s.CartInRange) :
    (memWrite a n v s).DisplayStatusConsistent := by
  have hv : (memWrite a n v s).vtu = s.vtu := (memWrite_frame a n v s).2.2.2.2.2.1
  unfold State.DisplayStatusConsistent
  rw [hv]
  rcases memWrite_mem_cases a n v s with e | ⟨r, off, hm, -, -, e⟩
  · rw [e]; exact h
  · rw [e]
    by_cases hr : r = .io
    · subst hr
      simp only [storeHit]
      split
      · have k := vtuRefresh_consistent s.vtu.line (Memory.storeWith Memory.putIo s.mem (Region.key .io off) v n)
        exact ⟨k.1, k.2.1, k.2.2.1⟩
      · rename_i hoff
        have h5 : (Memory.storeWith Memory.putIo s.mem (Region.key .io off) v n).get 0x04000005 = s.mem.get 0x04000005 := by
          apply get_storeWith_of_outside _ get_putIo_of_ne
          simp only [Region.key, Region.base]
          omega
        rw [get_storeIo_masked _ _ _ _ 0x04000006 rfl, get_storeIo_masked _ _ _ _ 0x04000007 rfl, get_storeIo_status, h5]
        exact h
    · have e2 : storeHit r off n v s.vtu.line s.mem = s.mem.store (r.key off) n v := by
        cases r <;> first | rfl | exact absurd rfl hr
      have k : ∀ b, 0x04000000 ≤ b ∧ b < 0x04000400 → (s.mem.store (r.key off) n v).get b = s.mem.get b := by
        intro b hb
        rw [Memory.get_store, if_neg (io_outside_hit _ _ _ _ _ b hm hc hr hb)]
      rw [e2, k _ (by omega), k _ (by omega), k _ (by omega), k _ (by omega)]
      exact h

/-- A bus write keeps the invariant. -/
theorem inv_memWrite (a : Word) (n : Width) (v : Word) (s : State) (h : s.Inv) : (memWrite a n v s).Inv := by
  obtain ⟨h1, h2, h3, h4, h5, h6⟩ := h
  obtain ⟨-, -, -, -, f3, f4, f5⟩ := memWrite_frame a n v s
  refine ⟨wf_of_memWrite a n v s h1, mapped_memWrite a n v s h2 h6, ?_, display_memWrite a n v s h4 h6, ?_, ?_⟩
  · simpa [State.ClockInRange, f4] using h3
  · unfold State.InputMirrored
    rw [keyinput_memWrite a n v s h6 _ (Or.inl rfl), keyinput_memWrite a n v s h6 _ (Or.inr rfl), f5]
    exact h5
  · simpa [State.CartInRange, f3] using h6

/-- The advance of the Video Timing Unit keeps the invariant. -/
theorem inv_advance (c : Nat) (s : State) (h : s.Inv) : (advance c s).Inv := by
  obtain ⟨h1, h2, h3, h4, h5, h6⟩ := h
  have e1 : (advance c s).vtu = (completeLines ((s.vtu.acc + c) / 1232) (addAcc c (s.vtu, s.mem))).1 := by
    rw [← advanceVtu_eq]; rfl
  have e2 : (advance c s).mem = (completeLines ((s.vtu.acc + c) / 1232) (addAcc c (s.vtu, s.mem))).2 := by
    rw [← advanceVtu_eq]; rfl
  refine ⟨wf_advance c s h1, ?_, ⟨?_, ?_⟩, ?_, ?_, h6⟩
  · unfold State.MemoryMapped
    rw [e2]
    exact mapped_completeLines _ _ _ h2
  · rw [e1, completeLines_line _ _ h3.1]
    exact Nat.mod_lt _ (by decide)
  · rw [show (advance c s).vtu.acc = _ from advanceVtu_acc c s.vtu s.mem]
    exact Nat.mod_lt _ (by decide)
  · unfold State.DisplayStatusConsistent
    rw [e1, e2]
    rcases Nat.eq_zero_or_pos ((s.vtu.acc + c) / 1232) with h0 | h0
    · rw [h0]; exact h4
    · exact completeLines_consistent _ _ h0
  · unfold State.InputMirrored
    rw [get_advance_of_ne _ _ _ (by decide) (by decide) (by decide), get_advance_of_ne _ _ _ (by decide) (by decide) (by decide)]
    exact h5

/-! ## The alignment of `pc` -/

theorem pcAligned_of_target (t : State) (v : Word) (h : t.pc = alignedTarget t.flagT v) : t.PcAligned := by
  unfold State.PcAligned
  rw [h]
  unfold alignedTarget
  cases t.flagT with
  | true =>
    rw [if_pos rfl, if_pos rfl, BitVec.getLsbD_and]
    have : (0xFFFFFFFE#32).getLsbD 0 = false := rfl
    simp [this]
  | false =>
    rw [if_neg (by decide), if_neg (by decide)]
    apply BitVec.eq_of_getLsbD_eq
    intro i hi
    have hm : ∀ i, i < 2 → (0xFFFFFFFC#32).getLsbD i = false := by decide
    rw [BitVec.getLsbD_extractLsb', BitVec.getLsbD_and, Nat.zero_add, hm i hi]
    simp

/-- `PcAligned` as a remainder: of 2 in narrow mode, of 4 in wide mode. -/
theorem pcAligned_iff (s : State) : s.PcAligned ↔ s.pc.toNat % (if s.flagT then 2 else 4) = 0 := by
  unfold State.PcAligned
  cases s.flagT with
  | true =>
    have : s.pc.getLsbD 0 = decide (s.pc.toNat % 2 = 1) := by
      rw [BitVec.getLsbD, Nat.testBit_zero]
    rw [if_pos rfl, if_pos rfl, this, decide_eq_false_iff_not]
    omega
  | false =>
    rw [if_neg (by decide), if_neg (by decide), ← BitVec.toNat_inj, BitVec.extractLsb'_toNat]
    simp

theorem pcAligned_advancePc (s : State) (h : s.PcAligned) : s.advancePc.PcAligned := by
  rw [pcAligned_iff] at h ⊢
  have hT : s.advancePc.flagT = s.flagT := rfl
  have hp : s.advancePc.pc = s.pc + s.instrBytes := rfl
  rw [hT, hp]
  unfold State.instrBytes
  cases hf : s.flagT <;> rw [hf] at h <;> simp only [Bool.false_eq_true, if_false, if_true] at h ⊢ <;>
    rw [BitVec.toNat_add] <;> simp <;> omega

theorem branchExchange_pc (s : State) (v : Word) : (s.branchExchange v).pc = alignedTarget (s.branchExchange v).flagT v := rfl

end Sys2Proof.Machine
end

