-- ==== Sys2Proof/Laws/PerInstr.lean ====
section
/-! SUPPORT. The family of statements made per instruction: the decoder reads back every well-formed instruction from the words the
encoder writes for it (30_encoding.md R113 to R131). -/

namespace Sys2Proof.Laws.EncodingRoundTrip

/-- Decoding the encoding of `i` gives `i`, with every operand, whenever `i` fits its format. -/
def Statement (i : Instr) : Prop := i.wellFormed = true → decode (encode i) = .instr i

theorem wAndImm (c : Cond) (sf : Bool) (rn rd : Reg) (rot : BitVec 4) (imm8 : BitVec 8) : Statement (.wAndImm c sf rn rd rot imm8) := by
  intro _
  have f := dpImm_fields c 0#4 sf rn rd rot imm8
  show decodeWide (dpImmWord c 0#4 sf rn rd rot imm8) = _
  rw [decodeWide_dpImm c 0#4 sf rn rd rot imm8 rfl, decodeDpImm]
  simp only [f]
  rfl

theorem wAndShi (c : Cond) (sf : Bool) (rn rd : Reg) (shamt : BitVec 5) (ty : ShiftType) (rm : Reg) : Statement (.wAndShi c sf rn rd shamt ty rm) := by
  intro _
  have f := dpShi_fields c 0#4 sf rn rd shamt ty rm
  show decodeWide (dpShiWord c 0#4 sf rn rd shamt ty rm) = _
  rw [decodeWide_dpShi c 0#4 sf rn rd shamt ty rm rfl, decodeDpShi]
  simp only [f]
  rfl

theorem wAndShr (c : Cond) (sf : Bool) (rn rd : Reg) (rs : Reg) (ty : ShiftType) (rm : Reg) : Statement (.wAndShr c sf rn rd rs ty rm) := by
  intro _
  have f := dpShr_fields c 0#4 sf rn rd rs ty rm
  show decodeWide (dpShrWord c 0#4 sf rn rd rs ty rm) = _
  rw [decodeWide_dpShr c 0#4 sf rn rd rs ty rm rfl, decodeDpShr]
  simp only [f]
  rfl

theorem wEorImm (c : Cond) (sf : Bool) (rn rd : Reg) (rot : BitVec 4) (imm8 : BitVec 8) : Statement (.wEorImm c sf rn rd rot imm8) := by
  intro _
  have f := dpImm_fields c 1#4 sf rn rd rot imm8
  show decodeWide (dpImmWord c 1#4 sf rn rd rot imm8) = _
  rw [decodeWide_dpImm c 1#4 sf rn rd rot imm8 rfl, decodeDpImm]
  simp only [f]
  rfl

theorem wEorShi (c : Cond) (sf : Bool) (rn rd : Reg) (shamt : BitVec 5) (ty : ShiftType) (rm : Reg) : Statement (.wEorShi c sf rn rd shamt ty rm) := by
  intro _
  have f := dpShi_fields c 1#4 sf rn rd shamt ty rm
  show decodeWide (dpShiWord c 1#4 sf rn rd shamt ty rm) = _
  rw [decodeWide_dpShi c 1#4 sf rn rd shamt ty rm rfl, decodeDpShi]
  simp only [f]
  rfl

theorem wEorShr (c : Cond) (sf : Bool) (rn rd : Reg) (rs : Reg) (ty : ShiftType) (rm : Reg) : Statement (.wEorShr c sf rn rd rs ty rm) := by
  intro _
  have f := dpShr_fields c 1#4 sf rn rd rs ty rm
  show decodeWide (dpShrWord c 1#4 sf rn rd rs ty rm) = _
  rw [decodeWide_dpShr c 1#4 sf rn rd rs ty rm rfl, decodeDpShr]
  simp only [f]
  rfl

theorem wSubImm (c : Cond) (sf : Bool) (rn rd : Reg) (rot : BitVec 4) (imm8 : BitVec 8) : Statement (.wSubImm c sf rn rd rot imm8) := by
  intro _
  have f := dpImm_fields c 2#4 sf rn rd rot imm8
  show decodeWide (dpImmWord c 2#4 sf rn rd rot imm8) = _
  rw [decodeWide_dpImm c 2#4 sf rn rd rot imm8 rfl, decodeDpImm]
  simp only [f]
  rfl

theorem wSubShi (c : Cond) (sf : Bool) (rn rd : Reg) (shamt : BitVec 5) (ty : ShiftType) (rm : Reg) : Statement (.wSubShi c sf rn rd shamt ty rm) := by
  intro _
  have f := dpShi_fields c 2#4 sf rn rd shamt ty rm
  show decodeWide (dpShiWord c 2#4 sf rn rd shamt ty rm) = _
  rw [decodeWide_dpShi c 2#4 sf rn rd shamt ty rm rfl, decodeDpShi]
  simp only [f]
  rfl

theorem wSubShr (c : Cond) (sf : Bool) (rn rd : Reg) (rs : Reg) (ty : ShiftType) (rm : Reg) : Statement (.wSubShr c sf rn rd rs ty rm) := by
  intro _
  have f := dpShr_fields c 2#4 sf rn rd rs ty rm
  show decodeWide (dpShrWord c 2#4 sf rn rd rs ty rm) = _
  rw [decodeWide_dpShr c 2#4 sf rn rd rs ty rm rfl, decodeDpShr]
  simp only [f]
  rfl

theorem wRsbImm (c : Cond) (sf : Bool) (rn rd : Reg) (rot : BitVec 4) (imm8 : BitVec 8) : Statement (.wRsbImm c sf rn rd rot imm8) := by
  intro _
  have f := dpImm_fields c 3#4 sf rn rd rot imm8
  show decodeWide (dpImmWord c 3#4 sf rn rd rot imm8) = _
  rw [decodeWide_dpImm c 3#4 sf rn rd rot imm8 rfl, decodeDpImm]
  simp only [f]
  rfl

theorem wRsbShi (c : Cond) (sf : Bool) (rn rd : Reg) (shamt : BitVec 5) (ty : ShiftType) (rm : Reg) : Statement (.wRsbShi c sf rn rd shamt ty rm) := by
  intro _
  have f := dpShi_fields c 3#4 sf rn rd shamt ty rm
  show decodeWide (dpShiWord c 3#4 sf rn rd shamt ty rm) = _
  rw [decodeWide_dpShi c 3#4 sf rn rd shamt ty rm rfl, decodeDpShi]
  simp only [f]
  rfl

theorem wRsbShr (c : Cond) (sf : Bool) (rn rd : Reg) (rs : Reg) (ty : ShiftType) (rm : Reg) : Statement (.wRsbShr c sf rn rd rs ty rm) := by
  intro _
  have f := dpShr_fields c 3#4 sf rn rd rs ty rm
  show decodeWide (dpShrWord c 3#4 sf rn rd rs ty rm) = _
  rw [decodeWide_dpShr c 3#4 sf rn rd rs ty rm rfl, decodeDpShr]
  simp only [f]
  rfl

theorem wAddImm (c : Cond) (sf : Bool) (rn rd : Reg) (rot : BitVec 4) (imm8 : BitVec 8) : Statement (.wAddImm c sf rn rd rot imm8) := by
  intro _
  have f := dpImm_fields c 4#4 sf rn rd rot imm8
  show decodeWide (dpImmWord c 4#4 sf rn rd rot imm8) = _
  rw [decodeWide_dpImm c 4#4 sf rn rd rot imm8 rfl, decodeDpImm]
  simp only [f]
  rfl

theorem wAddShi (c : Cond) (sf : Bool) (rn rd : Reg) (shamt : BitVec 5) (ty : ShiftType) (rm : Reg) : Statement (.wAddShi c sf rn rd shamt ty rm) := by
  intro _
  have f := dpShi_fields c 4#4 sf rn rd shamt ty rm
  show decodeWide (dpShiWord c 4#4 sf rn rd shamt ty rm) = _
  rw [decodeWide_dpShi c 4#4 sf rn rd shamt ty rm rfl, decodeDpShi]
  simp only [f]
  rfl

theorem wAddShr (c : Cond) (sf : Bool) (rn rd : Reg) (rs : Reg) (ty : ShiftType) (rm : Reg) : Statement (.wAddShr c sf rn rd rs ty rm) := by
  intro _
  have f := dpShr_fields c 4#4 sf rn rd rs ty rm
  show decodeWide (dpShrWord c 4#4 sf rn rd rs ty rm) = _
  rw [decodeWide_dpShr c 4#4 sf rn rd rs ty rm rfl, decodeDpShr]
  simp only [f]
  rfl

theorem wAdcImm (c : Cond) (sf : Bool) (rn rd : Reg) (rot : BitVec 4) (imm8 : BitVec 8) : Statement (.wAdcImm c sf rn rd rot imm8) := by
  intro _
  have f := dpImm_fields c 5#4 sf rn rd rot imm8
  show decodeWide (dpImmWord c 5#4 sf rn rd rot imm8) = _
  rw [decodeWide_dpImm c 5#4 sf rn rd rot imm8 rfl, decodeDpImm]
  simp only [f]
  rfl

theorem wAdcShi (c : Cond) (sf : Bool) (rn rd : Reg) (shamt : BitVec 5) (ty : ShiftType) (rm : Reg) : Statement (.wAdcShi c sf rn rd shamt ty rm) := by
  intro _
  have f := dpShi_fields c 5#4 sf rn rd shamt ty rm
  show decodeWide (dpShiWord c 5#4 sf rn rd shamt ty rm) = _
  rw [decodeWide_dpShi c 5#4 sf rn rd shamt ty rm rfl, decodeDpShi]
  simp only [f]
  rfl

theorem wAdcShr (c : Cond) (sf : Bool) (rn rd : Reg) (rs : Reg) (ty : ShiftType) (rm : Reg) : Statement (.wAdcShr c sf rn rd rs ty rm) := by
  intro _
  have f := dpShr_fields c 5#4 sf rn rd rs ty rm
  show decodeWide (dpShrWord c 5#4 sf rn rd rs ty rm) = _
  rw [decodeWide_dpShr c 5#4 sf rn rd rs ty rm rfl, decodeDpShr]
  simp only [f]
  rfl

theorem wSbcImm (c : Cond) (sf : Bool) (rn rd : Reg) (rot : BitVec 4) (imm8 : BitVec 8) : Statement (.wSbcImm c sf rn rd rot imm8) := by
  intro _
  have f := dpImm_fields c 6#4 sf rn rd rot imm8
  show decodeWide (dpImmWord c 6#4 sf rn rd rot imm8) = _
  rw [decodeWide_dpImm c 6#4 sf rn rd rot imm8 rfl, decodeDpImm]
  simp only [f]
  rfl

theorem wSbcShi (c : Cond) (sf : Bool) (rn rd : Reg) (shamt : BitVec 5) (ty : ShiftType) (rm : Reg) : Statement (.wSbcShi c sf rn rd shamt ty rm) := by
  intro _
  have f := dpShi_fields c 6#4 sf rn rd shamt ty rm
  show decodeWide (dpShiWord c 6#4 sf rn rd shamt ty rm) = _
  rw [decodeWide_dpShi c 6#4 sf rn rd shamt ty rm rfl, decodeDpShi]
  simp only [f]
  rfl

theorem wSbcShr (c : Cond) (sf : Bool) (rn rd : Reg) (rs : Reg) (ty : ShiftType) (rm : Reg) : Statement (.wSbcShr c sf rn rd rs ty rm) := by
  intro _
  have f := dpShr_fields c 6#4 sf rn rd rs ty rm
  show decodeWide (dpShrWord c 6#4 sf rn rd rs ty rm) = _
  rw [decodeWide_dpShr c 6#4 sf rn rd rs ty rm rfl, decodeDpShr]
  simp only [f]
  rfl

theorem wRscImm (c : Cond) (sf : Bool) (rn rd : Reg) (rot : BitVec 4) (imm8 : BitVec 8) : Statement (.wRscImm c sf rn rd rot imm8) := by
  intro _
  have f := dpImm_fields c 7#4 sf rn rd rot imm8
  show decodeWide (dpImmWord c 7#4 sf rn rd rot imm8) = _
  rw [decodeWide_dpImm c 7#4 sf rn rd rot imm8 rfl, decodeDpImm]
  simp only [f]
  rfl

theorem wRscShi (c : Cond) (sf : Bool) (rn rd : Reg) (shamt : BitVec 5) (ty : ShiftType) (rm : Reg) : Statement (.wRscShi c sf rn rd shamt ty rm) := by
  intro _
  have f := dpShi_fields c 7#4 sf rn rd shamt ty rm
  show decodeWide (dpShiWord c 7#4 sf rn rd shamt ty rm) = _
  rw [decodeWide_dpShi c 7#4 sf rn rd shamt ty rm rfl, decodeDpShi]
  simp only [f]
  rfl

theorem wRscShr (c : Cond) (sf : Bool) (rn rd : Reg) (rs : Reg) (ty : ShiftType) (rm : Reg) : Statement (.wRscShr c sf rn rd rs ty rm) := by
  intro _
  have f := dpShr_fields c 7#4 sf rn rd rs ty rm
  show decodeWide (dpShrWord c 7#4 sf rn rd rs ty rm) = _
  rw [decodeWide_dpShr c 7#4 sf rn rd rs ty rm rfl, decodeDpShr]
  simp only [f]
  rfl

theorem wTstImm (c : Cond) (rn : Reg) (rot : BitVec 4) (imm8 : BitVec 8) : Statement (.wTstImm c rn rot imm8) := by
  intro _
  have f := dpImm_fields c 8#4 true rn 0#4 rot imm8
  show decodeWide (dpImmWord c 8#4 true rn 0#4 rot imm8) = _
  rw [decodeWide_dpImm c 8#4 true rn 0#4 rot imm8 rfl, decodeDpImm]
  simp only [f]
  rfl

theorem wTstShi (c : Cond) (rn : Reg) (shamt : BitVec 5) (ty : ShiftType) (rm : Reg) : Statement (.wTstShi c rn shamt ty rm) := by
  intro _
  have f := dpShi_fields c 8#4 true rn 0#4 shamt ty rm
  show decodeWide (dpShiWord c 8#4 true rn 0#4 shamt ty rm) = _
  rw [decodeWide_dpShi c 8#4 true rn 0#4 shamt ty rm rfl, decodeDpShi]
  simp only [f]
  rfl

theorem wTstShr (c : Cond) (rn : Reg) (rs : Reg) (ty : ShiftType) (rm : Reg) : Statement (.wTstShr c rn rs ty rm) := by
  intro _
  have f := dpShr_fields c 8#4 true rn 0#4 rs ty rm
  show decodeWide (dpShrWord c 8#4 true rn 0#4 rs ty rm) = _
  rw [decodeWide_dpShr c 8#4 true rn 0#4 rs ty rm rfl, decodeDpShr]
  simp only [f]
  rfl

theorem wTeqImm (c : Cond) (rn : Reg) (rot : BitVec 4) (imm8 : BitVec 8) : Statement (.wTeqImm c rn rot imm8) := by
  intro _
  have f := dpImm_fields c 9#4 true rn 0#4 rot imm8
  show decodeWide (dpImmWord c 9#4 true rn 0#4 rot imm8) = _
  rw [decodeWide_dpImm c 9#4 true rn 0#4 rot imm8 rfl, decodeDpImm]
  simp only [f]
  rfl

theorem wTeqShi (c : Cond) (rn : Reg) (shamt : BitVec 5) (ty : ShiftType) (rm : Reg) : Statement (.wTeqShi c rn shamt ty rm) := by
  intro _
  have f := dpShi_fields c 9#4 true rn 0#4 shamt ty rm
  show decodeWide (dpShiWord c 9#4 true rn 0#4 shamt ty rm) = _
  rw [decodeWide_dpShi c 9#4 true rn 0#4 shamt ty rm rfl, decodeDpShi]
  simp only [f]
  rfl

theorem wTeqShr (c : Cond) (rn : Reg) (rs : Reg) (ty : ShiftType) (rm : Reg) : Statement (.wTeqShr c rn rs ty rm) := by
  intro _
  have f := dpShr_fields c 9#4 true rn 0#4 rs ty rm
  show decodeWide (dpShrWord c 9#4 true rn 0#4 rs ty rm) = _
  rw [decodeWide_dpShr c 9#4 true rn 0#4 rs ty rm rfl, decodeDpShr]
  simp only [f]
  rfl

theorem wCmpImm (c : Cond) (rn : Reg) (rot : BitVec 4) (imm8 : BitVec 8) : Statement (.wCmpImm c rn rot imm8) := by
  intro _
  have f := dpImm_fields c 10#4 true rn 0#4 rot imm8
  show decodeWide (dpImmWord c 10#4 true rn 0#4 rot imm8) = _
  rw [decodeWide_dpImm c 10#4 true rn 0#4 rot imm8 rfl, decodeDpImm]
  simp only [f]
  rfl

theorem wCmpShi (c : Cond) (rn : Reg) (shamt : BitVec 5) (ty : ShiftType) (rm : Reg) : Statement (.wCmpShi c rn shamt ty rm) := by
  intro _
  have f := dpShi_fields c 10#4 true rn 0#4 shamt ty rm
  show decodeWide (dpShiWord c 10#4 true rn 0#4 shamt ty rm) = _
  rw [decodeWide_dpShi c 10#4 true rn 0#4 shamt ty rm rfl, decodeDpShi]
  simp only [f]
  rfl

theorem wCmpShr (c : Cond) (rn : Reg) (rs : Reg) (ty : ShiftType) (rm : Reg) : Statement (.wCmpShr c rn rs ty rm) := by
  intro _
  have f := dpShr_fields c 10#4 true rn 0#4 rs ty rm
  show decodeWide (dpShrWord c 10#4 true rn 0#4 rs ty rm) = _
  rw [decodeWide_dpShr c 10#4 true rn 0#4 rs ty rm rfl, decodeDpShr]
  simp only [f]
  rfl

theorem wCmnImm (c : Cond) (rn : Reg) (rot : BitVec 4) (imm8 : BitVec 8) : Statement (.wCmnImm c rn rot imm8) := by
  intro _
  have f := dpImm_fields c 11#4 true rn 0#4 rot imm8
  show decodeWide (dpImmWord c 11#4 true rn 0#4 rot imm8) = _
  rw [decodeWide_dpImm c 11#4 true rn 0#4 rot imm8 rfl, decodeDpImm]
  simp only [f]
  rfl

theorem wCmnShi (c : Cond) (rn : Reg) (shamt : BitVec 5) (ty : ShiftType) (rm : Reg) : Statement (.wCmnShi c rn shamt ty rm) := by
  intro _
  have f := dpShi_fields c 11#4 true rn 0#4 shamt ty rm
  show decodeWide (dpShiWord c 11#4 true rn 0#4 shamt ty rm) = _
  rw [decodeWide_dpShi c 11#4 true rn 0#4 shamt ty rm rfl, decodeDpShi]
  simp only [f]
  rfl

theorem wCmnShr (c : Cond) (rn : Reg) (rs : Reg) (ty : ShiftType) (rm : Reg) : Statement (.wCmnShr c rn rs ty rm) := by
  intro _
  have f := dpShr_fields c 11#4 true rn 0#4 rs ty rm
  show decodeWide (dpShrWord c 11#4 true rn 0#4 rs ty rm) = _
  rw [decodeWide_dpShr c 11#4 true rn 0#4 rs ty rm rfl, decodeDpShr]
  simp only [f]
  rfl

theorem wOrrImm (c : Cond) (sf : Bool) (rn rd : Reg) (rot : BitVec 4) (imm8 : BitVec 8) : Statement (.wOrrImm c sf rn rd rot imm8) := by
  intro _
  have f := dpImm_fields c 12#4 sf rn rd rot imm8
  show decodeWide (dpImmWord c 12#4 sf rn rd rot imm8) = _
  rw [decodeWide_dpImm c 12#4 sf rn rd rot imm8 rfl, decodeDpImm]
  simp only [f]
  rfl

theorem wOrrShi (c : Cond) (sf : Bool) (rn rd : Reg) (shamt : BitVec 5) (ty : ShiftType) (rm : Reg) : Statement (.wOrrShi c sf rn rd shamt ty rm) := by
  intro _
  have f := dpShi_fields c 12#4 sf rn rd shamt ty rm
  show decodeWide (dpShiWord c 12#4 sf rn rd shamt ty rm) = _
  rw [decodeWide_dpShi c 12#4 sf rn rd shamt ty rm rfl, decodeDpShi]
  simp only [f]
  rfl

theorem wOrrShr (c : Cond) (sf : Bool) (rn rd : Reg) (rs : Reg) (ty : ShiftType) (rm : Reg) : Statement (.wOrrShr c sf rn rd rs ty rm) := by
  intro _
  have f := dpShr_fields c 12#4 sf rn rd rs ty rm
  show decodeWide (dpShrWord c 12#4 sf rn rd rs ty rm) = _
  rw [decodeWide_dpShr c 12#4 sf rn rd rs ty rm rfl, decodeDpShr]
  simp only [f]
  rfl

theorem wMovImm (c : Cond) (sf : Bool) (rd : Reg) (rot : BitVec 4) (imm8 : BitVec 8) : Statement (.wMovImm c sf rd rot imm8) := by
  intro _
  have f := dpImm_fields c 13#4 sf 0#4 rd rot imm8
  show decodeWide (dpImmWord c 13#4 sf 0#4 rd rot imm8) = _
  rw [decodeWide_dpImm c 13#4 sf 0#4 rd rot imm8 rfl, decodeDpImm]
  simp only [f]
  rfl

theorem wMovShi (c : Cond) (sf : Bool) (rd : Reg) (shamt : BitVec 5) (ty : ShiftType) (rm : Reg) : Statement (.wMovShi c sf rd shamt ty rm) := by
  intro _
  have f := dpShi_fields c 13#4 sf 0#4 rd shamt ty rm
  show decodeWide (dpShiWord c 13#4 sf 0#4 rd shamt ty rm) = _
  rw [decodeWide_dpShi c 13#4 sf 0#4 rd shamt ty rm rfl, decodeDpShi]
  simp only [f]
  rfl

theorem wMovShr (c : Cond) (sf : Bool) (rd : Reg) (rs : Reg) (ty : ShiftType) (rm : Reg) : Statement (.wMovShr c sf rd rs ty rm) := by
  intro _
  have f := dpShr_fields c 13#4 sf 0#4 rd rs ty rm
  show decodeWide (dpShrWord c 13#4 sf 0#4 rd rs ty rm) = _
  rw [decodeWide_dpShr c 13#4 sf 0#4 rd rs ty rm rfl, decodeDpShr]
  simp only [f]
  rfl

theorem wBicImm (c : Cond) (sf : Bool) (rn rd : Reg) (rot : BitVec 4) (imm8 : BitVec 8) : Statement (.wBicImm c sf rn rd rot imm8) := by
  intro _
  have f := dpImm_fields c 14#4 sf rn rd rot imm8
  show decodeWide (dpImmWord c 14#4 sf rn rd rot imm8) = _
  rw [decodeWide_dpImm c 14#4 sf rn rd rot imm8 rfl, decodeDpImm]
  simp only [f]
  rfl

theorem wBicShi (c : Cond) (sf : Bool) (rn rd : Reg) (shamt : BitVec 5) (ty : ShiftType) (rm : Reg) : Statement (.wBicShi c sf rn rd shamt ty rm) := by
  intro _
  have f := dpShi_fields c 14#4 sf rn rd shamt ty rm
  show decodeWide (dpShiWord c 14#4 sf rn rd shamt ty rm) = _
  rw [decodeWide_dpShi c 14#4 sf rn rd shamt ty rm rfl, decodeDpShi]
  simp only [f]
  rfl

theorem wBicShr (c : Cond) (sf : Bool) (rn rd : Reg) (rs : Reg) (ty : ShiftType) (rm : Reg) : Statement (.wBicShr c sf rn rd rs ty rm) := by
  intro _
  have f := dpShr_fields c 14#4 sf rn rd rs ty rm
  show decodeWide (dpShrWord c 14#4 sf rn rd rs ty rm) = _
  rw [decodeWide_dpShr c 14#4 sf rn rd rs ty rm rfl, decodeDpShr]
  simp only [f]
  rfl

theorem wMvnImm (c : Cond) (sf : Bool) (rd : Reg) (rot : BitVec 4) (imm8 : BitVec 8) : Statement (.wMvnImm c sf rd rot imm8) := by
  intro _
  have f := dpImm_fields c 15#4 sf 0#4 rd rot imm8
  show decodeWide (dpImmWord c 15#4 sf 0#4 rd rot imm8) = _
  rw [decodeWide_dpImm c 15#4 sf 0#4 rd rot imm8 rfl, decodeDpImm]
  simp only [f]
  rfl

theorem wMvnShi (c : Cond) (sf : Bool) (rd : Reg) (shamt : BitVec 5) (ty : ShiftType) (rm : Reg) : Statement (.wMvnShi c sf rd shamt ty rm) := by
  intro _
  have f := dpShi_fields c 15#4 sf 0#4 rd shamt ty rm
  show decodeWide (dpShiWord c 15#4 sf 0#4 rd shamt ty rm) = _
  rw [decodeWide_dpShi c 15#4 sf 0#4 rd shamt ty rm rfl, decodeDpShi]
  simp only [f]
  rfl

theorem wMvnShr (c : Cond) (sf : Bool) (rd : Reg) (rs : Reg) (ty : ShiftType) (rm : Reg) : Statement (.wMvnShr c sf rd rs ty rm) := by
  intro _
  have f := dpShr_fields c 15#4 sf 0#4 rd rs ty rm
  show decodeWide (dpShrWord c 15#4 sf 0#4 rd rs ty rm) = _
  rw [decodeWide_dpShr c 15#4 sf 0#4 rd rs ty rm rfl, decodeDpShr]
  simp only [f]
  rfl

theorem wB (c : Cond) (imm24 : BitVec 24) : Statement (.wB c imm24) := by
  intro _
  exact decodeWide_branch c false imm24

theorem wBl (c : Cond) (imm24 : BitVec 24) : Statement (.wBl c imm24) := by
  intro _
  exact decodeWide_branch c true imm24

theorem wBx (c : Cond) (rm : Reg) : Statement (.wBx c rm) := by
  intro _
  exact decodeWide_bx c rm

theorem wSwi (c : Cond) (comment24 : BitVec 24) : Statement (.wSwi c comment24) := by
  intro _
  exact decodeWide_swi c comment24

theorem wLdrImm (c : Cond) (p u w : Bool) (rn rd : Reg) (imm12 : BitVec 12) : Statement (.wLdrImm c p u w rn rd imm12) := by
  intro _
  have f := sdtImm_fields c p u false w true rn rd imm12
  show decodeWide (sdtImmWord c p u false w true rn rd imm12) = _
  rw [decodeWide_sdtImm c p u false w true rn rd imm12, decodeSdtImm]
  simp only [f]

theorem wLdrReg (c : Cond) (p u w : Bool) (rn rd : Reg) (shamt : BitVec 5) (ty : ShiftType) (rm : Reg) : Statement (.wLdrReg c p u w rn rd shamt ty rm) := by
  intro _
  have f := sdtReg_fields c p u false w true rn rd shamt ty rm
  show decodeWide (sdtRegWord c p u false w true rn rd shamt ty rm) = _
  rw [decodeWide_sdtReg c p u false w true rn rd shamt ty rm, decodeSdtReg]
  simp only [f]

theorem wStrImm (c : Cond) (p u w : Bool) (rn rd : Reg) (imm12 : BitVec 12) : Statement (.wStrImm c p u w rn rd imm12) := by
  intro _
  have f := sdtImm_fields c p u false w false rn rd imm12
  show decodeWide (sdtImmWord c p u false w false rn rd imm12) = _
  rw [decodeWide_sdtImm c p u false w false rn rd imm12, decodeSdtImm]
  simp only [f]

theorem wStrReg (c : Cond) (p u w : Bool) (rn rd : Reg) (shamt : BitVec 5) (ty : ShiftType) (rm : Reg) : Statement (.wStrReg c p u w rn rd shamt ty rm) := by
  intro _
  have f := sdtReg_fields c p u false w false rn rd shamt ty rm
  show decodeWide (sdtRegWord c p u false w false rn rd shamt ty rm) = _
  rw [decodeWide_sdtReg c p u false w false rn rd shamt ty rm, decodeSdtReg]
  simp only [f]

theorem wLdrbImm (c : Cond) (p u w : Bool) (rn rd : Reg) (imm12 : BitVec 12) : Statement (.wLdrbImm c p u w rn rd imm12) := by
  intro _
  have f := sdtImm_fields c p u true w true rn rd imm12
  show decodeWide (sdtImmWord c p u true w true rn rd imm12) = _
  rw [decodeWide_sdtImm c p u true w true rn rd imm12, decodeSdtImm]
  simp only [f]

theorem wLdrbReg (c : Cond) (p u w : Bool) (rn rd : Reg) (shamt : BitVec 5) (ty : ShiftType) (rm : Reg) : Statement (.wLdrbReg c p u w rn rd shamt ty rm) := by
  intro _
  have f := sdtReg_fields c p u true w true rn rd shamt ty rm
  show decodeWide (sdtRegWord c p u true w true rn rd shamt ty rm) = _
  rw [decodeWide_sdtReg c p u true w true rn rd shamt ty rm, decodeSdtReg]
  simp only [f]

theorem wStrbImm (c : Cond) (p u w : Bool) (rn rd : Reg) (imm12 : BitVec 12) : Statement (.wStrbImm c p u w rn rd imm12) := by
  intro _
  have f := sdtImm_fields c p u true w false rn rd imm12
  show decodeWide (sdtImmWord c p u true w false rn rd imm12) = _
  rw [decodeWide_sdtImm c p u true w false rn rd imm12, decodeSdtImm]
  simp only [f]

theorem wStrbReg (c : Cond) (p u w : Bool) (rn rd : Reg) (shamt : BitVec 5) (ty : ShiftType) (rm : Reg) : Statement (.wStrbReg c p u w rn rd shamt ty rm) := by
  intro _
  have f := sdtReg_fields c p u true w false rn rd shamt ty rm
  show decodeWide (sdtRegWord c p u true w false rn rd shamt ty rm) = _
  rw [decodeWide_sdtReg c p u true w false rn rd shamt ty rm, decodeSdtReg]
  simp only [f]

theorem nLslImm (imm5 : BitVec 5) (rs rd : Reg) : Statement (.nLslImm imm5 rs rd) := by
  intro h
  simp only [Instr.wellFormed, Bool.and_eq_true] at h
  have f := n1_fields 0#2 imm5 rs rd
  show decodeNarrow (n1Half 0#2 imm5 rs rd) = _
  simp only [decodeNarrow, decodeN1N2, low3, low0, Reg.ofLow_low, h, f]
  rfl

theorem nLsrImm (imm5 : BitVec 5) (rs rd : Reg) : Statement (.nLsrImm imm5 rs rd) := by
  intro h
  simp only [Instr.wellFormed, Bool.and_eq_true] at h
  have f := n1_fields 1#2 imm5 rs rd
  show decodeNarrow (n1Half 1#2 imm5 rs rd) = _
  simp only [decodeNarrow, decodeN1N2, low3, low0, Reg.ofLow_low, h, f]
  rfl

theorem nAsrImm (imm5 : BitVec 5) (rs rd : Reg) : Statement (.nAsrImm imm5 rs rd) := by
  intro h
  simp only [Instr.wellFormed, Bool.and_eq_true] at h
  have f := n1_fields 2#2 imm5 rs rd
  show decodeNarrow (n1Half 2#2 imm5 rs rd) = _
  simp only [decodeNarrow, decodeN1N2, low3, low0, Reg.ofLow_low, h, f]
  rfl

theorem nAddReg (rn rs rd : Reg) : Statement (.nAddReg rn rs rd) := by
  intro h
  simp only [Instr.wellFormed, Bool.and_eq_true] at h
  have f := n2_fields 0#1 0#1 rn.low rs rd
  show decodeNarrow (n2Half 0#1 0#1 rn.low rs rd) = _
  simp only [decodeNarrow, decodeN1N2, low3, low0, low6, Reg.ofLow_low, h, f]
  rfl

theorem nSubReg (rn rs rd : Reg) : Statement (.nSubReg rn rs rd) := by
  intro h
  simp only [Instr.wellFormed, Bool.and_eq_true] at h
  have f := n2_fields 0#1 1#1 rn.low rs rd
  show decodeNarrow (n2Half 0#1 1#1 rn.low rs rd) = _
  simp only [decodeNarrow, decodeN1N2, low3, low0, low6, Reg.ofLow_low, h, f]
  rfl

theorem nAddImm3 (imm3 : BitVec 3) (rs rd : Reg) : Statement (.nAddImm3 imm3 rs rd) := by
  intro h
  simp only [Instr.wellFormed, Bool.and_eq_true] at h
  have f := n2_fields 1#1 0#1 imm3 rs rd
  show decodeNarrow (n2Half 1#1 0#1 imm3 rs rd) = _
  simp only [decodeNarrow, decodeN1N2, low3, low0, low6, Reg.ofLow_low, h, f]
  rfl

theorem nSubImm3 (imm3 : BitVec 3) (rs rd : Reg) : Statement (.nSubImm3 imm3 rs rd) := by
  intro h
  simp only [Instr.wellFormed, Bool.and_eq_true] at h
  have f := n2_fields 1#1 1#1 imm3 rs rd
  show decodeNarrow (n2Half 1#1 1#1 imm3 rs rd) = _
  simp only [decodeNarrow, decodeN1N2, low3, low0, low6, Reg.ofLow_low, h, f]
  rfl

theorem nMovImm8 (rd : Reg) (imm8 : BitVec 8) : Statement (.nMovImm8 rd imm8) := by
  intro (h0 : Reg.isLow rd = true)
  have f := n3_fields 0#2 rd imm8
  show decodeNarrow (n3Half 0#2 rd imm8) = _
  simp only [decodeNarrow, decodeN3, low8, Reg.ofLow_low, h0, f]
  rfl

theorem nCmpImm8 (rd : Reg) (imm8 : BitVec 8) : Statement (.nCmpImm8 rd imm8) := by
  intro (h0 : Reg.isLow rd = true)
  have f := n3_fields 1#2 rd imm8
  show decodeNarrow (n3Half 1#2 rd imm8) = _
  simp only [decodeNarrow, decodeN3, low8, Reg.ofLow_low, h0, f]
  rfl

theorem nAddImm8 (rd : Reg) (imm8 : BitVec 8) : Statement (.nAddImm8 rd imm8) := by
  intro (h0 : Reg.isLow rd = true)
  have f := n3_fields 2#2 rd imm8
  show decodeNarrow (n3Half 2#2 rd imm8) = _
  simp only [decodeNarrow, decodeN3, low8, Reg.ofLow_low, h0, f]
  rfl

theorem nSubImm8 (rd : Reg) (imm8 : BitVec 8) : Statement (.nSubImm8 rd imm8) := by
  intro (h0 : Reg.isLow rd = true)
  have f := n3_fields 3#2 rd imm8
  show decodeNarrow (n3Half 3#2 rd imm8) = _
  simp only [decodeNarrow, decodeN3, low8, Reg.ofLow_low, h0, f]
  rfl

theorem nAnd (rs rd : Reg) : Statement (.nAnd rs rd) := by
  intro h
  simp only [Instr.wellFormed, Bool.and_eq_true] at h
  have f := n4_fields 0#4 rs rd
  show decodeNarrow (n4Half 0#4 rs rd) = _
  simp only [decodeNarrow, decodeN4, low3, low0, Reg.ofLow_low, h, f]
  rfl

theorem nEor (rs rd : Reg) : Statement (.nEor rs rd) := by
  intro h
  simp only [Instr.wellFormed, Bool.and_eq_true] at h
  have f := n4_fields 1#4 rs rd
  show decodeNarrow (n4Half 1#4 rs rd) = _
  simp only [decodeNarrow, decodeN4, low3, low0, Reg.ofLow_low, h, f]
  rfl

theorem nLslReg (rs rd : Reg) : Statement (.nLslReg rs rd) := by
  intro h
  simp only [Instr.wellFormed, Bool.and_eq_true] at h
  have f := n4_fields 2#4 rs rd
  show decodeNarrow (n4Half 2#4 rs rd) = _
  simp only [decodeNarrow, decodeN4, low3, low0, Reg.ofLow_low, h, f]
  rfl

theorem nLsrReg (rs rd : Reg) : Statement (.nLsrReg rs rd) := by
  intro h
  simp only [Instr.wellFormed, Bool.and_eq_true] at h
  have f := n4_fields 3#4 rs rd
  show decodeNarrow (n4Half 3#4 rs rd) = _
  simp only [decodeNarrow, decodeN4, low3, low0, Reg.ofLow_low, h, f]
  rfl

theorem nAsrReg (rs rd : Reg) : Statement (.nAsrReg rs rd) := by
  intro h
  simp only [Instr.wellFormed, Bool.and_eq_true] at h
  have f := n4_fields 4#4 rs rd
  show decodeNarrow (n4Half 4#4 rs rd) = _
  simp only [decodeNarrow, decodeN4, low3, low0, Reg.ofLow_low, h, f]
  rfl

theorem nAdc (rs rd : Reg) : Statement (.nAdc rs rd) := by
  intro h
  simp only [Instr.wellFormed, Bool.and_eq_true] at h
  have f := n4_fields 5#4 rs rd
  show decodeNarrow (n4Half 5#4 rs rd) = _
  simp only [decodeNarrow, decodeN4, low3, low0, Reg.ofLow_low, h, f]
  rfl

theorem nSbc (rs rd : Reg) : Statement (.nSbc rs rd) := by
  intro h
  simp only [Instr.wellFormed, Bool.and_eq_true] at h
  have f := n4_fields 6#4 rs rd
  show decodeNarrow (n4Half 6#4 rs rd) = _
  simp only [decodeNarrow, decodeN4, low3, low0, Reg.ofLow_low, h, f]
  rfl

theorem nRorReg (rs rd : Reg) : Statement (.nRorReg rs rd) := by
  intro h
  simp only [Instr.wellFormed, Bool.and_eq_true] at h
  have f := n4_fields 7#4 rs rd
  show decodeNarrow (n4Half 7#4 rs rd) = _
  simp only [decodeNarrow, decodeN4, low3, low0, Reg.ofLow_low, h, f]
  rfl

theorem nTst (rs rd : Reg) : Statement (.nTst rs rd) := by
  intro h
  simp only [Instr.wellFormed, Bool.and_eq_true] at h
  have f := n4_fields 8#4 rs rd
  show decodeNarrow (n4Half 8#4 rs rd) = _
  simp only [decodeNarrow, decodeN4, low3, low0, Reg.ofLow_low, h, f]
  rfl

theorem nNeg (rs rd : Reg) : Statement (.nNeg rs rd) := by
  intro h
  simp only [Instr.wellFormed, Bool.and_eq_true] at h
  have f := n4_fields 9#4 rs rd
  show decodeNarrow (n4Half 9#4 rs rd) = _
  simp only [decodeNarrow, decodeN4, low3, low0, Reg.ofLow_low, h, f]
  rfl

theorem nCmpReg (rs rd : Reg) : Statement (.nCmpReg rs rd) := by
  intro h
  simp only [Instr.wellFormed, Bool.and_eq_true] at h
  have f := n4_fields 10#4 rs rd
  show decodeNarrow (n4Half 10#4 rs rd) = _
  simp only [decodeNarrow, decodeN4, low3, low0, Reg.ofLow_low, h, f]
  rfl

theorem nCmn (rs rd : Reg) : Statement (.nCmn rs rd) := by
  intro h
  simp only [Instr.wellFormed, Bool.and_eq_true] at h
  have f := n4_fields 11#4 rs rd
  show decodeNarrow (n4Half 11#4 rs rd) = _
  simp only [decodeNarrow, decodeN4, low3, low0, Reg.ofLow_low, h, f]
  rfl

theorem nOrr (rs rd : Reg) : Statement (.nOrr rs rd) := by
  intro h
  simp only [Instr.wellFormed, Bool.and_eq_true] at h
  have f := n4_fields 12#4 rs rd
  show decodeNarrow (n4Half 12#4 rs rd) = _
  simp only [decodeNarrow, decodeN4, low3, low0, Reg.ofLow_low, h, f]
  rfl

theorem nBic (rs rd : Reg) : Statement (.nBic rs rd) := by
  intro h
  simp only [Instr.wellFormed, Bool.and_eq_true] at h
  have f := n4_fields 14#4 rs rd
  show decodeNarrow (n4Half 14#4 rs rd) = _
  simp only [decodeNarrow, decodeN4, low3, low0, Reg.ofLow_low, h, f]
  rfl

theorem nMvn (rs rd : Reg) : Statement (.nMvn rs rd) := by
  intro h
  simp only [Instr.wellFormed, Bool.and_eq_true] at h
  have f := n4_fields 15#4 rs rd
  show decodeNarrow (n4Half 15#4 rs rd) = _
  simp only [decodeNarrow, decodeN4, low3, low0, Reg.ofLow_low, h, f]
  rfl

theorem nAddHigh (rs rd : Reg) : Statement (.nAddHigh rs rd) := by
  intro _
  have f := n5_fields 0#2 rs rd
  show decodeNarrow (n5Half 0#2 rs rd) = _
  simp only [decodeNarrow, decodeN5, highRs, highRd, Reg.high_low, f]
  rfl

theorem nCmpHigh (rs rd : Reg) : Statement (.nCmpHigh rs rd) := by
  intro _
  have f := n5_fields 1#2 rs rd
  show decodeNarrow (n5Half 1#2 rs rd) = _
  simp only [decodeNarrow, decodeN5, highRs, highRd, Reg.high_low, f]
  rfl

theorem nMovHigh (rs rd : Reg) : Statement (.nMovHigh rs rd) := by
  intro _
  have f := n5_fields 2#2 rs rd
  show decodeNarrow (n5Half 2#2 rs rd) = _
  simp only [decodeNarrow, decodeN5, highRs, highRd, Reg.high_low, f]
  rfl

theorem nBx (rs : Reg) : Statement (.nBx rs) := by
  intro _
  have f := n5_fields 3#2 rs 0#4
  show decodeNarrow (n5Half 3#2 rs 0#4) = _
  simp only [decodeNarrow, decodeN5, highRs, highRd, Reg.high_low, f]
  rfl

theorem nLdrPc (rd : Reg) (imm8 : BitVec 8) : Statement (.nLdrPc rd imm8) := by
  intro (h0 : Reg.isLow rd = true)
  have f := n6_fields rd imm8
  show decodeNarrow (n6Half rd imm8) = _
  simp only [decodeNarrow, low8, Reg.ofLow_low, h0, f]
  rfl

theorem nStrImm (imm5 : BitVec 5) (rb rd : Reg) : Statement (.nStrImm imm5 rb rd) := by
  intro h
  simp only [Instr.wellFormed, Bool.and_eq_true] at h
  have f := n9_fields 0#1 0#1 imm5 rb rd
  show decodeNarrow (n9Half 0#1 0#1 imm5 rb rd) = _
  simp only [decodeNarrow, decodeN9, low3, low0, Reg.ofLow_low, h, f]
  rfl

theorem nLdrImm (imm5 : BitVec 5) (rb rd : Reg) : Statement (.nLdrImm imm5 rb rd) := by
  intro h
  simp only [Instr.wellFormed, Bool.and_eq_true] at h
  have f := n9_fields 0#1 1#1 imm5 rb rd
  show decodeNarrow (n9Half 0#1 1#1 imm5 rb rd) = _
  simp only [decodeNarrow, decodeN9, low3, low0, Reg.ofLow_low, h, f]
  rfl

theorem nStrbImm (imm5 : BitVec 5) (rb rd : Reg) : Statement (.nStrbImm imm5 rb rd) := by
  intro h
  simp only [Instr.wellFormed, Bool.and_eq_true] at h
  have f := n9_fields 1#1 0#1 imm5 rb rd
  show decodeNarrow (n9Half 1#1 0#1 imm5 rb rd) = _
  simp only [decodeNarrow, decodeN9, low3, low0, Reg.ofLow_low, h, f]
  rfl

theorem nLdrbImm (imm5 : BitVec 5) (rb rd : Reg) : Statement (.nLdrbImm imm5 rb rd) := by
  intro h
  simp only [Instr.wellFormed, Bool.and_eq_true] at h
  have f := n9_fields 1#1 1#1 imm5 rb rd
  show decodeNarrow (n9Half 1#1 1#1 imm5 rb rd) = _
  simp only [decodeNarrow, decodeN9, low3, low0, Reg.ofLow_low, h, f]
  rfl

theorem nBeq (soff8 : BitVec 8) : Statement (.nBeq soff8) := by
  intro _
  have f := n16_fields 0#4 soff8
  show decodeNarrow (n16Half 0#4 soff8) = _
  simp only [decodeNarrow, decodeN16N17, f]
  rfl

theorem nBne (soff8 : BitVec 8) : Statement (.nBne soff8) := by
  intro _
  have f := n16_fields 1#4 soff8
  show decodeNarrow (n16Half 1#4 soff8) = _
  simp only [decodeNarrow, decodeN16N17, f]
  rfl

theorem nBcs (soff8 : BitVec 8) : Statement (.nBcs soff8) := by
  intro _
  have f := n16_fields 2#4 soff8
  show decodeNarrow (n16Half 2#4 soff8) = _
  simp only [decodeNarrow, decodeN16N17, f]
  rfl

theorem nBcc (soff8 : BitVec 8) : Statement (.nBcc soff8) := by
  intro _
  have f := n16_fields 3#4 soff8
  show decodeNarrow (n16Half 3#4 soff8) = _
  simp only [decodeNarrow, decodeN16N17, f]
  rfl

theorem nBmi (soff8 : BitVec 8) : Statement (.nBmi soff8) := by
  intro _
  have f := n16_fields 4#4 soff8
  show decodeNarrow (n16Half 4#4 soff8) = _
  simp only [decodeNarrow, decodeN16N17, f]
  rfl

theorem nBpl (soff8 : BitVec 8) : Statement (.nBpl soff8) := by
  intro _
  have f := n16_fields 5#4 soff8
  show decodeNarrow (n16Half 5#4 soff8) = _
  simp only [decodeNarrow, decodeN16N17, f]
  rfl

theorem nBvs (soff8 : BitVec 8) : Statement (.nBvs soff8) := by
  intro _
  have f := n16_fields 6#4 soff8
  show decodeNarrow (n16Half 6#4 soff8) = _
  simp only [decodeNarrow, decodeN16N17, f]
  rfl

theorem nBvc (soff8 : BitVec 8) : Statement (.nBvc soff8) := by
  intro _
  have f := n16_fields 7#4 soff8
  show decodeNarrow (n16Half 7#4 soff8) = _
  simp only [decodeNarrow, decodeN16N17, f]
  rfl

theorem nBhi (soff8 : BitVec 8) : Statement (.nBhi soff8) := by
  intro _
  have f := n16_fields 8#4 soff8
  show decodeNarrow (n16Half 8#4 soff8) = _
  simp only [decodeNarrow, decodeN16N17, f]
  rfl

theorem nBls (soff8 : BitVec 8) : Statement (.nBls soff8) := by
  intro _
  have f := n16_fields 9#4 soff8
  show decodeNarrow (n16Half 9#4 soff8) = _
  simp only [decodeNarrow, decodeN16N17, f]
  rfl

theorem nBge (soff8 : BitVec 8) : Statement (.nBge soff8) := by
  intro _
  have f := n16_fields 10#4 soff8
  show decodeNarrow (n16Half 10#4 soff8) = _
  simp only [decodeNarrow, decodeN16N17, f]
  rfl

theorem nBlt (soff8 : BitVec 8) : Statement (.nBlt soff8) := by
  intro _
  have f := n16_fields 11#4 soff8
  show decodeNarrow (n16Half 11#4 soff8) = _
  simp only [decodeNarrow, decodeN16N17, f]
  rfl

theorem nBgt (soff8 : BitVec 8) : Statement (.nBgt soff8) := by
  intro _
  have f := n16_fields 12#4 soff8
  show decodeNarrow (n16Half 12#4 soff8) = _
  simp only [decodeNarrow, decodeN16N17, f]
  rfl

theorem nBle (soff8 : BitVec 8) : Statement (.nBle soff8) := by
  intro _
  have f := n16_fields 13#4 soff8
  show decodeNarrow (n16Half 13#4 soff8) = _
  simp only [decodeNarrow, decodeN16N17, f]
  rfl

theorem nSwi (comment8 : BitVec 8) : Statement (.nSwi comment8) := by
  intro _
  have f := n16_fields 15#4 comment8
  show decodeNarrow (n16Half 15#4 comment8) = _
  simp only [decodeNarrow, decodeN16N17, f]
  rfl

theorem nB (off11 : BitVec 11) : Statement (.nB off11) := by
  intro _
  have f := n18_fields 0b11100#5 off11
  show decodeNarrow (n18Half 0b11100#5 off11) = _
  simp only [decodeNarrow, decodeN18N19, f]
  rfl

theorem nBlPrefix (off11 : BitVec 11) : Statement (.nBlPrefix off11) := by
  intro _
  have f := n18_fields 0b11110#5 off11
  show decodeNarrow (n18Half 0b11110#5 off11) = _
  simp only [decodeNarrow, decodeN18N19, f]
  rfl

theorem nBlSuffix (off11 : BitVec 11) : Statement (.nBlSuffix off11) := by
  intro _
  have f := n18_fields 0b11111#5 off11
  show decodeNarrow (n18Half 0b11111#5 off11) = _
  simp only [decodeNarrow, decodeN18N19, f]
  rfl

end Sys2Proof.Laws.EncodingRoundTrip
end

