-- ==== Sys2Proof/Laws/Ports.lean ====
section
/-! SUPPORT. The laws of the host's operations: the button mask, the bulk loads, the mode field (49_input_latch_and_host.md R341,
R348 to R350, R357; 20_memory.md R102). -/

namespace Sys2Proof.Machine

theorem getLsbD_pressButton (k : Nat) (p : Bool) (b : BitVec 16) (j : Nat) (hk : k < 16) :
    (pressButton k p b).getLsbD j = if j = k then p else b.getLsbD j := by
  unfold pressButton
  by_cases hj : j < 16
  · by_cases h : j = k
    · subst h
      cases p <;> simp [hj]
    · have e : (1#16 <<< k).getLsbD j = false := by
        by_cases h2 : j < k
        · simp [hj, h2]
        · have : ¬ j - k = 0 := by omega
          simp [hj, h2, this]
      cases p
      · rw [if_neg (by decide), BitVec.getLsbD_and, BitVec.getLsbD_not, e, if_neg h]
        simp [hj]
      · rw [if_pos rfl, BitVec.getLsbD_or, e, if_neg h]
        simp
  · have h : ¬ j = k := by omega
    rw [if_neg h, BitVec.getLsbD_of_ge _ _ (by omega), BitVec.getLsbD_of_ge _ _ (by omega)]

/-- KEYINPUT reads as the inverted mask after the mirror. -/
theorem keyinput_mirrorButtons (b : BitVec 16) (m : Memory) :
    (mirrorButtons b m).get 0x04000131 ++ (mirrorButtons b m).get 0x04000130 = 0xFFFF#16 ^^^ b := by
  rw [get_mirrorButtons, get_mirrorButtons, if_pos rfl, if_neg (by decide), if_pos rfl]
  generalize 0xFFFF#16 ^^^ b = k
  apply BitVec.eq_of_getLsbD_eq
  intro i hi
  rw [BitVec.getLsbD_append]
  by_cases h : i < 8
  · simp [h, hi]
  · have h2 : i - 8 < 8 := by omega
    have e : 8 + (i - 8) = i := by omega
    simp [h, h2, e]

/-- A bulk load writes its bytes at rising addresses and no other byte. -/
theorem get_loadBytes (bs : List Byte) (m : Memory) (a b : Nat) :
    (m.loadBytes a bs).get b = if a ≤ b ∧ b < a + bs.length then bs.getD (b - a) 0#8 else m.get b := by
  induction bs generalizing m a with
  | nil => rw [if_neg (by simp)]; rfl
  | cons x xs ih =>
    rw [Memory.loadBytes, ih, Memory.get_set]
    by_cases h : b = a
    · subst h
      simp
    · by_cases h2 : a + 1 ≤ b ∧ b < a + 1 + xs.length
      · have h3 : a ≤ b ∧ b < a + (x :: xs).length := by simp only [List.length_cons]; omega
        rw [if_pos h2, if_pos h3]
        have e : b - a = b - (a + 1) + 1 := by omega
        rw [e]
        rfl
      · have h3 : ¬ (a ≤ b ∧ b < a + (x :: xs).length) := by simp only [List.length_cons]; omega
        rw [if_neg h2, if_neg h3, if_neg h]

/-- A cleared range reads as power-on left it, and no other byte changes. -/
theorem get_clearRange (m : Memory) (lo hi b : Nat) :
    (m.clearRange lo hi).get b = if lo ≤ b ∧ b < hi then unlistedByte b else m.get b := by
  unfold Memory.clearRange
  induction m with
  | nil => simp [Memory.get]
  | cons c rest ih =>
    obtain ⟨k, v⟩ := c
    rw [List.filter_cons]
    by_cases hk : lo ≤ k ∧ k < hi
    · rw [if_neg (by simp [hk]), ih]
      by_cases hb : lo ≤ b ∧ b < hi
      · rw [if_pos hb, if_pos hb]
      · have : ¬ k = b := by omega
        rw [if_neg hb, if_neg hb, Memory.get, if_neg this]
    · have hp : (!(decide (lo ≤ k) && decide (k < hi))) = true := by
        rcases Nat.lt_or_ge k lo with h | h
        · simp; omega
        · simp; omega
      rw [if_pos hp, Memory.get, Memory.get, ih]
      by_cases hb : k = b
      · subst hb
        rw [if_pos rfl, if_neg hk, if_pos rfl]
      · rw [if_neg hb, if_neg hb]

/-- What a saved-status register holds after one is written: the written bank's is `v`, every other is as it was (R356). -/
theorem SpsrFile.get?_of_set? (f g : SpsrFile) (v : Word) (b c : Bank) (h : f.set? v b = some g) :
    g.get? c = if c = b then some v else f.get? c := by
  cases b <;> first | cases h; cases c <;> rfl | cases h

/-- What `set_mode` leaves in each bit of the status register. -/
theorem getLsbD_setMode (m : BitVec 5) (s : State) (j : Nat) :
    (setMode m s).cpsr.getLsbD j = if j < 5 then m.getLsbD j else s.cpsr.getLsbD j := by
  show ((s.cpsr &&& 0xFFFFFFE0#32) ||| m.setWidth 32).getLsbD j = _
  have hmask : ∀ j, j < 32 → (0xFFFFFFE0#32).getLsbD j = decide (5 ≤ j) := by decide
  rw [BitVec.getLsbD_or, BitVec.getLsbD_and, BitVec.getLsbD_setWidth]
  by_cases h32 : j < 32
  · rw [hmask j h32]
    by_cases h : j < 5
    · have h2 : ¬ 5 ≤ j := by omega
      simp [h, h2, h32]
    · have h2 : 5 ≤ j := by omega
      simp [h, h2, h32, BitVec.getLsbD_of_ge m j h2]
  · have h : ¬ j < 5 := by omega
    rw [if_neg h, BitVec.getLsbD_of_ge s.cpsr j (by omega)]
    simp [h32]

theorem mode_setMode (m : BitVec 5) (s : State) : (setMode m s).mode = m := by
  apply BitVec.eq_of_getLsbD_eq
  intro i hi
  show ((setMode m s).cpsr.extractLsb' 0 5).getLsbD i = _
  rw [BitVec.getLsbD_extractLsb', getLsbD_setMode]
  simp [hi]

end Sys2Proof.Machine
end

