-- ==== Sys2Proof/Tests/Slice0.lean ====
section
/-! SUPPORT. The model's own tests. Every word is written out field by field from the format tables of 30_encoding.md (R113 to R127),
and every expected result is one the spec states: a row of 95_test_vectors.md, or the example of the rule the comment names. The
witnesses at the end meet the hypotheses of the statements in Certificates/Slice0/Obligations.lean. -/

namespace Sys2Proof.Tests

open Sys2Proof.Machine

/-! ## Small machines -/

/-- The start state of the vectors: after reset, `pc` = 0x02000000, with T, the flags NZCV and some registers
(95_test_vectors.md, Conventions). -/
def start (t : Bool) (nzcv : Nat) (regs : List (Reg × Word)) : State :=
  State.setPc
    (regs.foldl (fun s p => s.setReg p.1 p.2)
      { State.reset with cpsr := resetCpsr ||| (BitVec.ofNat 32 nzcv <<< 28) ||| (if t then 0x20#32 else 0#32) })
    0x02000000#32

/-- A word of memory. -/
def word (a : Nat) (v : Word) (s : State) : State := { s with mem := s.mem.store a .word v }

/-- A wide instruction at 0x02000000. -/
def wide (nzcv : Nat) (regs : List (Reg × Word)) (w : Word) : State := word 0x02000000 w (start false nzcv regs)

/-- A narrow instruction at 0x02000000. -/
def narrow (nzcv : Nat) (regs : List (Reg × Word)) (h : Half) : State := word 0x02000000 (h.setWidth 32) (start true nzcv regs)

/-- The load data of 95_test_vectors.md section 3.5 at D = 0x03000000. -/
def withData (s : State) : State := word 0x03000008 0x55667788#32 (word 0x03000004 0xAABBCCDD#32 (word 0x03000000 0x11223344#32 s))

/-- The flags as four bits. -/
def nzcvOf (s : State) : Nat := (s.cpsr.extractLsb' 28 4).toNat

/-- One processor step leaves these registers, flags, T and `pc`, and no warning. -/
def gives (s : State) (want : List (Reg × Word)) (nzcv : Nat) (t : Bool) (pc : Word) : Bool :=
  match procStep s with
  | .next u => want.all (fun p => u.getReg p.1 == p.2) && nzcvOf u == nzcv && u.flagT == t && u.pc == pc && u.warnings == s.warnings
  | _ => false

/-- One processor step leaves this word of memory, this register and these warnings. -/
def stores (s : State) (a : Nat) (v : Word) (r : Reg) (x : Word) (ws : List Warning) : Bool :=
  match procStep s with
  | .next u => u.mem.load a .word == v && u.getReg r == x && u.warnings == ws
  | _ => false

/-! ## WellFormed: each check refuses a term that breaks it alone -/

theorem smoke_shift_by_immediate :
    [Instr.nLslImm 1#5 8#4 0#4,
     .nLslImm 1#5 0#4 8#4,
     .nLsrImm 1#5 8#4 0#4,
     .nLsrImm 1#5 0#4 8#4,
     .nAsrImm 1#5 8#4 0#4,
     .nAsrImm 1#5 0#4 8#4].all (fun i => !i.wellFormed) = true := by decide

theorem smoke_add_subtract :
    [Instr.nAddReg 8#4 0#4 0#4,
     .nAddReg 0#4 8#4 0#4,
     .nAddReg 0#4 0#4 8#4,
     .nSubReg 8#4 0#4 0#4,
     .nSubReg 0#4 8#4 0#4,
     .nSubReg 0#4 0#4 8#4,
     .nAddImm3 0#3 8#4 0#4,
     .nAddImm3 0#3 0#4 8#4,
     .nSubImm3 0#3 8#4 0#4,
     .nSubImm3 0#3 0#4 8#4].all (fun i => !i.wellFormed) = true := by decide

theorem smoke_immediate8 :
    [Instr.nMovImm8 8#4 0#8,
     .nCmpImm8 8#4 0#8,
     .nAddImm8 15#4 0#8,
     .nSubImm8 8#4 0#8,
     .nLdrPc 8#4 0#8].all (fun i => !i.wellFormed) = true := by decide

theorem smoke_register_pairs_source :
    [Instr.nAnd 8#4 0#4,
     .nEor 8#4 0#4,
     .nLslReg 8#4 0#4,
     .nLsrReg 8#4 0#4,
     .nAsrReg 8#4 0#4,
     .nAdc 8#4 0#4,
     .nSbc 8#4 0#4,
     .nRorReg 8#4 0#4,
     .nTst 8#4 0#4,
     .nNeg 8#4 0#4,
     .nCmpReg 8#4 0#4,
     .nCmn 8#4 0#4,
     .nOrr 8#4 0#4,
     .nBic 8#4 0#4,
     .nMvn 8#4 0#4].all (fun i => !i.wellFormed) = true := by decide

theorem smoke_register_pairs_destination :
    [Instr.nAnd 0#4 8#4,
     .nEor 0#4 8#4,
     .nLslReg 0#4 8#4,
     .nLsrReg 0#4 8#4,
     .nAsrReg 0#4 8#4,
     .nAdc 0#4 8#4,
     .nSbc 0#4 8#4,
     .nRorReg 0#4 8#4,
     .nTst 0#4 8#4,
     .nNeg 0#4 8#4,
     .nCmpReg 0#4 8#4,
     .nCmn 0#4 8#4,
     .nOrr 0#4 8#4,
     .nBic 0#4 8#4,
     .nMvn 0#4 8#4].all (fun i => !i.wellFormed) = true := by decide

theorem smoke_load_store :
    [Instr.nStrImm 0#5 8#4 0#4,
     .nStrImm 0#5 0#4 8#4,
     .nLdrImm 0#5 8#4 0#4,
     .nLdrImm 0#5 0#4 8#4,
     .nStrbImm 0#5 8#4 0#4,
     .nStrbImm 0#5 0#4 8#4,
     .nLdrbImm 0#5 8#4 0#4,
     .nLdrbImm 0#5 0#4 8#4].all (fun i => !i.wellFormed) = true := by decide

/-! ## Decoding: every constructor, from a word written out from its format -/

/-- W-DP, immediate: cond 00 1 opcode S Rn Rd rot imm8 (R113, R114). -/
theorem test_decode_wide_dp_immediate :
    decode (.wide 0b1110_00_1_0000_0_0001_0010_0011_11110000#32) = .instr (.wAndImm .al false 1#4 2#4 3#4 0xF0#8) ∧
    decode (.wide 0b1110_00_1_0001_1_0001_0010_0011_11110000#32) = .instr (.wEorImm .al true 1#4 2#4 3#4 0xF0#8) ∧
    decode (.wide 0b1110_00_1_0010_0_0001_0010_0011_11110000#32) = .instr (.wSubImm .al false 1#4 2#4 3#4 0xF0#8) ∧
    decode (.wide 0b1110_00_1_0011_1_0001_0010_0011_11110000#32) = .instr (.wRsbImm .al true 1#4 2#4 3#4 0xF0#8) ∧
    decode (.wide 0b1110_00_1_0100_0_0001_0010_0011_11110000#32) = .instr (.wAddImm .al false 1#4 2#4 3#4 0xF0#8) ∧
    decode (.wide 0b1110_00_1_0101_1_0001_0010_0011_11110000#32) = .instr (.wAdcImm .al true 1#4 2#4 3#4 0xF0#8) ∧
    decode (.wide 0b1110_00_1_0110_0_0001_0010_0011_11110000#32) = .instr (.wSbcImm .al false 1#4 2#4 3#4 0xF0#8) ∧
    decode (.wide 0b1110_00_1_0111_1_0001_0010_0011_11110000#32) = .instr (.wRscImm .al true 1#4 2#4 3#4 0xF0#8) ∧
    decode (.wide 0b1110_00_1_1000_1_0001_0000_0011_11110000#32) = .instr (.wTstImm .al 1#4 3#4 0xF0#8) ∧
    decode (.wide 0b1110_00_1_1001_1_0001_0000_0011_11110000#32) = .instr (.wTeqImm .al 1#4 3#4 0xF0#8) ∧
    decode (.wide 0b1110_00_1_1010_1_0001_0000_0011_11110000#32) = .instr (.wCmpImm .al 1#4 3#4 0xF0#8) ∧
    decode (.wide 0b1110_00_1_1011_1_0001_0000_0011_11110000#32) = .instr (.wCmnImm .al 1#4 3#4 0xF0#8) ∧
    decode (.wide 0b1110_00_1_1100_0_0001_0010_0011_11110000#32) = .instr (.wOrrImm .al false 1#4 2#4 3#4 0xF0#8) ∧
    decode (.wide 0b1110_00_1_1101_1_0000_0010_0011_11110000#32) = .instr (.wMovImm .al true 2#4 3#4 0xF0#8) ∧
    decode (.wide 0b1110_00_1_1110_0_0001_0010_0011_11110000#32) = .instr (.wBicImm .al false 1#4 2#4 3#4 0xF0#8) ∧
    decode (.wide 0b1110_00_1_1111_1_0000_0010_0011_11110000#32) = .instr (.wMvnImm .al true 2#4 3#4 0xF0#8) := by decide

/-- W-DP, register shifted by an immediate: cond 00 0 opcode S Rn Rd shamt type 0 Rm (R113, R114). -/
theorem test_decode_wide_dp_shift_immediate :
    decode (.wide 0b1110_00_0_0000_0_0001_0010_10100_00_0_1001#32) = .instr (.wAndShi .al false 1#4 2#4 20#5 .lsl 9#4) ∧
    decode (.wide 0b1110_00_0_0001_1_0001_0010_10100_01_0_1001#32) = .instr (.wEorShi .al true 1#4 2#4 20#5 .lsr 9#4) ∧
    decode (.wide 0b1110_00_0_0010_0_0001_0010_10100_10_0_1001#32) = .instr (.wSubShi .al false 1#4 2#4 20#5 .asr 9#4) ∧
    decode (.wide 0b1110_00_0_0011_1_0001_0010_10100_11_0_1001#32) = .instr (.wRsbShi .al true 1#4 2#4 20#5 .ror 9#4) ∧
    decode (.wide 0b1110_00_0_0100_0_0001_0010_10100_00_0_1001#32) = .instr (.wAddShi .al false 1#4 2#4 20#5 .lsl 9#4) ∧
    decode (.wide 0b1110_00_0_0101_1_0001_0010_10100_01_0_1001#32) = .instr (.wAdcShi .al true 1#4 2#4 20#5 .lsr 9#4) ∧
    decode (.wide 0b1110_00_0_0110_0_0001_0010_10100_10_0_1001#32) = .instr (.wSbcShi .al false 1#4 2#4 20#5 .asr 9#4) ∧
    decode (.wide 0b1110_00_0_0111_1_0001_0010_10100_11_0_1001#32) = .instr (.wRscShi .al true 1#4 2#4 20#5 .ror 9#4) ∧
    decode (.wide 0b1110_00_0_1000_1_0001_0000_10100_00_0_1001#32) = .instr (.wTstShi .al 1#4 20#5 .lsl 9#4) ∧
    decode (.wide 0b1110_00_0_1001_1_0001_0000_10100_01_0_1001#32) = .instr (.wTeqShi .al 1#4 20#5 .lsr 9#4) ∧
    decode (.wide 0b1110_00_0_1010_1_0001_0000_10100_10_0_1001#32) = .instr (.wCmpShi .al 1#4 20#5 .asr 9#4) ∧
    decode (.wide 0b1110_00_0_1011_1_0001_0000_10100_11_0_1001#32) = .instr (.wCmnShi .al 1#4 20#5 .ror 9#4) ∧
    decode (.wide 0b1110_00_0_1100_0_0001_0010_10100_00_0_1001#32) = .instr (.wOrrShi .al false 1#4 2#4 20#5 .lsl 9#4) ∧
    decode (.wide 0b1110_00_0_1101_1_0000_0010_10100_01_0_1001#32) = .instr (.wMovShi .al true 2#4 20#5 .lsr 9#4) ∧
    decode (.wide 0b1110_00_0_1110_0_0001_0010_10100_10_0_1001#32) = .instr (.wBicShi .al false 1#4 2#4 20#5 .asr 9#4) ∧
    decode (.wide 0b1110_00_0_1111_1_0000_0010_10100_11_0_1001#32) = .instr (.wMvnShi .al true 2#4 20#5 .ror 9#4) := by decide

/-- W-DP, register shifted by a register: cond 00 0 opcode S Rn Rd Rs 0 type 1 Rm (R113, R114). -/
theorem test_decode_wide_dp_shift_register :
    decode (.wide 0b1110_00_0_0000_0_0001_0010_1000_0_00_1_1001#32) = .instr (.wAndShr .al false 1#4 2#4 8#4 .lsl 9#4) ∧
    decode (.wide 0b1110_00_0_0001_1_0001_0010_1000_0_01_1_1001#32) = .instr (.wEorShr .al true 1#4 2#4 8#4 .lsr 9#4) ∧
    decode (.wide 0b1110_00_0_0010_0_0001_0010_1000_0_10_1_1001#32) = .instr (.wSubShr .al false 1#4 2#4 8#4 .asr 9#4) ∧
    decode (.wide 0b1110_00_0_0011_1_0001_0010_1000_0_11_1_1001#32) = .instr (.wRsbShr .al true 1#4 2#4 8#4 .ror 9#4) ∧
    decode (.wide 0b1110_00_0_0100_0_0001_0010_1000_0_00_1_1001#32) = .instr (.wAddShr .al false 1#4 2#4 8#4 .lsl 9#4) ∧
    decode (.wide 0b1110_00_0_0101_1_0001_0010_1000_0_01_1_1001#32) = .instr (.wAdcShr .al true 1#4 2#4 8#4 .lsr 9#4) ∧
    decode (.wide 0b1110_00_0_0110_0_0001_0010_1000_0_10_1_1001#32) = .instr (.wSbcShr .al false 1#4 2#4 8#4 .asr 9#4) ∧
    decode (.wide 0b1110_00_0_0111_1_0001_0010_1000_0_11_1_1001#32) = .instr (.wRscShr .al true 1#4 2#4 8#4 .ror 9#4) ∧
    decode (.wide 0b1110_00_0_1000_1_0001_0000_1000_0_00_1_1001#32) = .instr (.wTstShr .al 1#4 8#4 .lsl 9#4) ∧
    decode (.wide 0b1110_00_0_1001_1_0001_0000_1000_0_01_1_1001#32) = .instr (.wTeqShr .al 1#4 8#4 .lsr 9#4) ∧
    decode (.wide 0b1110_00_0_1010_1_0001_0000_1000_0_10_1_1001#32) = .instr (.wCmpShr .al 1#4 8#4 .asr 9#4) ∧
    decode (.wide 0b1110_00_0_1011_1_0001_0000_1000_0_11_1_1001#32) = .instr (.wCmnShr .al 1#4 8#4 .ror 9#4) ∧
    decode (.wide 0b1110_00_0_1100_0_0001_0010_1000_0_00_1_1001#32) = .instr (.wOrrShr .al false 1#4 2#4 8#4 .lsl 9#4) ∧
    decode (.wide 0b1110_00_0_1101_1_0000_0010_1000_0_01_1_1001#32) = .instr (.wMovShr .al true 2#4 8#4 .lsr 9#4) ∧
    decode (.wide 0b1110_00_0_1110_0_0001_0010_1000_0_10_1_1001#32) = .instr (.wBicShr .al false 1#4 2#4 8#4 .asr 9#4) ∧
    decode (.wide 0b1110_00_0_1111_1_0000_0010_1000_0_11_1_1001#32) = .instr (.wMvnShr .al true 2#4 8#4 .ror 9#4) := by decide

/-- W-B, W-BX, W-SWI (R115, R116, R118). -/
theorem test_decode_wide_branch :
    decode (.wide 0b0001_101_0_100000000000000000000001#32) = .instr (.wB .ne 0x800001#24) ∧
    decode (.wide 0b1110_101_1_011111111111111111111110#32) = .instr (.wBl .al 0x7FFFFE#24) ∧
    decode (.wide 0b0000_000100101111111111110001_1110#32) = .instr (.wBx .eq 14#4) ∧
    decode (.wide 0b1110_1111_100000000000000000000001#32) = .instr (.wSwi .al 0x800001#24) := by decide

/-- W-SDT: cond 01 I P U B W L Rn Rd offset; I = 1 is a register offset (R117). -/
theorem test_decode_wide_load_store :
    decode (.wide 0b1110_01_0_1_0_0_1_1_0001_0010_100000000001#32) = .instr (.wLdrImm .al true false true 1#4 2#4 0x801#12) ∧
    decode (.wide 0b1110_01_0_0_1_0_0_0_0001_0010_100000000001#32) = .instr (.wStrImm .al false true false 1#4 2#4 0x801#12) ∧
    decode (.wide 0b1110_01_0_1_1_1_0_1_0001_0010_100000000001#32) = .instr (.wLdrbImm .al true true false 1#4 2#4 0x801#12) ∧
    decode (.wide 0b1110_01_0_0_0_1_1_0_0001_0010_100000000001#32) = .instr (.wStrbImm .al false false true 1#4 2#4 0x801#12) ∧
    decode (.wide 0b1110_01_1_1_0_0_1_1_0001_0010_10001_01_0_0011#32) = .instr (.wLdrReg .al true false true 1#4 2#4 17#5 .lsr 3#4) ∧
    decode (.wide 0b1110_01_1_0_1_0_0_0_0001_0010_10001_10_0_0011#32) = .instr (.wStrReg .al false true false 1#4 2#4 17#5 .asr 3#4) ∧
    decode (.wide 0b1110_01_1_1_1_1_0_1_0001_0010_10001_11_0_0011#32) = .instr (.wLdrbReg .al true true false 1#4 2#4 17#5 .ror 3#4) ∧
    decode (.wide 0b1110_01_1_0_0_1_1_0_0001_0010_10001_00_0_0011#32) = .instr (.wStrbReg .al false false true 1#4 2#4 17#5 .lsl 3#4) := by decide

/-- N1, N2: 000 op imm5 Rs Rd; 00011 I op Rn or imm3 Rs Rd (R121, R122). -/
theorem test_decode_narrow_shift_add :
    decode (.narrow 0b000_00_10001_011_100#16) = .instr (.nLslImm 17#5 3#4 4#4) ∧
    decode (.narrow 0b000_01_10001_011_100#16) = .instr (.nLsrImm 17#5 3#4 4#4) ∧
    decode (.narrow 0b000_10_10001_011_100#16) = .instr (.nAsrImm 17#5 3#4 4#4) ∧
    decode (.narrow 0b00011_0_0_110_011_100#16) = .instr (.nAddReg 6#4 3#4 4#4) ∧
    decode (.narrow 0b00011_0_1_110_011_100#16) = .instr (.nSubReg 6#4 3#4 4#4) ∧
    decode (.narrow 0b00011_1_0_110_011_100#16) = .instr (.nAddImm3 6#3 3#4 4#4) ∧
    decode (.narrow 0b00011_1_1_110_011_100#16) = .instr (.nSubImm3 6#3 3#4 4#4) := by decide

/-- N3: 001 op Rd imm8 (R123). -/
theorem test_decode_narrow_immediate8 :
    decode (.narrow 0b001_00_110_10000001#16) = .instr (.nMovImm8 6#4 0x81#8) ∧
    decode (.narrow 0b001_01_110_10000001#16) = .instr (.nCmpImm8 6#4 0x81#8) ∧
    decode (.narrow 0b001_10_110_10000001#16) = .instr (.nAddImm8 6#4 0x81#8) ∧
    decode (.narrow 0b001_11_110_10000001#16) = .instr (.nSubImm8 6#4 0x81#8) := by decide

/-- N4: 010000 op Rs Rd (R124). -/
theorem test_decode_narrow_register_pairs :
    decode (.narrow 0b010000_0000_011_100#16) = .instr (.nAnd 3#4 4#4) ∧
    decode (.narrow 0b010000_0001_011_100#16) = .instr (.nEor 3#4 4#4) ∧
    decode (.narrow 0b010000_0010_011_100#16) = .instr (.nLslReg 3#4 4#4) ∧
    decode (.narrow 0b010000_0011_011_100#16) = .instr (.nLsrReg 3#4 4#4) ∧
    decode (.narrow 0b010000_0100_011_100#16) = .instr (.nAsrReg 3#4 4#4) ∧
    decode (.narrow 0b010000_0101_011_100#16) = .instr (.nAdc 3#4 4#4) ∧
    decode (.narrow 0b010000_0110_011_100#16) = .instr (.nSbc 3#4 4#4) ∧
    decode (.narrow 0b010000_0111_011_100#16) = .instr (.nRorReg 3#4 4#4) ∧
    decode (.narrow 0b010000_1000_011_100#16) = .instr (.nTst 3#4 4#4) ∧
    decode (.narrow 0b010000_1001_011_100#16) = .instr (.nNeg 3#4 4#4) ∧
    decode (.narrow 0b010000_1010_011_100#16) = .instr (.nCmpReg 3#4 4#4) ∧
    decode (.narrow 0b010000_1011_011_100#16) = .instr (.nCmn 3#4 4#4) ∧
    decode (.narrow 0b010000_1100_011_100#16) = .instr (.nOrr 3#4 4#4) ∧
    decode (.narrow 0b010000_1110_011_100#16) = .instr (.nBic 3#4 4#4) ∧
    decode (.narrow 0b010000_1111_011_100#16) = .instr (.nMvn 3#4 4#4) := by decide

/-- N5: 010001 op H1 H2 Rs Rd (R125). -/
theorem test_decode_narrow_high :
    decode (.narrow 0b010001_00_1_0_011_100#16) = .instr (.nAddHigh 3#4 12#4) ∧
    decode (.narrow 0b010001_01_0_1_011_100#16) = .instr (.nCmpHigh 11#4 4#4) ∧
    decode (.narrow 0b010001_10_1_1_011_100#16) = .instr (.nMovHigh 11#4 12#4) ∧
    decode (.narrow 0b010001_11_0_1_110_000#16) = .instr (.nBx 14#4) := by decide

/-- N6, N9: 01001 Rd imm8; 011 B L imm5 Rb Rd (R126). -/
theorem test_decode_narrow_load_store :
    decode (.narrow 0b01001_110_10000001#16) = .instr (.nLdrPc 6#4 0x81#8) ∧
    decode (.narrow 0b011_0_0_10001_011_100#16) = .instr (.nStrImm 17#5 3#4 4#4) ∧
    decode (.narrow 0b011_0_1_10001_011_100#16) = .instr (.nLdrImm 17#5 3#4 4#4) ∧
    decode (.narrow 0b011_1_0_10001_011_100#16) = .instr (.nStrbImm 17#5 3#4 4#4) ∧
    decode (.narrow 0b011_1_1_10001_011_100#16) = .instr (.nLdrbImm 17#5 3#4 4#4) := by decide

/-- N16, N17, N18, N19: 1101 cond soff8; 11011111 comment8; 11100 off11; 1111 H off11 (R127). -/
theorem test_decode_narrow_branch :
    decode (.narrow 0b1101_0000_10000001#16) = .instr (.nBeq 0x81#8) ∧
    decode (.narrow 0b1101_0001_10000001#16) = .instr (.nBne 0x81#8) ∧
    decode (.narrow 0b1101_0010_10000001#16) = .instr (.nBcs 0x81#8) ∧
    decode (.narrow 0b1101_0011_10000001#16) = .instr (.nBcc 0x81#8) ∧
    decode (.narrow 0b1101_0100_10000001#16) = .instr (.nBmi 0x81#8) ∧
    decode (.narrow 0b1101_0101_10000001#16) = .instr (.nBpl 0x81#8) ∧
    decode (.narrow 0b1101_0110_10000001#16) = .instr (.nBvs 0x81#8) ∧
    decode (.narrow 0b1101_0111_10000001#16) = .instr (.nBvc 0x81#8) ∧
    decode (.narrow 0b1101_1000_10000001#16) = .instr (.nBhi 0x81#8) ∧
    decode (.narrow 0b1101_1001_10000001#16) = .instr (.nBls 0x81#8) ∧
    decode (.narrow 0b1101_1010_10000001#16) = .instr (.nBge 0x81#8) ∧
    decode (.narrow 0b1101_1011_10000001#16) = .instr (.nBlt 0x81#8) ∧
    decode (.narrow 0b1101_1100_10000001#16) = .instr (.nBgt 0x81#8) ∧
    decode (.narrow 0b1101_1101_10000001#16) = .instr (.nBle 0x81#8) ∧
    decode (.narrow 0b1101_1111_10000001#16) = .instr (.nSwi 0x81#8) ∧
    decode (.narrow 0b11100_10000000001#16) = .instr (.nB 0x401#11) ∧
    decode (.narrow 0b1111_0_10000000001#16) = .instr (.nBlPrefix 0x401#11) ∧
    decode (.narrow 0b1111_1_10000000001#16) = .instr (.nBlSuffix 0x401#11) := by decide

/-- A pattern of a RESERVED space. -/
def isReserved (u : CodeUnit) : Bool :=
  match decode u with
  | .reserved _ => true
  | .instr _ => false

/-- The wide RESERVED words of 95_test_vectors.md section 3.8. -/
theorem test_decode_wide_reserved :
    [0xE1000000#32, 0xE10F0000#32, 0xE129F000#32, 0xE0000291#32, 0xE1010092#32, 0xE1D100B0#32, 0xE8BD8000#32, 0xE92D4000#32,
     0xEE010F10#32, 0xED900000#32, 0xE7F000F0#32, 0xE12FFF30#32].all (fun w => isReserved (.wide w)) = true := by decide

/-- The narrow RESERVED halfwords of 95_test_vectors.md section 3.8. -/
theorem test_decode_narrow_reserved :
    [0x5008#16, 0x8808#16, 0x9000#16, 0xA000#16, 0xB001#16, 0xB500#16, 0xBD00#16, 0xC000#16, 0x4780#16, 0x4340#16, 0x437F#16,
     0xDE00#16, 0xDEFF#16, 0xE800#16, 0xEFFF#16].all (fun h => isReserved (.narrow h)) = true := by decide

/-- The host numbers a row's bits from the first byte up, which is the number the words above are written in. -/
theorem test_decodeTableWord :
    decodeTableWord 32 0xE2800001 = some (.wAddImm .al false 0#4 0#4 0#4 1#8) ∧ decodeTableWord 16 0x2380 = some (.nMovImm8 3#4 0x80#8) ∧
    decodeTableWord 32 0xE0000291 = none := by decide

/-! ## One step (95_test_vectors.md sections 3.2 to 3.9) -/

theorem test_wide_add :
    gives (wide 0b0000 [(0#4, 0x7FFFFFFF#32), (1#4, 0x7FFFFFFF#32)] 0xE0902001#32) [(2#4, 0xFFFFFFFE#32)] 0b1001 false 0x02000004#32 = true ∧
    gives (wide 0b0000 [(1#4, 1#32), (2#4, 0x0FFFFFFF#32)] 0xE0910202#32) [(0#4, 0xFFFFFFF1#32)] 0b1000 false 0x02000004#32 = true := by decide

theorem test_wide_add_r15 :
    gives (wide 0b0000 [] 0xE28FF008#32) [] 0b0000 false 0x0200000C#32 = true ∧
    gives (wide 0b1111 [(1#4, 0x03000000#32)] 0xE291F003#32) [] 0b1111 false 0x03000000#32 = true := by decide

theorem test_wide_sub :
    gives (wide 0b0000 [(1#4, 0#32), (2#4, 0x80000000#32)] 0xE0510FC2#32) [(0#4, 1#32)] 0b0000 false 0x02000004#32 = true ∧
    gives (wide 0b0000 [(1#4, 0x7FFFFFFF#32), (2#4, 0xFFFFFFFF#32)] 0xE0510002#32) [(0#4, 0x80000000#32)] 0b1001 false 0x02000004#32 = true := by decide

theorem test_wide_rsb :
    gives (wide 0b0000 [(1#4, 7#32), (2#4, 5#32)] 0xE0710002#32) [(0#4, 0xFFFFFFFE#32)] 0b1000 false 0x02000004#32 = true ∧
    gives (wide 0b0000 [(1#4, 1#32)] 0xE2710000#32) [(0#4, 0xFFFFFFFF#32)] 0b1000 false 0x02000004#32 = true := by decide

theorem test_wide_adc :
    gives (wide 0b0010 [(1#4, 0xFFFFFFFF#32), (2#4, 0xFFFFFFFF#32)] 0xE0B10002#32) [(0#4, 0xFFFFFFFF#32)] 0b1010 false 0x02000004#32 = true := by decide

theorem test_wide_sbc :
    gives (wide 0b0000 [(1#4, 0x80000000#32)] 0xE0D10002#32) [(0#4, 0x7FFFFFFF#32)] 0b0011 false 0x02000004#32 = true ∧
    gives (wide 0b0010 [(1#4, 0x80000000#32)] 0xE0D10002#32) [(0#4, 0x80000000#32)] 0b1010 false 0x02000004#32 = true := by decide

theorem test_wide_rsc :
    gives (wide 0b0000 [] 0xE0F10002#32) [(0#4, 0xFFFFFFFF#32)] 0b1000 false 0x02000004#32 = true := by decide

theorem test_wide_and :
    gives (wide 0b0000 [(1#4, 0xFFFFFFFF#32), (2#4, 3#32)] 0xE01100A2#32) [(0#4, 1#32)] 0b0010 false 0x02000004#32 = true := by decide

theorem test_wide_eor :
    gives (wide 0b0000 [(1#4, 0xF000000F#32)] 0xE231020F#32) [(0#4, 0x0000000F#32)] 0b0010 false 0x02000004#32 = true := by decide

theorem test_wide_orr :
    gives (wide 0b0010 [(2#4, 2#32)] 0xE1910062#32) [(0#4, 0x80000001#32)] 0b1000 false 0x02000004#32 = true := by decide

theorem test_wide_bic :
    gives (wide 0b0000 [(1#4, 0xFFFFFFFF#32), (2#4, 1#32), (3#4, 32#32)] 0xE1D10312#32) [(0#4, 0xFFFFFFFF#32)] 0b1010 false 0x02000004#32 = true := by decide

theorem test_wide_mov :
    gives (wide 0b0010 [(1#4, 0x80000000#32)] 0xE1B00231#32) [(0#4, 0x80000000#32)] 0b1010 false 0x02000004#32 = true ∧
    gives (wide 0b0000 [(1#4, 1#32)] 0xE1A0011F#32) [(0#4, 0x04000008#32)] 0b0000 false 0x02000004#32 = true := by decide

theorem test_wide_mov_immediate :
    gives (wide 0b0000 [] 0xE3B001FF#32) [(0#4, 0xC000003F#32)] 0b1010 false 0x02000004#32 = true ∧
    gives (wide 0b0010 [] 0xE3B00C01#32) [(0#4, 0x00000100#32)] 0b0000 false 0x02000004#32 = true := by decide

theorem test_wide_mvn :
    gives (wide 0b0000 [(1#4, 0x80000000#32)] 0xE1F00041#32) [(0#4, 0#32)] 0b0110 false 0x02000004#32 = true := by decide

theorem test_wide_tst :
    gives (wide 0b0000 [(1#4, 0x7FFFFFFF#32)] 0xE3110102#32) [(0#4, 0#32), (1#4, 0x7FFFFFFF#32)] 0b0110 false 0x02000004#32 = true := by decide

theorem test_wide_teq :
    gives (wide 0b1001 [(1#4, 7#32)] 0xE1310001#32) [(0#4, 0#32), (1#4, 7#32)] 0b0101 false 0x02000004#32 = true := by decide

theorem test_wide_cmp :
    gives (wide 0b0000 [(1#4, 0xFFFFFFFF#32), (2#4, 1#32)] 0xE1510002#32) [(0#4, 0#32), (1#4, 0xFFFFFFFF#32)] 0b1010 false 0x02000004#32 = true ∧
    gives (wide 0b0000 [(1#4, 0#32), (2#4, 0x80000000#32)] 0xE1510002#32) [] 0b1001 false 0x02000004#32 = true := by decide

theorem test_wide_cmn :
    gives (wide 0b0000 [(1#4, 0x80000000#32), (2#4, 0x80000000#32)] 0xE1710002#32) [(0#4, 0#32)] 0b0111 false 0x02000004#32 = true := by decide

theorem test_wide_condition :
    gives (wide 0b0010 [(0#4, 7#32)] 0x82800001#32) [(0#4, 8#32)] 0b0010 false 0x02000004#32 = true ∧
    gives (wide 0b0010 [(0#4, 7#32)] 0x92800001#32) [(0#4, 7#32)] 0b0010 false 0x02000004#32 = true := by decide

theorem test_wide_never :
    gives (wide 0b0100 [] 0xF3A00001#32) [(0#4, 0#32)] 0b0100 false 0x02000004#32 = true := by decide

theorem test_wide_b :
    gives (wide 0b0000 [] 0xEAFFFFFF#32) [] 0b0000 false 0x02000000#32 = true ∧
    gives (wide 0b0000 [] 0xEAFFFFFE#32) [] 0b0000 false 0x01FFFFFC#32 = true := by decide

theorem test_wide_bl :
    gives (wide 0b0000 [] 0x1B000001#32) [(14#4, 0x02000004#32)] 0b0000 false 0x02000008#32 = true ∧
    gives (wide 0b0100 [] 0x1B000001#32) [(14#4, 0#32)] 0b0100 false 0x02000004#32 = true := by decide

theorem test_wide_bx :
    gives (wide 0b0000 [(0#4, 0x03000003#32)] 0xE12FFF10#32) [(0#4, 0x03000003#32)] 0b0000 true 0x03000002#32 = true ∧
    gives (wide 0b0000 [(0#4, 0x03000002#32)] 0xE12FFF10#32) [] 0b0000 false 0x03000000#32 = true := by decide

theorem test_wide_swi :
    gives (wide 0b0000 [(14#4, 0x03000101#32)] 0xEF123456#32) [(14#4, 0x03000101#32)] 0b0000 false 0x03000100#32 = true := by decide

theorem test_wide_ldr :
    gives (withData (wide 0b0000 [(1#4, 0x03000008#32), (2#4, 2#32)] 0xE6110082#32)) [(0#4, 0x55667788#32), (1#4, 0x03000004#32)] 0b0000 false 0x02000004#32 = true ∧
    gives (word 0x02000008 0x08000001#32 (wide 0b0000 [] 0xE59FF004#32)) [] 0b0000 false 0x08000000#32 = true := by decide

theorem test_wide_ldr_writeback :
    gives (withData (wide 0b0000 [(1#4, 0x03000000#32), (2#4, 16#32)] 0xE7B100C2#32)) [(0#4, 0x55667788#32), (1#4, 0x03000008#32)] 0b0000 false 0x02000004#32 = true ∧
    gives (word 0x02000008 0x0BADF00D#32 (wide 0b0000 [] 0xE5BF0004#32)) [(0#4, 0x0BADF00D#32)] 0b0000 false 0x02000004#32 = true := by decide

theorem test_wide_ldrb :
    gives (withData (wide 0b0000 [(1#4, 0x03000000#32)] 0xE5D10002#32)) [(0#4, 0x22#32)] 0b0000 false 0x02000004#32 = true ∧
    gives (withData (wide 0b0000 [(1#4, 0x03000004#32), (2#4, 1#32)] 0xE7510002#32)) [(0#4, 0x11#32)] 0b0000 false 0x02000004#32 = true := by decide

theorem test_wide_str :
    stores (wide 0b0000 [(0#4, 0xCAFEBABE#32), (1#4, 0x03000008#32)] 0xE5210004#32) 0x03000004 0xCAFEBABE#32 1#4 0x03000004#32 [] = true ∧
    stores (wide 0b0000 [(0#4, 0xCAFEBABE#32), (1#4, 0x03000000#32), (2#4, 8#32)] 0xE6810002#32) 0x03000000 0xCAFEBABE#32 1#4
      0x03000008#32 [] = true := by decide

theorem test_wide_str_misaligned :
    stores (wide 0b0000 [(0#4, 0xA1B2C3D4#32), (1#4, 0x06017FFE#32)] 0xE5810000#32) 0x06017FFC 0xA1B2C3D4#32 1#4 0x06017FFE#32
      [.misaligned 0x06017FFE#32 .word] = true ∧
    stores (wide 0b0100 [] 0x15810000#32) 0x00000000 0#32 1#4 0#32 [] = true := by decide

theorem test_wide_strb :
    stores (withData (wide 0b0000 [(0#4, 0x000001FF#32), (1#4, 0x03000000#32)] 0xE5C10003#32)) 0x03000000 0xFF223344#32 1#4
      0x03000000#32 [] = true ∧
    stores (wide 0b0000 [(0#4, 7#32), (1#4, 0x04000005#32)] 0xE5C10000#32) 0x04000004 0x00000700#32 1#4 0x04000005#32 [] = true := by
  decide

theorem test_narrow_lsl_immediate :
    gives (narrow 0b0010 [] 0x0000#16) [(0#4, 0#32)] 0b0110 true 0x02000002#32 = true ∧
    gives (narrow 0b0011 [(3#4, 0x0FFFFFFF#32)] 0x011A#16) [(2#4, 0xFFFFFFF0#32)] 0b1001 true 0x02000002#32 = true := by decide

theorem test_narrow_lsr_immediate :
    gives (narrow 0b0000 [(3#4, 0x0000000F#32)] 0x091A#16) [(2#4, 0#32)] 0b0110 true 0x02000002#32 = true ∧
    gives (narrow 0b0000 [(1#4, 0x80000001#32)] 0x0808#16) [(0#4, 0#32)] 0b0110 true 0x02000002#32 = true := by decide

theorem test_narrow_asr_immediate :
    gives (narrow 0b0000 [(3#4, 0xF0000008#32)] 0x111A#16) [(2#4, 0xFF000000#32)] 0b1010 true 0x02000002#32 = true := by decide

theorem test_narrow_add_register :
    gives (narrow 0b0000 [(3#4, 0x80000000#32), (4#4, 0x80000000#32)] 0x191A#16) [(2#4, 0#32)] 0b0111 true 0x02000002#32 = true := by decide

theorem test_narrow_sub_register :
    gives (narrow 0b0000 [(3#4, 0x7FFFFFFF#32), (4#4, 0xFFFFFFFF#32)] 0x1B1A#16) [(2#4, 0x80000000#32)] 0b1001 true 0x02000002#32 = true := by decide

theorem test_narrow_add_immediate3 :
    gives (narrow 0b0000 [(3#4, 0xFFFFFFFF#32)] 0x1C5A#16) [(2#4, 0#32)] 0b0110 true 0x02000002#32 = true := by decide

theorem test_narrow_sub_immediate3 :
    gives (narrow 0b0000 [(3#4, 3#32)] 0x1FDA#16) [(2#4, 0xFFFFFFFC#32)] 0b1000 true 0x02000002#32 = true := by decide

theorem test_narrow_mov_immediate :
    gives (narrow 0b1100 [] 0x2380#16) [(3#4, 0x80#32)] 0b0000 true 0x02000002#32 = true := by decide

theorem test_narrow_cmp_immediate :
    gives (narrow 0b0000 [] 0x2B00#16) [(3#4, 0#32)] 0b0110 true 0x02000002#32 = true ∧
    gives (narrow 0b0000 [(3#4, 0x80000000#32)] 0x2BFF#16) [(3#4, 0x80000000#32)] 0b0011 true 0x02000002#32 = true := by decide

theorem test_narrow_add_immediate8 :
    gives (narrow 0b0011 [] 0x3300#16) [(3#4, 0#32)] 0b0100 true 0x02000002#32 = true := by decide

theorem test_narrow_sub_immediate8 :
    gives (narrow 0b0000 [(3#4, 0x80000000#32)] 0x3B01#16) [(3#4, 0x7FFFFFFF#32)] 0b0011 true 0x02000002#32 = true := by decide

theorem test_narrow_and :
    gives (narrow 0b0001 [(2#4, 0x80000001#32), (3#4, 0x80000000#32)] 0x401A#16) [(2#4, 0x80000000#32)] 0b1001 true 0x02000002#32 = true := by decide

theorem test_narrow_eor :
    gives (narrow 0b0010 [(2#4, 0x12345678#32), (3#4, 0x12345678#32)] 0x405A#16) [(2#4, 0#32)] 0b0110 true 0x02000002#32 = true := by decide

theorem test_narrow_lsl_register :
    gives (narrow 0b0000 [(2#4, 0x0FFFFFFF#32), (3#4, 0x00000104#32)] 0x409A#16) [(2#4, 0xFFFFFFF0#32)] 0b1000 true 0x02000002#32 = true := by decide

theorem test_narrow_lsr_register :
    gives (narrow 0b0000 [(2#4, 0x80000000#32), (3#4, 32#32)] 0x40DA#16) [(2#4, 0#32)] 0b0110 true 0x02000002#32 = true := by decide

theorem test_narrow_asr_register :
    gives (narrow 0b0010 [(2#4, 0x40000000#32), (3#4, 40#32)] 0x411A#16) [(2#4, 0#32)] 0b0100 true 0x02000002#32 = true := by decide

theorem test_narrow_adc :
    gives (narrow 0b0010 [(2#4, 0xFFFFFFFF#32), (3#4, 0xFFFFFFFF#32)] 0x415A#16) [(2#4, 0xFFFFFFFF#32)] 0b1010 true 0x02000002#32 = true := by decide

theorem test_narrow_sbc :
    gives (narrow 0b0000 [(2#4, 0x80000000#32)] 0x419A#16) [(2#4, 0x7FFFFFFF#32)] 0b0011 true 0x02000002#32 = true := by decide

theorem test_narrow_ror_register :
    gives (narrow 0b0000 [(2#4, 0x000000FF#32), (3#4, 8#32)] 0x41DA#16) [(2#4, 0xFF000000#32)] 0b1010 true 0x02000002#32 = true ∧
    gives (narrow 0b0010 [(2#4, 0x7FFFFFFF#32), (3#4, 64#32)] 0x41DA#16) [(2#4, 0x7FFFFFFF#32)] 0b0000 true 0x02000002#32 = true := by decide

theorem test_narrow_tst :
    gives (narrow 0b0001 [(2#4, 0xF0#32), (3#4, 0x0F#32)] 0x421A#16) [(2#4, 0xF0#32), (3#4, 0x0F#32)] 0b0101 true 0x02000002#32 = true := by decide

theorem test_narrow_neg :
    gives (narrow 0b0000 [(3#4, 5#32)] 0x425A#16) [(2#4, 0xFFFFFFFB#32)] 0b1000 true 0x02000002#32 = true ∧
    gives (narrow 0b0000 [(2#4, 0xFFFFFFFF#32)] 0x4252#16) [(2#4, 1#32)] 0b0000 true 0x02000002#32 = true := by decide

theorem test_narrow_cmp_register :
    gives (narrow 0b0000 [(3#4, 0x80000000#32)] 0x429A#16) [(2#4, 0#32)] 0b1001 true 0x02000002#32 = true := by decide

theorem test_narrow_cmn :
    gives (narrow 0b0000 [(2#4, 0x80000000#32), (3#4, 0x80000000#32)] 0x42DA#16) [(2#4, 0x80000000#32)] 0b0111 true 0x02000002#32 = true := by decide

theorem test_narrow_orr :
    gives (narrow 0b0000 [] 0x431A#16) [(2#4, 0#32)] 0b0100 true 0x02000002#32 = true := by decide

theorem test_narrow_multiply_slot :
    gives (narrow 0b0010 [(2#4, 3#32), (3#4, 5#32)] 0x435A#16) [(2#4, 3#32), (3#4, 5#32)] 0b0010 true 0x02000002#32 = true := by decide

theorem test_narrow_bic :
    gives (narrow 0b0000 [(2#4, 0xFFFFFFFF#32), (3#4, 0x7FFFFFFF#32)] 0x439A#16) [(2#4, 0x80000000#32)] 0b1000 true 0x02000002#32 = true := by decide

theorem test_narrow_mvn :
    gives (narrow 0b0010 [(3#4, 0x7FFFFFFF#32)] 0x43DA#16) [(2#4, 0x80000000#32)] 0b1010 true 0x02000002#32 = true := by decide

theorem test_narrow_add_high :
    gives (narrow 0b0100 [(13#4, 0x03007F00#32), (0#4, 0xFFFFFFF0#32)] 0x4485#16) [(13#4, 0x03007EF0#32)] 0b0100 true 0x02000002#32 = true ∧
    gives (narrow 0b0000 [(14#4, 0x00000100#32)] 0x44F7#16) [] 0b0000 true 0x02000102#32 = true := by decide

theorem test_narrow_cmp_high :
    gives (narrow 0b0000 [(0#4, 0x02000002#32)] 0x4587#16) [(0#4, 0x02000002#32)] 0b0110 true 0x02000002#32 = true := by decide

theorem test_narrow_mov_high :
    gives (narrow 0b0000 [] 0x46FE#16) [(14#4, 0x02000002#32)] 0b0000 true 0x02000002#32 = true ∧
    gives (narrow 0b0000 [(0#4, 0x03000003#32)] 0x4687#16) [] 0b0000 true 0x03000002#32 = true := by decide

theorem test_narrow_bx :
    gives (narrow 0b0000 [(0#4, 0x02000101#32)] 0x4700#16) [] 0b0000 true 0x02000100#32 = true ∧
    gives (narrow 0b0000 [(0#4, 0x02000100#32)] 0x4700#16) [] 0b0000 false 0x02000100#32 = true := by decide

theorem test_narrow_ldr_pc :
    gives (word 0x02000008 0x11111111#32 (narrow 0b0000 [] 0x4902#16)) [(1#4, 0x11111111#32)] 0b0000 true 0x02000002#32 = true := by decide

theorem test_narrow_ldr :
    gives (withData (narrow 0b0000 [(3#4, 0x03000000#32)] 0x685A#16)) [(2#4, 0xAABBCCDD#32)] 0b0000 true 0x02000002#32 = true ∧
    gives (narrow 0b0000 [(3#4, 0x04000004#32)] 0x681A#16) [(2#4, 4#32)] 0b0000 true 0x02000002#32 = true := by decide

theorem test_narrow_ldrb :
    gives (withData (narrow 0b0000 [(3#4, 0x03000000#32)] 0x795A#16)) [(2#4, 0xCC#32)] 0b0000 true 0x02000002#32 = true := by decide

theorem test_narrow_str :
    stores (narrow 0b0000 [(2#4, 0xCAFEBABE#32), (3#4, 0x03000000#32)] 0x609A#16) 0x03000008 0xCAFEBABE#32 3#4 0x03000000#32 [] = true ∧
    stores (narrow 0b0000 [(2#4, 0xFFFFFFFF#32)] 0x601A#16) 0x00000000 0#32 3#4 0#32 [.illegalWrite 0#32 .word] = true := by decide

theorem test_narrow_strb :
    stores (withData (narrow 0b0000 [(2#4, 0x0000ABCD#32), (3#4, 0x03000000#32)] 0x709A#16)) 0x03000000 0x11CD3344#32 3#4
      0x03000000#32 [] = true := by decide

theorem test_narrow_beq :
    gives (narrow 0b0100 [] 0xD002#16) [] 0b0100 true 0x02000006#32 = true ∧
    gives (narrow 0b0000 [] 0xD002#16) [] 0b0000 true 0x02000002#32 = true := by decide

theorem test_narrow_bcs :
    gives (narrow 0b0010 [] 0xD2FD#16) [] 0b0010 true 0x01FFFFFC#32 = true := by decide

theorem test_narrow_bmi_bvs :
    gives (narrow 0b1000 [] 0xD400#16) [] 0b1000 true 0x02000002#32 = true ∧
    gives (narrow 0b0000 [] 0xD601#16) [] 0b0000 true 0x02000002#32 = true := by decide

theorem test_narrow_bls :
    gives (narrow 0b0110 [] 0xD904#16) [] 0b0110 true 0x0200000A#32 = true := by decide

theorem test_narrow_bgt_ble :
    gives (narrow 0b1001 [] 0xDC04#16) [] 0b1001 true 0x0200000A#32 = true ∧
    gives (narrow 0b1001 [] 0xDD04#16) [] 0b1001 true 0x02000002#32 = true := by decide

theorem test_narrow_swi :
    gives (narrow 0b0000 [(14#4, 0x02000101#32)] 0xDFAB#16) [(14#4, 0x02000101#32)] 0b0000 true 0x02000100#32 = true := by decide

theorem test_narrow_b :
    gives (narrow 0b0000 [] 0xE780#16) [] 0b0000 true 0x01FFFF02#32 = true := by decide

theorem test_narrow_bl_prefix :
    gives (narrow 0b0000 [] 0xF7FF#16) [(14#4, 0x01FFF002#32)] 0b0000 true 0x02000002#32 = true := by decide

theorem test_narrow_bl_suffix :
    gives (narrow 0b0000 [(14#4, 0x03000000#32)] 0xF802#16) [(14#4, 0x02000003#32)] 0b0000 true 0x03000004#32 = true := by decide

/-! ## The bus, the map, the video unit and the host -/

/-- The table `map` of 95_test_vectors.md section 3.10. -/
theorem test_map :
    mapAddr 0 0x00003FFC#32 .word = .hit .boot 0x3FFC ∧ mapAddr 0 0x00004000#32 .byte = .outOfBounds .boot ∧
    mapAddr 0 0x01000000#32 .byte = .unmapped ∧ mapAddr 0 0x06017FFC#32 .word = .hit .vram 0x17FFC ∧
    mapAddr 0 0x040003FF#32 .byte = .hit .io 0x3FF ∧ mapAddr 0 0x08000000#32 .byte = .outOfBounds .cart ∧
    mapAddr 12 0x0800000A#32 .half = .hit .cart 10 ∧ mapAddr 12 0x0800000C#32 .byte = .outOfBounds .cart ∧
    mapAddr 12 0x09000000#32 .byte = .outOfBounds .cart ∧ mapAddr 0 0x0E00FFFF#32 .byte = .hit .save 0xFFFF ∧
    mapAddr 0 0xFFFFFFFC#32 .word = .unmapped := by decide

/-- The misaligned-access law: a word rotates, a halfword does not (95_test_vectors.md P4). -/
theorem test_misaligned_read :
    (memRead 0x02000023#32 .word (word 0x02000020 0xBEEFEE44#32 State.reset)).1 = 0xEFEE44BE#32 ∧
    (memRead 0x02000021#32 .half (word 0x02000020 0xBEEFEE44#32 State.reset)).1 = 0xEE44#32 ∧
    (memRead 0x02000023#32 .word (word 0x02000020 0xBEEFEE44#32 State.reset)).2.warnings = [.misaligned 0x02000023#32 .word] := by
  decide

/-- The peripheral registers under their masks (95_test_vectors.md section 3.10). -/
theorem test_peripheral_registers :
    (memRead 0x04000004#32 .word (memWrite 0x04000004#32 .word 0xFFFFFFFF#32 State.reset)).1 = 0x0000FFF8#32 ∧
    (memRead 0x04000004#32 .half (memWrite 0x04000004#32 .half 0x0000#32 State.reset)).1 = 0x0004#32 ∧
    (memRead 0x04000130#32 .word (memWrite 0x04000130#32 .word 0x12340000#32 State.reset)).1 = 0x1234FFFF#32 ∧
    (memRead 0x040003FE#32 .word (memWrite 0x040003FE#32 .word 1#32 State.reset)).1 = 0x00010000#32 := by decide

/-- A write to a read-only region is dropped and recorded, after the misalignment (95_test_vectors.md section 3.10). -/
theorem test_illegal_write :
    (memWrite 0x00000001#32 .half 0xFFFF#32 State.reset).warnings =
      [.misaligned 0x00000001#32 .half, .illegalWrite 0x00000000#32 .half] ∧
    (memWrite 0x00000001#32 .half 0xFFFF#32 State.reset).mem = [] := by decide

/-- The clock of the video unit (95_test_vectors.md section 3.11): `advance(5000)`, and the first frame's wrap. -/
theorem test_clock :
    (advance 5000 State.reset).vtu.line = 4 ∧ (advance 5000 State.reset).vtu.acc = 72 ∧
    (completeLine ({ Vtu.zero with line := 227, acc := 1232 }, [])).1.line = 0 ∧
    (completeLine ({ Vtu.zero with line := 227, acc := 1232 }, [])).1.frame = 1 := by decide

/-- Compare match (95_test_vectors.md section 3.11): compare 3 matches on line 3 and not before. -/
theorem test_compare_match :
    (memRead 0x04000004#32 .half (memWrite 0x04000005#32 .byte 3#32 State.reset)).1 = 0x0300#32 ∧
    (memRead 0x04000004#32 .half (advance 3696 (memWrite 0x04000005#32 .byte 3#32 State.reset))).1 = 0x0304#32 := by decide

/-- `Colour` (48_video_timing_unit.md R322, its examples). -/
theorem test_colour :
    colour 0x7FFF#16 = { r := 255#8, g := 255#8, b := 255#8 } ∧ colour 0x001F#16 = { r := 255#8, g := 0#8, b := 0#8 } ∧
    colour 0x0421#16 = { r := 8#8, g := 8#8, b := 8#8 } ∧ colour 0xC210#16 = { r := 131#8, g := 131#8, b := 131#8 } := by decide

/-- Scenario C: mode 3, pixel (0, 0) white, pixel (1, 0) red; forced blank and the diagnostic colour (95_test_vectors.md). -/
theorem test_render :
    renderPixel (word 0x06000000 0x001F7FFF#32 State.reset).mem 3#16 0 0 =
      { r := 255#8, g := 255#8, b := 255#8 } ∧
    renderPixel (word 0x06000000 0x001F7FFF#32 State.reset).mem 3#16 0 1 =
      { r := 255#8, g := 0#8, b := 0#8 } ∧
    renderPixel [] 0x0083#16 1 0 = { r := 255#8, g := 255#8, b := 255#8 } ∧
    renderPixel [] 5#16 2 0 = { r := 255#8, g := 0#8, b := 255#8 } := by decide

/-- Mode 4 of 95_test_vectors.md section 3.11: the palette, and the page bit. -/
theorem test_render_mode4 :
    renderPixel (word 0x06000000 1#32 (word 0x05000000 0x03E00000#32 State.reset)).mem 4#16 0 0 =
      { r := 0#8, g := 255#8, b := 0#8 } ∧
    renderPixel (word 0x0600A000 0x0100#32 (word 0x05000000 0x03E00000#32 State.reset)).mem 0x14#16 0 1 =
      { r := 0#8, g := 255#8, b := 0#8 } := by decide

/-- Scenario D: the input latch is active low, and identifier 10 is ignored. -/
theorem test_buttons :
    (memRead 0x04000130#32 .half (setButton 3 true (setButton 0 true State.reset))).1 = 0xFFF6#32 ∧
    (memRead 0x04000130#32 .half (setButton 0 false (setButton 3 true (setButton 0 true State.reset)))).1 = 0xFFF7#32 ∧
    setButton 10 true State.reset = State.reset := by
  refine ⟨by decide, by decide, rfl⟩

/-- Power-on is construction followed by `reset()` (10_state.md R47). -/
theorem test_powerOn : powerOn = State.reset := rfl

/-- Scenario A's companion: a boot image keeps what it does not reach, and warns of nothing. -/
theorem test_load_boot :
    (loadBootImage [9#8, 9#8] (loadBootImage [1#8, 2#8, 3#8, 4#8, 5#8, 6#8, 7#8, 8#8] State.reset)).mem.load 0 .word = 0x04030909#32 ∧
    (loadBootImage [9#8, 9#8] (loadBootImage [1#8, 2#8, 3#8, 4#8, 5#8, 6#8, 7#8, 8#8] State.reset)).mem.load 4 .word = 0x08070605#32 ∧
    (loadBootImage [9#8, 9#8] State.reset).warnings = [] := by decide

/-- The banking instance of 95_test_vectors.md P5: R13 of irq and of fiq are two registers, R7 is one. -/
theorem test_banking :
    (setMode 0x12#5 ((setMode 0x11#5 ((setMode 0x12#5 State.reset).setReg 13#4 0x1200#32)).setReg 13#4 0x1100#32)).getReg 13#4 =
      0x1200#32 ∧
    (setMode 0x12#5 ((setMode 0x11#5 ((setMode 0x12#5 State.reset).setReg 7#4 0x1207#32)).setReg 7#4 0x1107#32)).getReg 7#4 =
      0x1107#32 := by decide

/-- `reset()` keeps DISPCNT, the stored compare value and the button mask (95_test_vectors.md section 3.12). -/
theorem test_reset_keeps :
    (memRead 0x04000004#32 .half (resetMachine (memWrite 0x04000005#32 .byte 100#32 State.reset))).1 = 0x6400#32 ∧
    (memRead 0x04000130#32 .half (resetMachine (setButton 0 true State.reset))).1 = 0xFFFE#32 := by decide

/-- The first step after reset with nothing loaded fetches 0 and is a no-op (95_test_vectors.md section 3.9). -/
theorem test_first_step : gives State.reset [(0#4, 0#32)] 0b0000 false 4#32 = true := by decide

/-- What `withFetchWord` stores is what the next step runs (log 4): wide and narrow, as the first instruction after reset. -/
theorem test_withFetchWord :
    (fetchInstr (State.reset.withFetchWord 32 0xE2800001)).1 = .instr (.wAddImm .al false 0#4 0#4 0#4 1#8) ∧
    (fetchInstr (State.reset.withFetchWord 16 0x2380)).1 = .instr (.nMovImm8 3#4 0x80#8) := by decide

/-- A misaligned wide `pc` fetches the rotated word, with a warning (95_test_vectors.md section 3.9). -/
theorem test_misaligned_fetch :
    fetchInstr ((word 0x02000000 0x0001E3A0#32 State.reset).setPc 0x02000002#32) =
      (.instr (.wMovImm .al false 0#4 0#4 1#8),
       ((word 0x02000000 0x0001E3A0#32 State.reset).warn (.misaligned 0x02000002#32 .word)).setPc 0x02000006#32) := rfl

/-! ## Witnesses: for every statement with hypotheses, operands and states that meet all of them -/

theorem witness_DecodeReadsBackEveryEncoding :
    (Instr.wAndImm .nv true 15#4 15#4 15#4 0xFF#8).wellFormed = true ∧ (Instr.nSubReg 7#4 7#4 7#4).wellFormed = true ∧
    (Instr.nMovHigh 15#4 15#4).wellFormed = true ∧ (Instr.nBlSuffix 0x7FF#11).wellFormed = true := by decide

theorem witness_EncodeReadsBackEveryPattern :
    decode (.wide 0xE151F002#32) = .instr (.wCmpShi .al 1#4 0#5 .lsl 2#4) ∧
    decode (.narrow 0x4747#16) = .instr (.nBx 8#4) := by decide

theorem witness_WideReservedPatterns :
    decode (.wide 0xE0000090#32) = .reserved .multiplySpace ∧ decode (.wide 0xE10F0000#32) = .reserved .statusTransfer ∧
    decode (.wide 0xE7F000F0#32) = .reserved .undefinedSpace ∧ decode (.wide 0xE8BD8000#32) = .reserved .blockTransfer ∧
    decode (.wide 0xED900000#32) = .reserved .coprocessorTransfer ∧ decode (.wide 0xEE010F10#32) = .reserved .coprocessorOperation ∧
    condOf 0xF3A00001#32 = .nv := by decide

theorem witness_NarrowReservedPatterns :
    decode (.narrow 0x5008#16) = .reserved .registerOffsetTransfer ∧ decode (.narrow 0x8808#16) = .reserved .halfwordOrStackTransfer ∧
    decode (.narrow 0xB500#16) = .reserved .addressOrPushPop ∧ decode (.narrow 0xC000#16) = .reserved .multipleTransfer ∧
    decode (.narrow 0xDE00#16) = .reserved .branchAlways ∧ decode (.narrow 0xE800#16) = .reserved .branchLinkExchange ∧
    decode (.narrow 0x4340#16) = .reserved .multiplySlot ∧ decode (.narrow 0x4780#16) = .reserved .branchExchangeHigh := by decide

/-- Each width, at the first word of EWRAM; the wide one also at the last word a fetch can hit there. -/
theorem witness_StepRunsTheDecodedInstruction :
    ((wide 0b0000 [] 0xE2800001#32).flagT = false ∧ (wide 0b0000 [] 0xE2800001#32).pc.toNat % 4 = 0 ∧
      mapAddr 0 (wide 0b0000 [] 0xE2800001#32).pc .word = .hit .ewram 0 ∧ mapAddr 0 0x0203FFFC#32 .word = .hit .ewram 0x3FFFC ∧
      decode (.wide ((wide 0b0000 [] 0xE2800001#32).mem.get (0x02000000 + 3) ++ (wide 0b0000 [] 0xE2800001#32).mem.get (0x02000000 + 2) ++
        (wide 0b0000 [] 0xE2800001#32).mem.get (0x02000000 + 1) ++ (wide 0b0000 [] 0xE2800001#32).mem.get 0x02000000)) =
        .instr (.wAddImm .al false 0#4 0#4 0#4 1#8)) ∧
    ((narrow 0b0000 [] 0x2380#16).flagT = true ∧ (narrow 0b0000 [] 0x2380#16).pc.toNat % 2 = 0 ∧
      mapAddr 0 (narrow 0b0000 [] 0x2380#16).pc .half = .hit .ewram 0 ∧
      decode (.narrow ((narrow 0b0000 [] 0x2380#16).mem.get (0x02000000 + 1) ++ (narrow 0b0000 [] 0x2380#16).mem.get 0x02000000)) =
        .instr (.nMovImm8 3#4 0x80#8)) := by decide

/-- Both widths; a misaligned, an out-of-bounds and an unmapped `pc` among them. -/
theorem witness_FetchIsAnOrdinaryBusRead :
    (State.reset.setPc 0x02000002#32).flagT = false ∧ mapAddr 0 0x00004000#32 .word = .outOfBounds .boot ∧
    mapAddr 0 (0xFFFFFFFE#32 &&& 0xFFFFFFFC#32) .word = .unmapped ∧ (start true 0 []).flagT = true := by decide

theorem witness_ReservedPatternStepIsANoOp :
    (fetchInstr (wide 0b0000 [(0#4, 9#32)] 0xE0000291#32)).1 = .reserved .multiplySpace ∧
    (fetchInstr (narrow 0b0000 [] 0xDE04#16)).1 = .reserved .branchAlways := by decide

theorem witness_FailedConditionHasNoEffect :
    conditionOf (.wMovImm .eq false 0#4 0#4 1#8) = some .eq ∧ condHolds .eq State.reset = false ∧
    condHolds (condOf 0x03A00001#32) State.reset = false ∧ condHolds (condOf 0xF3A00001#32) State.reset = false ∧
    (fetch (wide 0b0000 [] 0x03A00001#32)).1 = .wide 0x03A00001#32 ∧
    condHolds (condOf 0x03A00001#32) (wide 0b0000 [] 0x03A00001#32) = false := by decide

/-- The amounts at which the clauses meet: 0, 1 and 31. -/
theorem witness_ShiftByImmediateAmount : (0 < 32) ∧ (1 < 32) ∧ (31 < 32) := by decide

/-- The amounts at which the clauses meet: 0, 1, 31, 32, 33 and 255. -/
theorem witness_ShiftByRegisterAmount :
    (0 : Nat) < 256 ∧ ((1 : Nat) < 256 ∧ (1 : Nat) ≠ 0) ∧ ((31 : Nat) < 256 ∧ (31 : Nat) ≠ 0) ∧ ((32 : Nat) < 256 ∧ (32 : Nat) ≠ 0) ∧
    ((33 : Nat) < 256 ∧ (33 : Nat) ≠ 0) ∧ ((255 : Nat) < 256 ∧ (255 : Nat) ≠ 0) := by decide

/-- The three operand forms with the values they evaluate to, in a state in which the condition holds. -/
theorem witness_WideLogicalResults :
    condHolds .al (start false 0 [(2#4, 3#32)]) = true ∧
    (Op2.imm 1#4 2#8).eval (start false 0 [(2#4, 3#32)]) = (0x80000000#32, true) ∧
    (Op2.shi 1#5 .lsr 2#4).eval (start false 0 [(2#4, 3#32)]) = (1#32, true) ∧
    (Op2.shr 2#4 .lsl 2#4).eval (start false 0 [(2#4, 3#32)]) = (24#32, false) := by decide

theorem witness_WideMoveResults :
    condHolds .eq (start false 0b0100 [(2#4, 3#32)]) = true ∧
    (Op2.imm 0#4 0xFF#8).eval (start false 0b0100 [(2#4, 3#32)]) = (0xFF#32, false) ∧
    (Op2.shi 0#5 .ror 2#4).eval (start false 0b0100 [(2#4, 3#32)]) = (1#32, true) ∧
    (Op2.shr 0#4 .asr 2#4).eval (start false 0b0100 [(2#4, 3#32)]) = (3#32, false) := by decide

theorem witness_WideAdditionResults :
    condHolds .cs (start false 0b0010 [(2#4, 3#32)]) = true ∧
    (Op2.imm 0#4 0xFF#8).eval (start false 0b0010 [(2#4, 3#32)]) = (0xFF#32, true) ∧
    (Op2.shi 31#5 .lsl 2#4).eval (start false 0b0010 [(2#4, 3#32)]) = (0x80000000#32, true) ∧
    (Op2.shr 2#4 .ror 2#4).eval (start false 0b0010 [(2#4, 3#32)]) = (0x60000000#32, false) := by decide

theorem witness_WideSubtractionResults :
    condHolds .mi (start false 0b1000 [(2#4, 3#32)]) = true ∧
    (Op2.imm 2#4 0xFF#8).eval (start false 0b1000 [(2#4, 3#32)]) = (0xF000000F#32, true) ∧
    (Op2.shi 0#5 .asr 2#4).eval (start false 0b1000 [(2#4, 3#32)]) = (0#32, false) ∧
    (Op2.shr 2#4 .lsr 2#4).eval (start false 0b1000 [(2#4, 3#32)]) = (0#32, false) := by decide

theorem witness_WideTestResults :
    condHolds .vs (start false 0b0001 [(2#4, 3#32)]) = true ∧
    (Op2.imm 15#4 0xFF#8).eval (start false 0b0001 [(2#4, 3#32)]) = (0x3FC#32, false) ∧
    (Op2.shi 0#5 .lsl 2#4).eval (start false 0b0001 [(2#4, 3#32)]) = (3#32, false) ∧
    (Op2.shr 15#4 .lsl 2#4).eval (start false 0b0001 [(2#4, 3#32)]) = (3#32, false) := by decide

theorem witness_WideCompareResults :
    condHolds .le (start false 0b0100 [(2#4, 3#32)]) = true ∧
    (Op2.imm 0#4 10#8).eval (start false 0b0100 [(2#4, 3#32)]) = (10#32, false) ∧
    (Op2.shi 1#5 .ror 2#4).eval (start false 0b0100 [(2#4, 3#32)]) = (0x80000001#32, true) ∧
    (Op2.shr 2#4 .asr 2#4).eval (start false 0b0100 [(2#4, 3#32)]) = (0#32, false) := by decide

/-- One comparison of each of the six forms. -/
theorem witness_ComparisonsOrderTheirOperands :
    condHolds .al (start false 0 [(0#4, 9#32), (1#4, 10#32)]) = true ∧ (start false 0 [(0#4, 9#32), (1#4, 10#32)]).getReg 0#4 = 9#32 ∧
    ((Op2.imm 0#4 10#8).eval (start false 0 [(0#4, 9#32), (1#4, 10#32)])).1 = 10#32 ∧
    ((Op2.shi 0#5 .lsl 1#4).eval (start false 0 [(0#4, 9#32), (1#4, 10#32)])).1 = 10#32 ∧
    ((Op2.shr 2#4 .lsl 1#4).eval (start false 0 [(0#4, 9#32), (1#4, 10#32)])).1 = 10#32 ∧
    (start false 0 [(0#4, 9#32), (1#4, 10#32)]).getReg 1#4 = 10#32 ∧ BitVec.ofNat 32 (10#8).toNat = 10#32 := by decide

theorem witness_WideBranchesGoToTheirTargets : condHolds .al State.reset = true ∧ condHolds .ne State.reset = true := by decide

theorem witness_BranchExchangeSelectsTheWidth : condHolds .pl State.reset = true := by decide

theorem witness_SoftwareInterruptReturnsToTheLink : condHolds .vc State.reset = true := by decide

theorem witness_WideLoadResults :
    condHolds .al State.reset = true ∧ SdtOffset.imm 0xFFF#12 = .imm 0xFFF#12 ∧ SdtOffset.reg 31#5 .ror 15#4 = .reg 31#5 .ror 15#4 := by
  decide

theorem witness_WideStoreResults :
    condHolds .ls State.reset = true ∧ SdtOffset.imm 0#12 = .imm 0#12 ∧ SdtOffset.reg 0#5 .lsl 0#4 = .reg 0#5 .lsl 0#4 := by decide

/-- The low registers at both ends of their range: the operands of every narrow statement that asks for them. -/
theorem witness_low_registers :
    Reg.isLow 0#4 = true ∧ Reg.isLow 7#4 = true ∧ (∃ rs rn rd : Reg, Reg.isLow rs = true ∧ Reg.isLow rn = true ∧ Reg.isLow rd = true) :=
  ⟨by decide, by decide, 0#4, 7#4, 3#4, by decide, by decide, by decide⟩

theorem witness_NarrowShiftsByImmediate : Reg.isLow 3#4 = true ∧ Reg.isLow 2#4 = true := by decide

theorem witness_NarrowAddAndSubtract : Reg.isLow 0#4 = true ∧ Reg.isLow 7#4 = true ∧ Reg.isLow 4#4 = true := by decide

theorem witness_NarrowMoveAndCompareImmediate : Reg.isLow 7#4 = true := by decide

theorem witness_NarrowLogic : Reg.isLow 7#4 = true ∧ Reg.isLow 0#4 = true := by decide

/-- The amount is the low byte: 4 of 0x104, and 255 of 0xFF. -/
theorem witness_NarrowShiftsByRegister :
    Reg.isLow 3#4 = true ∧ Reg.isLow 2#4 = true ∧ 4 = ((start true 0 [(3#4, 0x104#32)]).getReg 3#4).toNat % 256 ∧
    255 = ((start true 0 [(3#4, 0xFF#32)]).getReg 3#4).toNat % 256 := by decide

theorem witness_NarrowCarryArithmetic : Reg.isLow 1#4 = true ∧ Reg.isLow 1#4 = true := by decide

theorem witness_NarrowTests : Reg.isLow 5#4 = true ∧ Reg.isLow 6#4 = true := by decide

theorem witness_NarrowLoads : Reg.isLow 0#4 = true ∧ Reg.isLow 7#4 = true := by decide

theorem witness_NarrowStores : Reg.isLow 7#4 = true ∧ Reg.isLow 7#4 = true := by decide

/-- Each of the fourteen conditions, taken in one state and not taken in another. -/
theorem witness_NarrowConditionalBranches :
    (start true 0b0100 []).flagZ = true ∧ (start true 0b0000 []).flagZ = false ∧ (start true 0b0010 []).flagC = true ∧
    (start true 0b0000 []).flagC = false ∧ (start true 0b1000 []).flagN = true ∧ (start true 0b0000 []).flagN = false ∧
    (start true 0b0001 []).flagV = true ∧ (start true 0b0000 []).flagV = false ∧
    ((start true 0b0010 []).flagC = true ∧ (start true 0b0010 []).flagZ = false) ∧
    ((start true 0b0110 []).flagC = false ∨ (start true 0b0110 []).flagZ = true) ∧
    (start true 0b1001 []).flagN = (start true 0b1001 []).flagV ∧ (start true 0b1000 []).flagN ≠ (start true 0b1000 []).flagV ∧
    ((start true 0b1001 []).flagZ = false ∧ (start true 0b1001 []).flagN = (start true 0b1001 []).flagV) ∧
    ((start true 0b0001 []).flagZ = true ∨ (start true 0b0001 []).flagN ≠ (start true 0b0001 []).flagV) := by decide

theorem witness_NarrowCallPair :
    ((start true 0 []).setPc 0x02000002#32).flagT = true ∧ ((start true 0 []).setPc 0x02000002#32).pc = 0x02000000#32 + 2#32 ∧
    (0x02000000#32).toNat % 2 = 0 := by decide

theorem witness_OnlyBranchExchangeWritesT :
    ∃ t, exec (.wBx .al 0#4) (start false 0 [(0#4, 0x03000001#32)]) = .next t ∧ t.flagT ≠ (start false 0 [(0#4, 0x03000001#32)]).flagT :=
  ⟨_, rfl, by decide⟩

theorem witness_StepLeavesModeAndShadows : ∃ t, step State.reset = .next t ∧ ∀ r : Reg, phys State.reset.bank r ≠ .r13irq :=
  ⟨_, rfl, by decide⟩

/-- A step that stores, and an address at each end of the two read-only windows. -/
theorem witness_StepLeavesReadOnlyRegions :
    (∃ t, step (narrow 0b0000 [(2#4, 0xFFFFFFFF#32)] 0x601A#16) = .next t) ∧ (0 < 0x4000) ∧ (0x3FFF < 0x4000) ∧
    (0x08000000 ≤ 0x08000000 ∧ 0x08000000 < 0x0A000000) ∧ (0x08000000 ≤ 0x09FFFFFF ∧ 0x09FFFFFF < 0x0A000000) :=
  ⟨⟨_, rfl⟩, by decide, by decide, by decide, by decide⟩

/-- A hit of each width, and both ways to miss; the aligned address of a misaligned one. -/
theorem witness_MemReadLaw :
    0x02000020#32 = BitVec.ofNat 32 ((0x02000023#32).toNat - (0x02000023#32).toNat % Width.bytes .word) ∧
    mapAddr 0 0x02000020#32 .word = .hit .ewram 0x20 ∧ mapAddr 0 0x00003FFE#32 .half = .hit .boot 0x3FFE ∧
    mapAddr 0 0x0E00FFFF#32 .byte = .hit .save 0xFFFF ∧ mapAddr 0 0x00004000#32 .word = .outOfBounds .boot ∧
    mapAddr 0 0x10000000#32 .half = .unmapped := by decide

/-- Offsets at both ends of the `IO` region and beside the masked ones; a hit of plain storage, of `IO` below and above offset 8, and
the two read-only regions. -/
theorem witness_MemWriteLaw :
    (0x000 < 0x400 ∧ 0x003 < 0x400 ∧ 0x008 < 0x400 ∧ 0x132 < 0x400 ∧ 0x3FF < 0x400) ∧
    0x02000020#32 = BitVec.ofNat 32 ((0x02000022#32).toNat - (0x02000022#32).toNat % Width.bytes .word) ∧
    (mapAddr 0 0x02000020#32 .word = .hit .ewram 0x20 ∧ Region.ewram ≠ .boot ∧ Region.ewram ≠ .cart ∧ Region.ewram ≠ .io) ∧
    mapAddr 0 0x00000000#32 .word = .hit .boot 0 ∧ mapAddr 12 0x08000008#32 .word = .hit .cart 8 ∧
    (mapAddr 0 0x04000006#32 .half = .hit .io 6 ∧ 6 < 8) ∧ (mapAddr 0 0x04000008#32 .word = .hit .io 8 ∧ 8 ≤ 8) := by decide

theorem witness_WriteThenReadRoundTrip :
    (0x02000020#32).toNat % Width.bytes .word = 0 ∧ mapAddr 0 0x02000020#32 .word = .hit .ewram 0x20 ∧ Region.ewram ≠ .boot ∧
    Region.ewram ≠ .cart ∧ mapAddr 0 0x04000000#32 .word = .hit .io 0 ∧ (∀ i, i < Width.bytes .word → ioMask (0 + i) = 0xFF#8) ∧
    mapAddr 0 0x04000005#32 .byte = .hit .io 5 ∧ (∀ i, i < Width.bytes .byte → ioMask (5 + i) = 0xFF#8) := by decide

theorem witness_AddressMapLaw :
    (0 ≤ 0x02000000) ∧ (0x02000000 ≤ 0x02000000) ∧ mapAddr 0x02000000 0x09FFFFFC#32 .word = .hit .cart 0x01FFFFFC ∧
    (0 < Region.length 0 .boot ∧ 0 < Region.length 0x02000000 .cart) := by decide

/-- No threshold, the first one, and the one that wraps the frame. -/
theorem witness_AdvanceDrivesTheScanlineClock :
    (State.reset.vtu.line < 228 ∧ 0 = (State.reset.vtu.acc + 1231) / 1232) ∧ 1 = (State.reset.vtu.acc + 1232) / 1232 ∧
    228 = (State.reset.vtu.acc + 280896) / 1232 := by decide

/-- Exactly one completed line, at both ends of the range. -/
theorem witness_CompletedLineIsRendered :
    (1232 ≤ State.reset.vtu.acc + 1232 ∧ State.reset.vtu.acc + 1232 < 2464) ∧ State.reset.vtu.acc + 2463 < 2464 ∧
    0#16 = State.reset.mem.get 0x04000001 ++ State.reset.mem.get 0x04000000 ∧
    ∃ colourOf : Nat → Pixel, ∀ k, colourOf k =
      { r := BitVec.ofNat 8 (k % 32 * 255 / 31)
        g := BitVec.ofNat 8 (k / 32 % 32 * 255 / 31)
        b := BitVec.ofNat 8 (k / 1024 % 32 * 255 / 31) } :=
  ⟨by decide, by decide, by decide, _, fun _ => rfl⟩

theorem witness_StepKeepsTheInvariant :
    (∃ t, step State.reset = .next t) ∧ State.reset.MemoryCanonical ∧ State.reset.MemoryMapped ∧ State.reset.ClockInRange ∧
    State.reset.CartInRange ∧ State.reset.DisplayStatusConsistent ∧ State.reset.InputMirrored ∧ (start true 0 []).PcAligned :=
  ⟨⟨_, rfl⟩, by decide, by decide, by decide, by decide, by decide, by decide, by decide⟩

theorem witness_ResetValues : resetMachine State.reset = resetMachine State.reset := rfl

theorem witness_ResetIsIdempotent : (word 0x02000000 0xCAFEBABE#32 State.reset).MemoryCanonical := by decide

/-- The identifiers at which the clauses meet: -1, 0, 9 and 10. -/
theorem witness_SetButtonMirrorsTheMask :
    ((0 : Int) ≤ 0 ∧ (0 : Int) ≤ 9) ∧ ((0 : Int) ≤ 9 ∧ (9 : Int) ≤ 9) ∧ ¬ ((0 : Int) ≤ -1 ∧ (-1 : Int) ≤ 9) ∧
    ¬ ((0 : Int) ≤ 10 ∧ (10 : Int) ≤ 9) := by decide

/-- The shortest image, and an image of each region's capacity and of one byte more. -/
theorem witness_ImageLoadsWriteTheirRegions :
    ∀ n ∈ [1, 0x4000, 0x4001, 0x10000, 0x10001, 0x02000000, 0x02000001], ∃ bytes : List Byte, bytes.length = n ∧ 1 ≤ bytes.length := by
  intro n h
  have hn : 1 ≤ n := by revert n; decide
  exact ⟨List.replicate n 0xAA#8, List.length_replicate, hn.trans_eq List.length_replicate.symm⟩

/-- An image of exactly the capacity records no warning, and one byte more records one (R348, R349, R350). -/
theorem test_image_capacity (bytes : List Byte) :
    (bytes.length = 0x4000 → (loadBootImage bytes State.reset).warnings = []) ∧
    (bytes.length = 0x4001 → (loadBootImage bytes State.reset).warnings = [.oversizeImage .boot 0x4001 0x4000]) ∧
    (bytes.length = 0x02000000 → (loadCartridgeImage bytes State.reset).warnings = []) ∧
    (bytes.length = 0x02000001 →
      (loadCartridgeImage bytes State.reset).warnings = [.oversizeImage .cartridge 0x02000001 0x02000000]) ∧
    (bytes.length = 0x10000 → (loadSave bytes State.reset).warnings = []) ∧
    (bytes.length = 0x10001 → (loadSave bytes State.reset).warnings = [.oversizeImage .save 0x10001 0x10000]) := by
  refine ⟨?_, ?_, ?_, ?_, ?_, ?_⟩ <;> intro h <;>
    simp [loadBootImage, loadSave, loadCartridgeImage, State.warnOversize, State.warn, State.reset, cartCapacity, h]

/-- The indices and widths at which the clauses meet: -1, 0, 15 and 16; 0, 3 and 8; -1; and the first and the last flag and bank. -/
theorem witness_HostAccessAndItsContract :
    ((0 : Int) ≤ 0 ∧ (0 : Int) ≤ 15) ∧ ((0 : Int) ≤ 15 ∧ (15 : Int) ≤ 15) ∧ ¬ ((0 : Int) ≤ -1 ∧ (-1 : Int) ≤ 15) ∧
    ¬ ((0 : Int) ≤ 16 ∧ (16 : Int) ≤ 15) ∧ ((0 : Nat) ≠ 1 ∧ (0 : Nat) ≠ 2 ∧ (0 : Nat) ≠ 4) ∧
    ((3 : Nat) ≠ 1 ∧ (3 : Nat) ≠ 2 ∧ (3 : Nat) ≠ 4) ∧ (-1 : Int) < 0 ∧
    31 = StatusFlag.n.bit ∧ 5 = StatusFlag.t.bit ∧ Bank.fiq ≠ .usr ∧ Bank.und ≠ .usr := by decide


end Sys2Proof.Tests
end

section
/-! PROOF. The statements of 10_state.md: what `reset()` writes and what it leaves (R46, R47), and what R15 reads as while an
instruction executes (R28). -/

namespace Sys2Proof.Machine

/-! ## What the cleared parts of the state hold (10_state.md R46) -/

@[simp] theorem RegFile.get_zero (q : PhysReg) : RegFile.zero.get q = 0#32 := by cases q <;> rfl

/-- Every cell of the cleared frame buffer is (0, 0, 0). -/
theorem Vtu.zero_cell (y x : Nat) (hy : y < 160) (hx : x < 240) :
    (Vtu.zero.fb[y]'hy)[x]'hx = { r := 0#8, g := 0#8, b := 0#8 } := by
  simp [Vtu.zero]

/-- At line 0, which is visible, the only status bit that can be set is the match with `compare`
(48_video_timing_unit.md R313). -/
theorem statusBits_line_zero (c : Byte) : statusBits 0 c = if c = 0#8 then 4#8 else 0#8 := by
  have hmatch : 0 = c.toNat ↔ c = 0#8 := by rw [eq_comm, ← BitVec.toNat_inj]; rfl
  simp [statusBits, hmatch, Config.visH]

/-! ## The bytes of memory after a reset (70_reset_and_hazards.md R400, R401) -/

theorem resetMachine_mem (s : State) : (resetMachine s).mem = mirrorButtons s.buttons (vtuRefresh 0 s.mem) := rfl

/-- The mirror of the button mask writes the two bytes of KEYINPUT only. -/
theorem get_mirrorButtons_of_ne (b : BitVec 16) (m : Memory) (a : Nat) (h0 : a ≠ 0x04000130) (h1 : a ≠ 0x04000131) :
    (mirrorButtons b m).get a = m.get a := by
  rw [get_mirrorButtons, if_neg h1, if_neg h0]

/-- VCOUNT reads 0 after a reset, and DISPSTAT keeps its control bits and has the status bits of line 0. -/
theorem resetMachine_display (s : State) :
    (resetMachine s).mem.get 0x04000006 = 0#8 ∧ (resetMachine s).mem.get 0x04000007 = 0#8 ∧
    (resetMachine s).mem.get 0x04000004 =
      (s.mem.get 0x04000004 &&& 0xF8#8) ||| (if s.mem.get 0x04000005 = 0#8 then 4#8 else 0#8) := by
  rw [resetMachine_mem, get_mirrorButtons_of_ne _ _ _ (by decide) (by decide),
    get_mirrorButtons_of_ne _ _ _ (by decide) (by decide), get_mirrorButtons_of_ne _ _ _ (by decide) (by decide),
    ← statusBits_line_zero, get_vtuRefresh, get_vtuRefresh, get_vtuRefresh]
  exact ⟨rfl, rfl, rfl⟩

/-- A reset changes no byte of memory but those of VCOUNT, KEYINPUT and the low byte of DISPSTAT. -/
theorem resetMachine_mem_frame (s : State) (b : Nat)
    (h : b ∉ [0x04000004, 0x04000006, 0x04000007, 0x04000130, 0x04000131]) :
    (resetMachine s).mem.get b = s.mem.get b := by
  simp only [List.mem_cons, List.not_mem_nil, or_false, not_or] at h
  obtain ⟨h4, h6, h7, hlow, hhigh⟩ := h
  rw [resetMachine_mem, get_mirrorButtons_of_ne _ _ _ hlow hhigh, get_vtuRefresh_of_ne _ _ _ h4 h6 h7]

/-! ## The statements -/

/-- Settles O56: power-on evaluates to the reset state; from any state, the parts of the state a reset overwrites and those it
leaves are read off one by one, and memory byte by byte. -/
theorem resetValues : Obligations.ResetValues := by
  refine ⟨rfl, ?_⟩
  rintro s t rfl
  obtain ⟨hcount, hcountHigh, hstatus⟩ := resetMachine_display s
  exact ⟨RegFile.get_zero, rfl, rfl, rfl, rfl, rfl, rfl, rfl, rfl, rfl, rfl, Vtu.zero_cell, hcount, hcountHigh, hstatus,
    keyinput_mirrorButtons s.buttons _, resetMachine_mem_frame s, rfl, rfl, rfl⟩

/-- Settles O6: the fetch leaves `pc` alone but for its warnings, R15 names `pc` in every bank, and `pc` was advanced by the
width T selects. -/
theorem readingR15GivesTheAdvancedPc : Obligations.ReadingR15GivesTheAdvancedPc := by
  intro s
  rw [fetchInstr_state_eq, State.getReg_pc, State.setPc_pc, State.instrBytes]

end Sys2Proof.Machine
end

section
/-! PROOF. The statements of 20_memory.md: the address map as equivalences (R61, R62), the value and the range of a bus read (R65,
R71, R75), and the bytes a bus write leaves (R80, R82; 48_video_timing_unit.md R315). -/

namespace Sys2Proof.Machine

/-! ## The address map (20_memory.md R61, R62) -/

/-- A hit is exactly an address whose bytes fit in the region from its offset on. -/
theorem mapAddr_eq_hit_iff (len : Nat) (hlen : len ≤ 0x02000000) (a : Word) (n : Width) (r : Region) (off : Nat) :
    mapAddr len a n = .hit r off ↔ a.toNat = r.base + off ∧ off + n.bytes ≤ r.length len := by
  constructor
  · intro h
    exact (mapAddr_hit len a n r off h).2
  · rintro ⟨ha, hfit⟩
    have hsel : regionOf (a.toNat / 2 ^ 24) = some r := by
      rw [ha]
      exact regionOf_of_offset len hlen r off (Nat.lt_of_lt_of_le (Nat.lt_add_of_pos_right (Width.bytes_pos n)) hfit)
    have hoff : a.toNat - r.base = off := by omega
    rw [mapAddr_eq len a n r hsel, hoff, if_pos hfit]

/-- An address is out of bounds exactly where its selector byte names a region its bytes do not fit in. -/
theorem mapAddr_eq_outOfBounds_iff (len : Nat) (a : Word) (n : Width) (r : Region) :
    mapAddr len a n = .outOfBounds r ↔
      regionOf (a.toNat / 2 ^ 24) = some r ∧ r.length len < a.toNat - r.base + n.bytes := by
  constructor
  · intro h
    obtain ⟨hsel, hfit⟩ := mapAddr_outOfBounds len a n r h
    exact ⟨hsel, Nat.lt_of_not_le hfit⟩
  · rintro ⟨hsel, hfit⟩
    rw [mapAddr_eq len a n r hsel, if_neg (Nat.not_le_of_lt hfit)]

/-- No address lies in two regions: its selector byte names one. -/
theorem region_offset_unique (len : Nat) (hlen : len ≤ 0x02000000) (r q : Region) (x y : Nat) (hx : x < r.length len)
    (hy : y < q.length len) (h : r.base + x = q.base + y) : r = q ∧ x = y := by
  have hr := regionOf_of_offset len hlen r x hx
  rw [h, regionOf_of_offset len hlen q y hy, Option.some.injEq] at hr
  subst hr
  exact ⟨rfl, Nat.add_left_cancel h⟩

/-- Settles O50: the selector byte of an address names at most one region, a hit's selector byte names its own, and where a
selector byte names a region the bytes fit or they do not. -/
theorem addressMapLaw : Obligations.AddressMapLaw := by
  intro len hlen
  refine ⟨fun r => by cases r <;> rfl, fun a n r => ?_, mapAddr_eq_hit_iff len hlen, fun a n => ?_,
    region_offset_unique len hlen⟩
  · rw [mapAddr_eq_outOfBounds_iff, regionOf_eq_some, and_comm (a := r = .cart)]
  · rw [mapAddr_unmapped_iff, regionOf_eq_none]

/-! ## The value of a bus read (20_memory.md R65, R71, R72, R75) -/

theorem toNat_append_byte {k : Nat} (hi : BitVec k) (lo : Byte) : (hi ++ lo).toNat = lo.toNat + 256 * hi.toNat := by
  rw [BitVec.toNat_append, ← Nat.shiftLeft_add_eq_or_of_lt lo.isLt, Nat.shiftLeft_eq]
  omega

theorem load_byte_toNat (m : Memory) (a : Nat) : (m.load a .byte).toNat = (m.get a).toNat :=
  BitVec.toNat_setWidth_of_le (by decide)

theorem load_half_toNat (m : Memory) (a : Nat) :
    (m.load a .half).toNat = (m.get a).toNat + 256 * (m.get (a + 1)).toNat := by
  rw [← toNat_append_byte]
  exact BitVec.toNat_setWidth_of_le (by decide)

theorem load_word_toNat (m : Memory) (a : Nat) :
    (m.load a .word).toNat = (m.get a).toNat + 256 * (m.get (a + 1)).toNat + 65536 * (m.get (a + 2)).toNat +
      16777216 * (m.get (a + 3)).toNat := by
  simp only [Memory.load, toNat_append_byte]
  omega

theorem ror32_eq_rotateRight (v : Word) (k : Nat) (h : k < 32) : ror32 v k = v.rotateRight k := by
  rw [ror32, BitVec.rotateRight_def, Nat.mod_eq_of_lt h]

@[simp] theorem rotateRead_byte (a v : Word) : rotateRead a v .byte = v := rfl
@[simp] theorem rotateRead_half (a v : Word) : rotateRead a v .half = v := rfl

theorem rotateRead_word (a v : Word) : rotateRead a v .word = v.rotateRight (8 * (a.toNat % 4)) := by
  have hlow : (a.extractLsb' 0 2).toNat = a.toNat % 4 := by simp
  rw [rotateRead, hlow, ror32_eq_rotateRight _ _ (by omega)]

theorem memRead_value_of_hit (a : Word) (n : Width) (s : State) (r : Region) (off : Nat)
    (h : mapAddr s.cartLen (alignTo a n) n = .hit r off) :
    (memRead a n s).1 = rotateRead a (s.mem.load (alignTo a n).toNat n) n := by
  rw [memRead_value, h]

theorem memRead_value_of_no_hit (a : Word) (n : Width) (s : State)
    (h : ∀ r off, mapAddr s.cartLen (alignTo a n) n ≠ .hit r off) :
    (memRead a n s).1 = rotateRead a (Config.openBus (alignTo a n) n) n := by
  rw [memRead_value]
  cases hmap : mapAddr s.cartLen (alignTo a n) n with
  | hit r off => exact absurd hmap (h r off)
  | outOfBounds r => rfl
  | unmapped => rfl

theorem load_lt (m : Memory) (a : Nat) (n : Width) : (m.load a n).toNat < 2 ^ (8 * n.bytes) := by
  cases n with
  | byte => rw [load_byte_toNat]; exact (m.get a).isLt
  | half => rw [load_half_toNat, ← toNat_append_byte]; exact (m.get (a + 1) ++ m.get a).isLt
  | word => exact (m.load a .word).isLt

theorem openBus_byte_toNat (a : Word) : (Config.openBus a .byte).toNat = (Config.openBusByte a).toNat :=
  BitVec.toNat_setWidth_of_le (by decide)

theorem openBus_half_toNat (a : Word) : (Config.openBus a .half).toNat = (Config.openBusHalf a).toNat :=
  BitVec.toNat_setWidth_of_le (by decide)

theorem openBus_lt (a : Word) (n : Width) : (Config.openBus a n).toNat < 2 ^ (8 * n.bytes) := by
  cases n with
  | byte => rw [openBus_byte_toNat]; exact (Config.openBusByte a).isLt
  | half => rw [openBus_half_toNat]; exact (Config.openBusHalf a).isLt
  | word => exact (Config.openBus a .word).isLt

/-- A rotation keeps a value in the range of the width: only a word rotates. -/
theorem rotateRead_lt (a v : Word) (n : Width) (h : v.toNat < 2 ^ (8 * n.bytes)) :
    (rotateRead a v n).toNat < 2 ^ (8 * n.bytes) := by
  cases n with
  | byte => exact h
  | half => exact h
  | word => exact (rotateRead a v .word).isLt

theorem memRead_lt (a : Word) (n : Width) (s : State) : (memRead a n s).1.toNat < 2 ^ (8 * n.bytes) := by
  rw [memRead_value]
  refine rotateRead_lt a _ n ?_
  split
  · exact load_lt _ _ n
  · exact openBus_lt _ n

/-- Settles O47: the state from what a read appends to the log; the value from its load on a hit and from the open bus
otherwise, each taken apart by width. -/
theorem memReadLaw : Obligations.MemReadLaw := by
  rintro a n s al rfl
  rw [← alignTo_eq_ofNat]
  refine ⟨memRead_state a n s, ?hit, ?noHit, memRead_lt a n s⟩
  case hit =>
    intro r off h
    rw [memRead_value_of_hit a n s r off h]
    refine ⟨?_, ?_, ?_⟩ <;> rintro rfl
    · rw [rotateRead_byte, load_byte_toNat]
    · rw [rotateRead_half, load_half_toNat]
    · rw [rotateRead_word, ← load_word_toNat, BitVec.ofNat_toNat, BitVec.setWidth_eq]
  case noHit =>
    intro h
    rw [memRead_value_of_no_hit a n s h]
    refine ⟨?_, ?_, ?_⟩ <;> rintro rfl
    · rw [rotateRead_byte, openBus_byte_toNat]
    · rw [rotateRead_half, openBus_half_toNat]
    · exact rotateRead_word a _

/-! ## The bytes after a bus write (20_memory.md R65, R80, R82; 48_video_timing_unit.md R315) -/

theorem byteOf_eq_ofNat (v : Word) (i : Nat) : byteOf v i = BitVec.ofNat 8 (v.toNat / 256 ^ i) := by
  apply BitVec.eq_of_toNat_eq
  rw [byteOf, BitVec.extractLsb'_toNat, BitVec.toNat_ofNat, Nat.shiftRight_eq_div_pow, Nat.pow_mul]

/-- A write that hits no writable region leaves every byte (R80: dropped). -/
theorem memWrite_mem_of_dropped (a : Word) (n : Width) (v : Word) (s : State)
    (h : ∀ r off, mapAddr s.cartLen (alignTo a n) n = .hit r off → r = .boot ∨ r = .cart) :
    (memWrite a n v s).mem = s.mem := by
  rw [memWrite_state]
  dsimp only
  split
  · exact if_pos (h _ _ ‹_›)
  · rfl

theorem memWrite_mem_of_hit (a : Word) (n : Width) (v : Word) (s : State) (r : Region) (off : Nat)
    (h : mapAddr s.cartLen (alignTo a n) n = .hit r off) (hboot : r ≠ .boot) (hcart : r ≠ .cart) :
    (memWrite a n v s).mem = storeHit r off n v s.vtu.line s.mem := by
  rw [memWrite_state]
  dsimp only
  rw [h]
  exact if_neg (not_or_intro hboot hcart)

theorem storeHit_of_ne_io (r : Region) (off : Nat) (n : Width) (v : Word) (line : Nat) (m : Memory) (h : r ≠ .io) :
    storeHit r off n v line m = m.store (r.base + off) n v := by
  cases r with
  | io => exact absurd rfl h
  | _ => rfl

theorem storeHit_io (off : Nat) (n : Width) (v : Word) (line : Nat) (m : Memory) :
    storeHit .io off n v line m =
      if off < 8 then vtuRefresh line (Memory.storeWith Memory.putIo m (Region.base .io + off) v n)
      else Memory.storeWith Memory.putIo m (Region.base .io + off) v n := by
  simp only [storeHit, Region.key, Nat.lt_succ_iff]

/-- The three bytes a refresh writes, with the status bits of R313 written out. -/
theorem get_vtuRefresh_status (line : Nat) (m : Memory) (b : Nat) :
    (vtuRefresh line m).get b =
      if b = 0x04000006 then BitVec.ofNat 8 line
      else if b = 0x04000007 then 0#8
      else if b = 0x04000004 then
        (m.get b &&& 0xF8#8) ||| (if 160 ≤ line then 1#8 else 0#8) |||
          (if line = (m.get 0x04000005).toNat then 4#8 else 0#8)
      else m.get b := by
  rw [get_vtuRefresh]
  by_cases h4 : b = 0x04000004
  · subst h4
    exact (BitVec.or_assoc _ _ _).symm
  · rw [if_neg h4, if_neg h4]
    by_cases h6 : b = 0x04000006
    · subst h6
      rfl
    · rw [if_neg h6, if_neg h6]

/-- The masks of R82, with the four offsets that take no bit of a write in one list. -/
theorem ioMask_eq (o : Nat) :
    ioMask o = if o = 0x004 then 0xF8#8 else if o ∈ [0x006, 0x007, 0x130, 0x131] then 0x00#8 else 0xFF#8 := by
  simp only [ioMask, List.mem_cons, List.not_mem_nil, or_false, ite_or]

/-- Settles O48: the frame and the log from what a write does to the state; the bytes from the plain store, from the masked
store, and from the refresh over it. -/
theorem memWriteLaw : Obligations.MemWriteLaw := by
  refine ⟨fun o _ => ioMask_eq o, ?_⟩
  rintro a n v s t al rfl rfl
  rw [← alignTo_eq_ofNat]
  obtain ⟨hregs, hcpsr, hrest⟩ := memWrite_frame a n v s
  refine ⟨hregs, hcpsr, hrest, ?log, ?dropped, ?plain, ?io⟩
  case log => rw [memWrite_state]; rfl
  case dropped =>
    intro h b
    rw [memWrite_mem_of_dropped a n v s h]
  case plain =>
    intro r off h hboot hcart hio b
    obtain ⟨-, hal, -⟩ := mapAddr_hit _ _ _ _ _ h
    rw [memWrite_mem_of_hit a n v s r off h hboot hcart, storeHit_of_ne_io _ _ _ _ _ _ hio, ← hal, Memory.get_store,
      byteOf_eq_ofNat]
  case io =>
    intro off h
    obtain ⟨-, hal, -⟩ := mapAddr_hit _ _ _ _ _ h
    have hmem := memWrite_mem_of_hit a n v s .io off h (by decide) (by decide)
    rw [storeHit_io, ← hal] at hmem
    refine ⟨Memory.storeWith Memory.putIo s.mem (alignTo a n).toNat v n, fun b => ?_, fun hoff b => ?_, fun hoff b => ?_⟩
    · rw [get_storeIo, byteOf_eq_ofNat]
    · rw [hmem, if_neg (Nat.not_lt_of_le hoff)]
    · rw [hmem, if_pos hoff]
      exact get_vtuRefresh_status _ _ b

end Sys2Proof.Machine
end

section
/-! PROOF. The statements of 30_encoding.md: which patterns are RESERVED (R140, R141) and that they do nothing; and that a wide word
has no effect where its condition fails (40_step_and_conditions.md R154), of which condition 15 is one case. -/

namespace Sys2Proof.Machine

/-! ## RESERVED decode results -/

/-- A decode result that names a RESERVED space. -/
def IsReserved (d : Decoded) : Prop := ∃ r, d = .reserved r

@[simp] theorem isReserved_reserved (r : Reserved) : IsReserved (.reserved r) := ⟨r, rfl⟩

@[simp] theorem not_isReserved_instr (i : Instr) : ¬ IsReserved (.instr i) := nofun

@[simp] theorem isReserved_ite (p : Prop) [Decidable p] (d e : Decoded) :
    IsReserved (if p then d else e) ↔ if p then IsReserved d else IsReserved e := by
  split <;> rfl

theorem execDecoded_of_reserved (d : Decoded) (r : Reserved) (s : State) (h : d = .reserved r) :
    execDecoded d s = .next s := by
  rw [h, execDecoded]

/-! ## A field as the fields it is made of -/

theorem field_append_iff {W : Nat} (x : BitVec W) (k m n : Nat) (a : BitVec m) (b : BitVec n) :
    x.extractLsb' k (m + n) = a ++ b ↔ x.extractLsb' (k + n) m = a ∧ x.extractLsb' k n = b := by
  rw [← BitVec.extractLsb'_append_extractLsb'_eq_extractLsb' rfl]
  constructor
  · intro h
    exact ⟨by simpa only [BitVec.extractLsb'_append_eq_left] using congrArg (·.extractLsb' n m) h,
      by simpa only [BitVec.extractLsb'_append_eq_right] using congrArg (·.extractLsb' 0 n) h⟩
  · rintro ⟨rfl, rfl⟩
    rfl

theorem field_bit_iff {W : Nat} (x : BitVec W) (k : Nat) (b : Bool) :
    x.extractLsb' k 1 = BitVec.ofBool b ↔ x.getLsbD k = b := by
  constructor
  · intro h
    simpa using congrArg (·.getLsbD 0) h
  · rintro rfl
    ext i hi
    obtain rfl : i = 0 := by omega
    simp

theorem field_append_bit_iff {W : Nat} (x : BitVec W) (k m : Nat) (a : BitVec m) (b : Bool) :
    x.extractLsb' k (m + 1) = a ++ BitVec.ofBool b ↔ x.extractLsb' (k + 1) m = a ∧ x.getLsbD k = b := by
  rw [field_append_iff, field_bit_iff]

/-- The values of the three-bit field both decoders look at first. -/
theorem three_bit_cases (k : BitVec 3) :
    k = 0#3 ∨ k = 1#3 ∨ k = 2#3 ∨ k = 3#3 ∨ k = 4#3 ∨ k = 5#3 ∨ k = 6#3 ∨ k = 7#3 := by
  revert k
  decide

/-! ## The wide RESERVED spaces, by the fields the decoder looks at (R119, R140) -/

/-- The BX pattern is on the line `w[27:25] = 000`, outside the space of R140 item 1. -/
theorem bx_top_field (w : Word) (h : w &&& 0x0FFFFFF0#32 = 0x012FFF10#32) :
    w.extractLsb' 25 3 = 0b000#3 ∧ w.getLsbD 7 = false := by
  obtain ⟨h27, h26, h25, -⟩ := bx_bits w h
  have htop : w.extractLsb' 25 (1 + 1 + 1) = BitVec.ofBool false ++ BitVec.ofBool false ++ BitVec.ofBool false := by
    simp only [field_append_bit_iff, field_bit_iff]
    exact ⟨⟨h27, h26⟩, h25⟩
  have h7 : (w &&& 0x0FFFFFF0#32).getLsbD 7 = (0x012FFF10#32).getLsbD 7 := by rw [h]
  exact ⟨htop, by simpa using h7⟩

theorem not_isReserved_bx (w : Word) (h : w &&& 0x0FFFFFF0#32 = 0x012FFF10#32) : ¬ IsReserved (decodeWide w) := by
  rw [decodeWide, if_pos h]
  exact not_isReserved_instr _

/-- `w[27:26] = 00` is the first two values of `w[27:25]`. -/
theorem dpField_iff (w : Word) :
    w.extractLsb' 26 2 = 0b00#2 ↔ w.extractLsb' 25 3 = 0b000#3 ∨ w.extractLsb' 25 3 = 0b001#3 := by
  have h0 : w.extractLsb' 25 3 = 0b000#3 ↔ _ := field_append_bit_iff w 25 2 0b00#2 false
  have h1 : w.extractLsb' 25 3 = 0b001#3 ↔ _ := field_append_bit_iff w 25 2 0b00#2 true
  rw [h0, h1]
  cases w.getLsbD 25 <;> simp

theorem coprocessorOperation_iff (w : Word) :
    w.extractLsb' 24 4 = 0b1110#4 ↔ w.extractLsb' 25 3 = 0b111#3 ∧ w.getLsbD 24 = false :=
  field_append_bit_iff w 24 3 0b111#3 false

/-- The five spaces of R140, in its words. -/
def WideReservedSpace (w : Word) : Prop :=
  (w.extractLsb' 25 3 = 0b000#3 ∧ w.getLsbD 7 = true ∧ w.getLsbD 4 = true) ∨
  (w.extractLsb' 26 2 = 0b00#2 ∧ w.extractLsb' 23 2 = 0b10#2 ∧ w.getLsbD 20 = false ∧
    w &&& 0x0FFFFFF0#32 ≠ 0x012FFF10#32) ∨
  (w.extractLsb' 25 3 = 0b011#3 ∧ w.getLsbD 4 = true) ∨
  w.extractLsb' 25 3 = 0b100#3 ∨
  w.extractLsb' 25 3 = 0b110#3 ∨
  w.extractLsb' 24 4 = 0b1110#4

/-- BX first, as in R119; then one case for each value of `w[27:25]`. -/
theorem isReserved_decodeWide_iff (w : Word) : IsReserved (decodeWide w) ↔ WideReservedSpace w := by
  rw [WideReservedSpace, dpField_iff, coprocessorOperation_iff]
  by_cases hbx : w &&& 0x0FFFFFF0#32 = 0x012FFF10#32
  · obtain ⟨htop, h7⟩ := bx_top_field w hbx
    rw [htop, h7]
    simp [not_isReserved_bx w hbx, hbx]
  · rw [decodeWide, if_neg hbx]
    rcases three_bit_cases (w.extractLsb' 25 3) with e | e | e | e | e | e | e | e
    · cases w.getLsbD 4 <;> cases w.getLsbD 7 <;> simp [e, hbx, isStatusTransfer]
    all_goals simp [e, hbx, isStatusTransfer]

/-! ## The condition of a decoded wide word, and what a failed condition leaves (40_step_and_conditions.md R154) -/

@[simp] theorem conditionOf_decodeDpImm (w : Word) : conditionOf (decodeDpImm w) = some (condOf w) := by
  fun_cases decodeDpImm w <;> rfl

@[simp] theorem conditionOf_decodeDpShi (w : Word) : conditionOf (decodeDpShi w) = some (condOf w) := by
  fun_cases decodeDpShi w <;> rfl

@[simp] theorem conditionOf_decodeDpShr (w : Word) : conditionOf (decodeDpShr w) = some (condOf w) := by
  fun_cases decodeDpShr w <;> rfl

@[simp] theorem conditionOf_decodeSdtImm (w : Word) : conditionOf (decodeSdtImm w) = some (condOf w) := by
  fun_cases decodeSdtImm w <;> rfl

@[simp] theorem conditionOf_decodeSdtReg (w : Word) : conditionOf (decodeSdtReg w) = some (condOf w) := by
  fun_cases decodeSdtReg w <;> rfl

/-- A wide word is RESERVED or decodes to an instruction that carries the word's condition. -/
theorem decodeWide_reserved_or_conditional (w : Word) :
    IsReserved (decodeWide w) ∨ ∃ i, decodeWide w = .instr i ∧ conditionOf i = some (condOf w) := by
  fun_cases decodeWide w <;> simp <;> rfl

/-- A wide instruction is the test of its condition and an effect. -/
theorem exec_eq_whenCond (i : Instr) (c : Cond) (h : conditionOf i = some c) :
    ∃ f, ∀ s, exec i s = whenCond c f s := by
  cases i <;> cases h <;> exact ⟨_, fun _ => rfl⟩

theorem exec_of_condition_fails (i : Instr) (c : Cond) (s : State) (hi : conditionOf i = some c) (hc : condHolds c s = false) :
    exec i s = .next s := by
  obtain ⟨f, hf⟩ := exec_eq_whenCond i c hi
  rw [hf, whenCond_of_fails c f s hc]

/-- A wide word whose condition fails does nothing, RESERVED or not. -/
theorem execDecoded_of_condition_fails (w : Word) (s : State) (hc : condHolds (condOf w) s = false) :
    execDecoded (decode (.wide w)) s = .next s := by
  obtain ⟨r, hr⟩ | ⟨i, hdec, hi⟩ := decodeWide_reserved_or_conditional w
  · exact execDecoded_of_reserved _ r s hr
  · rw [decode, hdec]
    exact exec_of_condition_fails i (condOf w) s hi hc

/-- Settles O3: the lines of the wide decoder are compared with R140 one value of `w[27:25]` at a time, and condition 15 is a
condition that fails in every state. -/
theorem wideReservedPatterns : Obligations.WideReservedPatterns := by
  intro w s
  refine ⟨isReserved_decodeWide_iff w, fun r => execDecoded_of_reserved _ r s, fun hnv => ?_⟩
  have hfails : condHolds (condOf w) s = false := by rw [hnv, condHolds]
  exact execDecoded_of_condition_fails w s hfails

/-! ## The narrow RESERVED spaces, by the fields the decoder looks at (R131, R141) -/

@[simp] theorem not_isReserved_decodeN1N2 (h : Half) : ¬ IsReserved (decodeN1N2 h) := by
  fun_cases decodeN1N2 h <;> exact not_isReserved_instr _

@[simp] theorem not_isReserved_decodeN3 (h : Half) : ¬ IsReserved (decodeN3 h) := by
  fun_cases decodeN3 h <;> exact not_isReserved_instr _

@[simp] theorem not_isReserved_decodeN9 (h : Half) : ¬ IsReserved (decodeN9 h) := by
  fun_cases decodeN9 h <;> exact not_isReserved_instr _

@[simp] theorem isReserved_decodeN4_iff (h : Half) : IsReserved (decodeN4 h) ↔ h.extractLsb' 6 4 = 13#4 := by
  rw [decodeN4, ← BitVec.toNat_inj]
  generalize (h.extractLsb' 6 4).toNat = k
  split <;> simp_all

@[simp] theorem isReserved_decodeN5_iff (h : Half) :
    IsReserved (decodeN5 h) ↔ h.extractLsb' 8 2 = 3#2 ∧ h.getLsbD 7 = true := by
  have hk := (h.extractLsb' 8 2).isLt
  rw [decodeN5, ← BitVec.toNat_inj]
  generalize (h.extractLsb' 8 2).toNat = k at hk ⊢
  obtain rfl | rfl | rfl | rfl : k = 0 ∨ k = 1 ∨ k = 2 ∨ k = 3 := by omega
  all_goals simp

@[simp] theorem isReserved_decodeN16N17_iff (h : Half) : IsReserved (decodeN16N17 h) ↔ h.extractLsb' 8 4 = 14#4 := by
  rw [decodeN16N17, ← BitVec.toNat_inj]
  generalize (h.extractLsb' 8 4).toNat = k
  split <;> simp_all

@[simp] theorem isReserved_decodeN18N19_iff (h : Half) : IsReserved (decodeN18N19 h) ↔ h.extractLsb' 11 2 = 1#2 := by
  rw [decodeN18N19, ← BitVec.toNat_inj]
  generalize (h.extractLsb' 11 2).toNat = k
  split <;> simp_all

/-- The eight spaces of R141, in its words. -/
def NarrowReservedSpace (h : Half) : Prop :=
  h.extractLsb' 12 4 = 0b0101#4 ∨
  h.extractLsb' 13 3 = 0b100#3 ∨
  h.extractLsb' 13 3 = 0b101#3 ∨
  h.extractLsb' 12 4 = 0b1100#4 ∨
  h.extractLsb' 8 8 = 0xDE#8 ∨
  h.extractLsb' 11 5 = 0b11101#5 ∨
  h.extractLsb' 6 10 = 0b0100001101#10 ∨
  h.extractLsb' 7 9 = 0b010001111#9

theorem registerOffsetTransfer_iff (h : Half) :
    h.extractLsb' 12 4 = 0b0101#4 ↔ h.extractLsb' 13 3 = 0b010#3 ∧ h.getLsbD 12 = true :=
  field_append_bit_iff h 12 3 0b010#3 true

theorem multipleTransfer_iff (h : Half) :
    h.extractLsb' 12 4 = 0b1100#4 ↔ h.extractLsb' 13 3 = 0b110#3 ∧ h.getLsbD 12 = false :=
  field_append_bit_iff h 12 3 0b110#3 false

theorem branchAlways_iff (h : Half) :
    h.extractLsb' 8 8 = 0xDE#8 ↔
      (h.extractLsb' 13 3 = 0b110#3 ∧ h.getLsbD 12 = true) ∧ h.extractLsb' 8 4 = 14#4 := by
  rw [← field_append_bit_iff h 12 3 0b110#3 true]
  exact field_append_iff h 8 4 4 0b1101#4 14#4

theorem branchLinkExchange_iff (h : Half) :
    h.extractLsb' 11 5 = 0b11101#5 ↔ h.extractLsb' 13 3 = 0b111#3 ∧ h.extractLsb' 11 2 = 1#2 :=
  field_append_iff h 11 3 2 0b111#3 1#2

/-- N4 and N5 are told apart by bit 10. -/
theorem registerFormats_iff (h : Half) (b : Bool) :
    h.extractLsb' 10 6 = 0b01000#5 ++ BitVec.ofBool b ↔
      ((h.extractLsb' 13 3 = 0b010#3 ∧ h.getLsbD 12 = false) ∧ h.getLsbD 11 = false) ∧ h.getLsbD 10 = b := by
  rw [← field_append_bit_iff h 12 3 0b010#3 false, ← field_append_bit_iff h 11 4 _ false]
  exact field_append_bit_iff h 10 5 _ b

theorem multiplySlot_iff (h : Half) :
    h.extractLsb' 6 10 = 0b0100001101#10 ↔
      (((h.extractLsb' 13 3 = 0b010#3 ∧ h.getLsbD 12 = false) ∧ h.getLsbD 11 = false) ∧ h.getLsbD 10 = false) ∧
        h.extractLsb' 6 4 = 13#4 := by
  rw [← registerFormats_iff]
  exact field_append_iff h 6 6 4 0b010000#6 13#4

theorem branchExchangeHigh_iff (h : Half) :
    h.extractLsb' 7 9 = 0b010001111#9 ↔
      ((((h.extractLsb' 13 3 = 0b010#3 ∧ h.getLsbD 12 = false) ∧ h.getLsbD 11 = false) ∧ h.getLsbD 10 = true) ∧
        h.extractLsb' 8 2 = 3#2) ∧ h.getLsbD 7 = true := by
  rw [← registerFormats_iff, ← field_append_iff h 8 6 2]
  exact field_append_bit_iff h 7 8 0b01000111#8 true

/-- One case for each value of `h[15:13]`, and on the lines `010` and `110` one for each value of the bits below it. -/
theorem isReserved_decodeNarrow_iff (h : Half) : IsReserved (decodeNarrow h) ↔ NarrowReservedSpace h := by
  rw [NarrowReservedSpace, registerOffsetTransfer_iff, multipleTransfer_iff, branchAlways_iff, branchLinkExchange_iff,
    multiplySlot_iff, branchExchangeHigh_iff, decodeNarrow]
  rcases three_bit_cases (h.extractLsb' 13 3) with e | e | e | e | e | e | e | e
  · simp [e]
  · simp [e]
  · cases h.getLsbD 12 <;> cases h.getLsbD 11 <;> cases h.getLsbD 10 <;> simp [e]
  · simp [e]
  · simp [e]
  · simp [e]
  · cases h.getLsbD 12 <;> simp [e]
  · simp [e]

/-- Settles O4: the lines of the narrow decoder are compared with R141 one value of `h[15:13]` at a time. -/
theorem narrowReservedPatterns : Obligations.NarrowReservedPatterns := fun h s =>
  ⟨isReserved_decodeNarrow_iff h, fun r => execDecoded_of_reserved _ r s⟩

end Sys2Proof.Machine
end

section
/-! PROOF. The statements of 40_step_and_conditions.md: the fetch as an ordinary bus read (R151; 20_memory.md R73), the table of the
conditions (R153), and the steps that do nothing but fetch, advance `pc` and charge: those of a failed condition (R154) and of a
RESERVED pattern (R159). -/

namespace Sys2Proof.Machine

/-! ## The fetch as a bus read (R151; 20_memory.md R73) -/

/-- In wide mode the fetched pattern is the word of the aligned `pc`, or the open bus, rotated by the misalignment of `pc`. -/
theorem fetch_wide (s : State) (hT : s.flagT = false) :
    (fetch s).1 = .wide (BitVec.rotateRight
      (match mapAddr s.cartLen (alignTo s.pc .word) .word with
        | .hit _ _ => s.mem.load (alignTo s.pc .word).toNat .word
        | _ => Config.openBusWord (alignTo s.pc .word))
      (8 * (s.pc.toNat % 4))) := by
  have hword : (fetch s).1 = .wide (memRead s.pc .word s).1 := by simp [fetch, State.fetchWidth, hT]
  rw [hword, memRead_value, ← rotateRead_word]
  cases mapAddr s.cartLen (alignTo s.pc .word) .word <;> rfl

/-- In narrow mode the fetched pattern is the halfword of the aligned `pc`, or the open bus. -/
theorem fetch_narrow (s : State) (hT : s.flagT = true) :
    (fetch s).1 = .narrow
      (match mapAddr s.cartLen (alignTo s.pc .half) .half with
        | .hit _ _ => s.mem.get ((alignTo s.pc .half).toNat + 1) ++ s.mem.get (alignTo s.pc .half).toNat
        | _ => Config.openBusHalf (alignTo s.pc .half)) := by
  have hhalf : (fetch s).1 = .narrow ((memRead s.pc .half s).1.setWidth 16) := by simp [fetch, State.fetchWidth, hT]
  have hlow : ∀ v : Half, (v.setWidth 32).setWidth 16 = v := fun v => BitVec.setWidth_setWidth_of_le v (by decide)
  rw [hhalf, memRead_value, rotateRead_half]
  cases mapAddr s.cartLen (alignTo s.pc .half) .half <;> exact congrArg CodeUnit.narrow (hlow _)

/-- A processor step executes what was fetched in the state before it, with the warnings of the bus read and `pc` advanced from its
unmasked value, and charges. -/
theorem procStep_of_fetch (s : State) (u : CodeUnit) (n : Width) (k : Word) (hu : (fetch s).1 = u) (hn : s.fetchWidth = n)
    (hk : s.instrBytes = k) :
    procStep s = thenDo State.charge (execDecoded (decode u)
      (State.setPc
        { s with warnings := s.warnings ++ alignWarnings s.pc n ++ readWarnings s.cartLen (alignTo s.pc n) n } (s.pc + k))) := by
  subst hu hn hk
  rw [procStep, fetchInstr_state_eq, memRead_state, fetchInstr]

/-- Settles O8: the value is that of the bus read of the width T selects, and the state is the one before the read but for the
warnings the read appends and the advance of `pc`. -/
theorem fetchIsAnOrdinaryBusRead : Obligations.FetchIsAnOrdinaryBusRead := by
  intro s
  refine ⟨fun hT => ?wide, fun hT => ?narrow⟩
  case wide =>
    exact procStep_of_fetch s _ .word 4#32 (fetch_wide s hT) (by simp [State.fetchWidth, hT]) (by simp [State.instrBytes, hT])
  case narrow =>
    exact procStep_of_fetch s _ .half 2#32 (fetch_narrow s hT) (by simp [State.fetchWidth, hT]) (by simp [State.instrBytes, hT])

/-! ## Steps that only fetch, advance `pc` and charge (R154, R159) -/

/-- A step on a decode result that does nothing is the fetch, the advance of `pc` and the charge. -/
theorem procStep_of_no_effect (s : State)
    (h : execDecoded (fetchInstr s).1 (fetchInstr s).2 = .next (fetchInstr s).2) :
    procStep s = .next (fetchInstr s).2.charge := by
  rw [procStep, h, thenDo]

/-- The fetch and the advance of `pc` change `pc` and no other register. -/
theorem fetchInstr_onlyReg (s : State) : OnlyReg .pc (s.pc + s.instrBytes) s (fetchInstr s).2 := by
  intro q
  rw [fetchInstr_state_eq, State.setPc_regs, RegFile.get_set]

/-- Settles O10: executing a RESERVED pattern answers the state the fetch left, which differs from the one before it in `pc` and the
warnings only; the charge adds the cycles. -/
theorem reservedPatternStepIsANoOp : Obligations.ReservedPatternStepIsANoOp := by
  intro s r hr
  refine ⟨(fetchInstr s).2.charge, procStep_of_no_effect s (execDecoded_of_reserved _ r _ hr), fetchInstr_onlyReg s, ?_⟩
  rw [fetchInstr_state_eq]
  exact ⟨rfl, rfl, rfl, rfl, rfl, rfl, rfl, rfl⟩

/-- A condition tests the status register and nothing else. -/
theorem condHolds_congr (c : Cond) (s t : State) (h : t.cpsr = s.cpsr) : condHolds c t = condHolds c s := by
  cases c <;> simp only [condHolds, State.flagN, State.flagZ, State.flagC, State.flagV, h]

theorem fetchInstr_cpsr (s : State) : (fetchInstr s).2.cpsr = s.cpsr := by
  rw [fetchInstr_state_eq, State.setPc_cpsr]

/-- Settles O12: a wide word is RESERVED or an instruction under the word's condition, and neither does anything where that fails;
the fetch leaves the flags, so the condition fails in the state the word executes in where it failed before the step. -/
theorem failedConditionHasNoEffect : Obligations.FailedConditionHasNoEffect := by
  refine ⟨fun s => rfl, execDecoded_of_condition_fails, exec_of_condition_fails, fun w s hw hc => procStep_of_no_effect s ?_⟩
  have hdec : (fetchInstr s).1 = decode (.wide w) := by rw [fetchInstr, hw]
  have hfails : condHolds (condOf w) (fetchInstr s).2 = false := by rw [condHolds_congr _ s _ (fetchInstr_cpsr s), hc]
  rw [hdec, execDecoded_of_condition_fails w _ hfails]

/-! ## The conditions (R153) -/

/-- Settles O11: each condition's test is the line of the table it stands on; the compound ones are taken apart into their flags. -/
theorem conditionTable : Obligations.ConditionTable := by
  intro s
  have flagClear : ∀ b : Bool, (!b) = true ↔ b = false := fun b => iff_of_eq (Bool.not_eq_true' b)
  refine ⟨Iff.rfl, flagClear _, Iff.rfl, flagClear _, Iff.rfl, flagClear _, Iff.rfl, flagClear _,
    ?hi, ?ls, ?ge, ?lt, ?gt, ?le, rfl, rfl, Cond.ofBits_toBits, rfl⟩
  case hi => rw [condHolds, Bool.and_eq_true, flagClear]
  case ls => rw [condHolds, Bool.or_eq_true, flagClear]
  case ge => rw [condHolds, beq_iff_eq]
  case lt => rw [condHolds, bne_iff_ne]
  case gt => rw [condHolds, Bool.and_eq_true, flagClear, beq_iff_eq]
  case le => rw [condHolds, Bool.or_eq_true, bne_iff_ne]

end Sys2Proof.Machine
end

section
/-! PROOF. The statements of 41_wide_data_processing.md: the three operand forms as arithmetic on the value shifted (R170 to R172),
and the sixteen operations, each proved for an operand of any form and then read at the three forms (R173 to R195). -/

namespace Sys2Proof.Machine

/-! ## Bits of a word as arithmetic -/

theorem getLsbD_eq_decide_div (v : Word) (i : Nat) : v.getLsbD i = decide (v.toNat / 2 ^ i % 2 = 1) :=
  Nat.testBit_eq_decide_div_mod_eq

theorem getLsbD_zero_eq_decide_mod (v : Word) : v.getLsbD 0 = decide (v.toNat % 2 = 1) := by
  rw [getLsbD_eq_decide_div, Nat.pow_zero, Nat.div_one]

theorem getLsbD_31_eq_decide_le (v : Word) : v.getLsbD 31 = decide (2 ^ 31 ≤ v.toNat) :=
  (BitVec.msb_eq_getLsbD_last v).symm.trans (BitVec.msb_eq_decide v)

theorem getLsbD_31_eq_decide_neg (v : Word) : v.getLsbD 31 = decide (v.toInt < 0) :=
  (BitVec.msb_eq_getLsbD_last v).symm.trans BitVec.msb_eq_toInt

/-- The lowest bit is the parity of the signed value as it is of the unsigned one. -/
theorem getLsbD_zero_eq_decide_toInt_mod (v : Word) : v.getLsbD 0 = decide (v.toInt % 2 = 1) := by
  rw [getLsbD_zero_eq_decide_mod, BitVec.toInt_eq_toNat_cond]
  exact decide_eq_decide.2 (by split <;> omega)

/-! ## Shifts and rotations of a word -/

theorem toNat_shiftLeft_eq_mul (v : Word) (n : Nat) : (v <<< n).toNat = v.toNat * 2 ^ n % 2 ^ 32 := by
  rw [BitVec.toNat_shiftLeft, Nat.shiftLeft_eq]

theorem toNat_ushiftRight_eq_div (v : Word) (n : Nat) : (v >>> n).toNat = v.toNat / 2 ^ n := by
  rw [BitVec.toNat_ushiftRight, Nat.shiftRight_eq_div_pow]

theorem toInt_asr32 (v : Word) (n : Nat) : (asr32 v n).toInt = v.toInt / 2 ^ n := by
  rw [asr32, BitVec.toInt_sshiftRight, Int.shiftRight_eq_div_pow]
  norm_cast

theorem getLsbD_asr32 (v : Word) (n i : Nat) (hi : i < 32) :
    (asr32 v n).getLsbD i = if n + i < 32 then v.getLsbD (n + i) else v.getLsbD 31 := by
  rw [asr32, BitVec.getLsbD_sshiftRight, BitVec.msb_eq_getLsbD_last, decide_eq_false (by omega)]
  rfl

theorem getLsbD_signFill (v : Word) (i : Nat) (hi : i < 32) : (signFill v).getLsbD i = v.getLsbD 31 := by
  unfold signFill
  cases v.getLsbD 31
  · exact BitVec.getLsbD_zero
  · exact BitVec.getLsbD_allOnes.trans (decide_eq_true hi)

/-- From 32 places on an arithmetic shift leaves nothing but copies of bit 31. -/
theorem asr32_eq_signFill (v : Word) (n : Nat) (h : 32 ≤ n) : asr32 v n = signFill v := by
  apply BitVec.eq_of_getLsbD_eq
  intro i hi
  rw [getLsbD_asr32 v n i hi, if_neg (by omega), getLsbD_signFill v i hi]

theorem toInt_signFill (v : Word) : (signFill v).toInt = if v.toInt < 0 then -1 else 0 := by
  rw [signFill, getLsbD_31_eq_decide_neg]
  by_cases h : v.toInt < 0 <;> simp [h]

theorem rotateRight_of_mod_eq_zero (v : Word) (n : Nat) (h : n % 32 = 0) : v.rotateRight n = v := by
  rw [← BitVec.rotateRight_mod_eq_rotateRight, h, ← ror32_eq_rotateRight v 0 (by decide)]
  simp [ror32]

/-- Bit 31 of a rotation is the last bit rotated out. -/
theorem getLsbD_rotateRight_31 (v : Word) (n : Nat) (h : n % 32 ≠ 0) :
    (v.rotateRight n).getLsbD 31 = v.getLsbD (n % 32 - 1) := by
  have hlast : 31 - (32 - n % 32) = n % 32 - 1 := by omega
  rw [BitVec.getLsbD_rotateRight, decide_eq_false (by omega), hlast]
  rfl

/-- The rotation by one through the carry flag (R171). -/
theorem carry_or_ushiftRight_one (v : Word) (cin : Bool) :
    (BitVec.ofBool cin).setWidth 32 <<< 31 ||| v >>> 1 =
      BitVec.ofNat 32 ((if cin = true then 2 ^ 31 else 0) + v.toNat / 2) := by
  have hhalf : v.toNat / 2 < 2 ^ 31 := by omega
  apply BitVec.eq_of_toNat_eq
  rw [BitVec.toNat_or, toNat_ushiftRight_eq_div, BitVec.toNat_ofNat, Nat.pow_one, Nat.mod_eq_of_lt (by split <;> omega)]
  cases cin
  · exact (Nat.zero_or _).trans (Nat.zero_add _).symm
  · exact (Nat.two_pow_add_eq_or_of_lt hhalf 1).symm

/-! ## The two shift functions in closed form -/

/-- The immediate amounts 1..31 shift as those register amounts do (R171, R172). -/
theorem shiftImm_eq_shiftReg (ty : ShiftType) (n : Nat) (v : Word) (cin : Bool) (h0 : n ≠ 0) (h : n < 32) :
    shiftImm ty n v cin = shiftReg ty n v cin := by
  have hle : n ≤ 31 := by omega
  have hmod : n % 32 = n := Nat.mod_eq_of_lt h
  cases ty <;> simp [shiftImm, shiftReg, h0, hle, hmod]

theorem shiftReg_lsl (n : Nat) (v : Word) (cin : Bool) (h0 : n ≠ 0) :
    shiftReg .lsl n v cin = (v <<< n, decide (n ≤ 32) && v.getLsbD (32 - n)) := by
  rcases Nat.lt_trichotomy n 32 with h | h | h
  · simp [shiftReg, h0, show n ≤ 31 by omega, show n ≤ 32 by omega]
  · simp [shiftReg, h]
  · simp [shiftReg, h0, show ¬ n ≤ 31 by omega, show n ≠ 32 by omega, show ¬ n ≤ 32 by omega,
      BitVec.shiftLeft_eq_zero h.le]

theorem shiftReg_lsr (n : Nat) (v : Word) (cin : Bool) (h0 : n ≠ 0) :
    shiftReg .lsr n v cin = (v >>> n, v.getLsbD (n - 1)) := by
  rcases Nat.lt_trichotomy n 32 with h | h | h
  · simp [shiftReg, h0, show n ≤ 31 by omega]
  · simp [shiftReg, h, BitVec.ushiftRight_eq_zero]
  · simp [shiftReg, h0, show ¬ n ≤ 31 by omega, show n ≠ 32 by omega, BitVec.ushiftRight_eq_zero h.le,
      BitVec.getLsbD_of_ge v (n - 1) (by omega)]

theorem shiftReg_asr (n : Nat) (v : Word) (cin : Bool) (h0 : n ≠ 0) :
    shiftReg .asr n v cin = (asr32 v n, (asr32 v (n - 1)).getLsbD 0) := by
  rw [shiftReg, if_neg h0, getLsbD_asr32 v (n - 1) 0 (by decide)]
  rcases Nat.lt_trichotomy n 32 with h | h | h
  · simp [show n ≤ 31 by omega, show n - 1 < 32 by omega]
  · simp [h, asr32_eq_signFill]
  · simp [show ¬ n ≤ 31 by omega, show ¬ n - 1 < 32 by omega, asr32_eq_signFill v n h.le]

theorem shiftReg_ror (n : Nat) (v : Word) (cin : Bool) (h0 : n ≠ 0) :
    shiftReg .ror n v cin = (v.rotateRight n, (v.rotateRight n).getLsbD 31) := by
  rw [shiftReg, if_neg h0]
  by_cases h : n % 32 = 0
  · simp [h, rotateRight_of_mod_eq_zero v n h]
  · rw [getLsbD_rotateRight_31 v n h, ror32_eq_rotateRight v _ (Nat.mod_lt n (by decide)),
      BitVec.rotateRight_mod_eq_rotateRight]
    simp [h]

/-! ## The operand forms -/

/-- Settles O13: the rotation is by less than 32 places, and bit 31 is the value's being 2 ^ 31 or more. -/
theorem immediateOperandIsRotated : Obligations.ImmediateOperandIsRotated := by
  intro rot imm8 s
  have hvalue : ((Op2.imm rot imm8).eval s).1 = BitVec.rotateRight (BitVec.ofNat 32 imm8.toNat) (2 * rot.toNat) := by
    rw [BitVec.ofNat_toNat]
    exact ror32_eq_rotateRight _ _ (by omega)
  have hcarry : ((Op2.imm rot imm8).eval s).2 =
      if rot = 0#4 then s.flagC else ((Op2.imm rot imm8).eval s).1.getLsbD 31 := rfl
  exact ⟨hvalue, by rw [hcarry, hvalue, getLsbD_31_eq_decide_le]⟩

/-- Settles O14: an amount of 0 has a meaning of its own for each type, and any other shifts as the same register amount, which stays
within the word. -/
theorem shiftByImmediateAmount : Obligations.ShiftByImmediateAmount := by
  refine ⟨fun _ _ _ _ => rfl, fun n v cin hn => ?_⟩
  by_cases h0 : n = 0
  · subst h0
    refine ⟨?_, rfl, rfl, getLsbD_31_eq_decide_le v, toInt_signFill v, getLsbD_31_eq_decide_le v,
      carry_or_ushiftRight_one v cin, getLsbD_zero_eq_decide_mod v⟩
    rw [Nat.pow_zero, Nat.mul_one, Nat.mod_eq_of_lt v.isLt]
    rfl
  · have hle : n ≤ 32 := hn.le
    have hlast : n - 1 < 32 := by omega
    have hmod : n % 32 = n := Nat.mod_eq_of_lt hn
    simp only [shiftImm_eq_shiftReg _ n v cin h0 hn, shiftReg_lsl n v cin h0, shiftReg_lsr n v cin h0, shiftReg_asr n v cin h0,
      shiftReg_ror n v cin h0, if_neg h0]
    refine ⟨toNat_shiftLeft_eq_mul v n, ?lsl, toNat_ushiftRight_eq_div v n, getLsbD_eq_decide_div v _, toInt_asr32 v n,
      ?asr, trivial, ?ror⟩
    case lsl => rw [decide_eq_true hle, Bool.true_and, getLsbD_eq_decide_div]
    case asr => rw [getLsbD_asr32 v _ 0 (by decide), Nat.add_zero, if_pos hlast, getLsbD_eq_decide_div]
    case ror => rw [getLsbD_rotateRight_31 v n (by omega), hmod, getLsbD_eq_decide_div]

/-- Settles O15: an amount of 0 is no shift, and every other amount is one closed form for each type. -/
theorem shiftByRegisterAmount : Obligations.ShiftByRegisterAmount := by
  refine ⟨fun rs ty rm s => ?operand, fun n v cin _ => ⟨fun ty h0 => if_pos h0, fun h0 => ?shift⟩⟩
  case operand =>
    have hlow : lowByte (s.getReg rs) = (s.getReg rs).toNat % 256 := by simp [lowByte]
    rw [Op2.eval, hlow]
  case shift =>
    rw [shiftReg_lsl n v cin h0, shiftReg_lsr n v cin h0, shiftReg_asr n v cin h0, shiftReg_ror n v cin h0]
    refine ⟨toNat_shiftLeft_eq_mul v n, ?lsl, toNat_ushiftRight_eq_div v n, getLsbD_eq_decide_div v _, toInt_asr32 v n, ?asr, rfl,
      getLsbD_31_eq_decide_le _⟩
    case lsl => rw [Bool.decide_and, ← getLsbD_eq_decide_div]
    case asr => rw [getLsbD_zero_eq_decide_toInt_mod, toInt_asr32]

/-! ## The operations on an operand of any form -/

section AnyForm

variable (c : Cond) (sf : Bool) (rn rd : Reg) (s : State) (hc : condHolds c s = true)
variable (o : Op2) (v : Word) (sc : Bool) (ho : o.eval s = (v, sc))
include hc ho

theorem dpLogical_done_of_eval (f : Word → Word → Word) :
    LogicalDone sf rd (f (s.getReg rn) v) sc s (dpLogical f c sf rn rd o s) := by
  have h := dpLogical_done f c sf rn rd o s hc
  rwa [ho] at h

theorem dpMove_done_of_eval (f : Word → Word) : LogicalDone sf rd (f v) sc s (dpMove f c sf rd o s) := by
  have h := dpMove_done f c sf rd o s hc
  rwa [ho] at h

theorem dpArith_done_of_eval (f : Word → Word → Bool → AluResult) (x : AluResult) (hf : f (s.getReg rn) v s.flagC = x) :
    ArithDone sf rd x s (dpArith f c sf rn rd o s) := by
  have h := dpArith_done f c sf rn rd o s hc
  rwa [ho, hf] at h

theorem dpTestLogical_done_of_eval (f : Word → Word → Word) :
    LogicalTestDone (f (s.getReg rn) v) sc s (dpTestLogical f c rn o s) := by
  have h := dpTestLogical_done f c rn o s hc
  rwa [ho] at h

theorem dpTestArith_done_of_eval (f : Word → Word → Bool → AluResult) (x : AluResult) (hf : f (s.getReg rn) v s.flagC = x) :
    CompareDone x s (dpTestArith f c rn o s) := by
  have h := dpTestArith_done f c rn o s hc
  rwa [ho, hf] at h

/-- AND, EOR, ORR and BIC (R180, R181, R192, R194). -/
theorem logicalOperations_done :
    LogicalDone sf rd (s.getReg rn &&& v) sc s (dpLogical (· &&& ·) c sf rn rd o s) ∧
    LogicalDone sf rd (s.getReg rn ^^^ v) sc s (dpLogical (· ^^^ ·) c sf rn rd o s) ∧
    LogicalDone sf rd (s.getReg rn ||| v) sc s (dpLogical (· ||| ·) c sf rn rd o s) ∧
    LogicalDone sf rd (s.getReg rn &&& ~~~v) sc s (dpLogical (fun a b => a &&& ~~~b) c sf rn rd o s) :=
  have h := dpLogical_done_of_eval c sf rn rd s hc o v sc ho
  ⟨h _, h _, h _, h _⟩

/-- MOV and MVN (R193, R195). -/
theorem moveOperations_done :
    LogicalDone sf rd v sc s (dpMove (fun b => b) c sf rd o s) ∧
    LogicalDone sf rd (~~~v) sc s (dpMove (fun b => ~~~b) c sf rd o s) :=
  have h := dpMove_done_of_eval c sf rd s hc o v sc ho
  ⟨h _, h _⟩

/-- ADD and ADC (R184, R185). -/
theorem additionOperations_done :
    ArithDone sf rd (plainSum (s.getReg rn) v 0) s (dpArith aluAdd c sf rn rd o s) ∧
    ArithDone sf rd (plainSum (s.getReg rn) v s.carry) s (dpArith aluAdc c sf rn rd o s) :=
  have h := dpArith_done_of_eval c sf rn rd s hc o v sc ho
  ⟨h _ _ (aluAdd_eq _ _ _), h _ _ (aluAdc_eq _ _ s)⟩

/-- SUB, RSB, SBC and RSC (R182, R183, R186, R187). -/
theorem subtractionOperations_done :
    ArithDone sf rd (plainDiff (s.getReg rn) v 0) s (dpArith aluSub c sf rn rd o s) ∧
    ArithDone sf rd (plainDiff v (s.getReg rn) 0) s (dpArith aluRsb c sf rn rd o s) ∧
    ArithDone sf rd (plainDiff (s.getReg rn) v s.borrow) s (dpArith aluSbc c sf rn rd o s) ∧
    ArithDone sf rd (plainDiff v (s.getReg rn) s.borrow) s (dpArith aluRsc c sf rn rd o s) :=
  have h := dpArith_done_of_eval c sf rn rd s hc o v sc ho
  ⟨h _ _ (aluSub_eq _ _ _), h _ _ (aluRsb_eq _ _ _), h _ _ (aluSbc_eq _ _ s), h _ _ (aluRsc_eq _ _ s)⟩

/-- TST and TEQ (R188, R189). -/
theorem testOperations_done :
    LogicalTestDone (s.getReg rn &&& v) sc s (dpTestLogical (· &&& ·) c rn o s) ∧
    LogicalTestDone (s.getReg rn ^^^ v) sc s (dpTestLogical (· ^^^ ·) c rn o s) :=
  have h := dpTestLogical_done_of_eval c rn s hc o v sc ho
  ⟨h _, h _⟩

/-- CMP and CMN (R190, R191). -/
theorem compareOperations_done :
    CompareDone (plainDiff (s.getReg rn) v 0) s (dpTestArith aluSub c rn o s) ∧
    CompareDone (plainSum (s.getReg rn) v 0) s (dpTestArith aluAdd c rn o s) :=
  have h := dpTestArith_done_of_eval c rn s hc o v sc ho
  ⟨h _ _ (aluSub_eq _ _ _), h _ _ (aluAdd_eq _ _ _)⟩

end AnyForm

/-! ## The statements on the sixteen operations: each of the three forms is the operation on that operand -/

/-- Settles O17: `logicalOperations_done` at the three operand forms. -/
theorem wideLogicalResults : Obligations.WideLogicalResults := by
  intro c sf rn rd s hc
  have h := logicalOperations_done c sf rn rd s hc
  exact ⟨fun rot imm8 => h (.imm rot imm8), fun shamt ty rm => h (.shi shamt ty rm), fun rs ty rm => h (.shr rs ty rm)⟩

/-- Settles O18: `moveOperations_done` at the three operand forms. -/
theorem wideMoveResults : Obligations.WideMoveResults := by
  intro c sf rd s hc
  have h := moveOperations_done c sf rd s hc
  exact ⟨fun rot imm8 => h (.imm rot imm8), fun shamt ty rm => h (.shi shamt ty rm), fun rs ty rm => h (.shr rs ty rm)⟩

/-- Settles O19: `additionOperations_done` at the three operand forms. -/
theorem wideAdditionResults : Obligations.WideAdditionResults := by
  intro c sf rn rd s hc
  have h := additionOperations_done c sf rn rd s hc
  exact ⟨fun rot imm8 => h (.imm rot imm8), fun shamt ty rm => h (.shi shamt ty rm), fun rs ty rm => h (.shr rs ty rm)⟩

/-- Settles O20: `subtractionOperations_done` at the three operand forms. -/
theorem wideSubtractionResults : Obligations.WideSubtractionResults := by
  intro c sf rn rd s hc
  have h := subtractionOperations_done c sf rn rd s hc
  exact ⟨fun rot imm8 => h (.imm rot imm8), fun shamt ty rm => h (.shi shamt ty rm), fun rs ty rm => h (.shr rs ty rm)⟩

/-- Settles O21: `testOperations_done` at the three operand forms. -/
theorem wideTestResults : Obligations.WideTestResults := by
  intro c rn s hc
  have h := testOperations_done c rn s hc
  exact ⟨fun rot imm8 => h (.imm rot imm8), fun shamt ty rm => h (.shi shamt ty rm), fun rs ty rm => h (.shr rs ty rm)⟩

/-- Settles O22: `compareOperations_done` at the three operand forms. -/
theorem wideCompareResults : Obligations.WideCompareResults := by
  intro c rn s hc
  have h := compareOperations_done c rn s hc
  exact ⟨fun rot imm8 => h (.imm rot imm8), fun shamt ty rm => h (.shi shamt ty rm), fun rs ty rm => h (.shr rs ty rm)⟩

end Sys2Proof.Machine
end

section
/-! PROOF. The statements of 42_wide_branch_and_system.md: the branch offset as a signed number of bytes (R210), the wide branches
(R210, R211), and the software interrupt of both widths (R213; 45_narrow_branch_load_store.md R297). -/

namespace Sys2Proof.Machine

/-! ## The branch offset as a signed number (30_encoding.md R135) -/

/-- A left shift of a sign-extended field multiplies the signed value of the field, modulo 2 ^ 32. -/
theorem signExtend_shiftLeft_eq_ofInt {w : Nat} (x : BitVec w) (k : Nat) :
    x.signExtend 32 <<< k = BitVec.ofInt 32 (x.toInt * 2 ^ k) := by
  have hpow : BitVec.twoPow 32 k = BitVec.ofInt 32 (2 ^ k) := by
    apply BitVec.eq_of_toNat_eq
    have hcast : (2 ^ k : Int) = ((2 ^ k : Nat) : Int) := by norm_cast
    rw [BitVec.toNat_twoPow, hcast, BitVec.ofInt_natCast, BitVec.toNat_ofNat]
  rw [BitVec.shiftLeft_eq_mul_twoPow, hpow, BitVec.ofInt_mul, BitVec.signExtend]

theorem wideBranchOffset_eq_ofInt (imm24 : BitVec 24) : wideBranchOffset imm24 = BitVec.ofInt 32 (imm24.toInt * 4) :=
  signExtend_shiftLeft_eq_ofInt imm24 2

/-! ## What each instruction does when its condition holds -/

theorem exec_wB_of_holds (c : Cond) (imm24 : BitVec 24) (s : State) (hc : condHolds c s = true) :
    exec (.wB c imm24) s = .next (s.branchTo (s.pc + wideBranchOffset imm24)) := by
  change execWB c imm24 s = _
  rw [execWB, whenCond_of_holds c _ s hc]

theorem exec_wBl_of_holds (c : Cond) (imm24 : BitVec 24) (s : State) (hc : condHolds c s = true) :
    exec (.wBl c imm24) s = .next ((s.setReg Reg.lr s.pc).branchTo (s.pc + wideBranchOffset imm24)) := by
  change execWBl c imm24 s = _
  rw [execWBl, whenCond_of_holds c _ s hc]

theorem exec_wSwi_of_holds (c : Cond) (comment24 : BitVec 24) (s : State) (hc : condHolds c s = true) :
    exec (.wSwi c comment24) s = .next (s.branchTo (s.getReg Reg.lr)) := by
  change execWSwi c comment24 s = _
  rw [execWSwi, whenCond_of_holds c _ s hc]

theorem exec_nSwi (comment8 : BitVec 8) (s : State) : exec (.nSwi comment8) s = .next (s.branchTo (s.getReg Reg.lr)) := rfl

/-! ## The statements -/

/-- Settles O24: both targets are `pc` plus the offset in bytes, reached by a branch for B and by a branch with link for BL. -/
theorem wideBranchesGoToTheirTargets : Obligations.WideBranchesGoToTheirTargets := by
  intro c imm24 s hc
  rw [exec_wB_of_holds c imm24 s hc, exec_wBl_of_holds c imm24 s hc, wideBranchOffset_eq_ofInt]
  exact ⟨branchTo_done s _, link_done s s.pc _⟩

/-- Settles O26: either form is a branch to R14 of the current mode, whatever its comment. -/
theorem softwareInterruptReturnsToTheLink : Obligations.SoftwareInterruptReturnsToTheLink := by
  intro s
  refine ⟨fun c comment24 hc => ?wide, fun comment8 => ?narrow⟩
  case wide =>
    rw [exec_wSwi_of_holds c comment24 s hc]
    exact branchTo_done s _
  case narrow =>
    rw [exec_nSwi]
    exact branchTo_done s _

end Sys2Proof.Machine
end

section
/-! PROOF. The statements of 43_wide_load_store.md: the wide loads (R223, R225) and the wide stores (R224, R226), each one transfer
of its width at the address of its offset form (R220 to R222). -/

namespace Sys2Proof.Machine

/-- Settles O28: LDR and LDRB run the shared load at the two widths, so `wideLoad_done` is what each does with either offset form. -/
theorem wideLoadResults : Obligations.WideLoadResults := by
  intro c p u w rn rd s hc
  have hload (n : Width) (o : SdtOffset) := wideLoad_done n c p u w rn rd o s hc
  refine ⟨?immediate, ?register⟩
  case immediate =>
    rintro imm12 _ rfl
    exact ⟨hload .word (.imm imm12), hload .byte (.imm imm12)⟩
  case register =>
    rintro shamt ty rm _ rfl
    exact ⟨hload .word (.reg shamt ty rm), hload .byte (.reg shamt ty rm)⟩

/-- Settles O29: STR and STRB run the shared store at the two widths, so `wideStore_done` is what each does with either offset form. -/
theorem wideStoreResults : Obligations.WideStoreResults := by
  intro c p u w rn rd s hc
  have hstore (n : Width) (o : SdtOffset) := wideStore_done n c p u w rn rd o s hc
  refine ⟨?immediate, ?register⟩
  case immediate =>
    rintro imm12 _ rfl
    exact ⟨hstore .word (.imm imm12), hstore .byte (.imm imm12)⟩
  case register =>
    rintro shamt ty rm _ rfl
    exact ⟨hstore .word (.reg shamt ty rm), hstore .byte (.reg shamt ty rm)⟩

end Sys2Proof.Machine
end

section
/-! PROOF. The statements of 44_narrow_alu.md: the narrow shifts, arithmetic, logic, moves and comparisons (R241 to R272), each one of
the shared narrow operations on the operands of its form. -/

namespace Sys2Proof.Machine

/-! ## Operands: a zero-extended immediate, and the low byte of a register -/

/-- An extension to a wider word leaves bit 31 clear (R248). -/
theorem getLsbD_31_setWidth {n : Nat} (x : BitVec n) (h : n ≤ 31) : (x.setWidth 32).getLsbD 31 = false := by
  rw [BitVec.getLsbD_setWidth, BitVec.getLsbD_of_ge x 31 h, Bool.and_false]

theorem setWidth_eq_zero_iff {n : Nat} (x : BitVec n) (h : n ≤ 32) : x.setWidth 32 = 0#32 ↔ x = 0#n := by
  rw [← BitVec.toNat_inj, ← BitVec.toNat_inj, BitVec.toNat_setWidth_of_le h, BitVec.toNat_zero, BitVec.toNat_zero]

theorem lowByte_eq_mod (v : Word) : lowByte v = v.toNat % 256 :=
  BitVec.extractLsb'_toNat 0 8 v

/-! ## Sums and differences as results and as comparisons -/

section Arithmetic

variable (rd : Reg) (s : State)

theorem narrowArith_done_of_eq (hrd : Reg.isLow rd = true) {x y : AluResult} (h : x = y) :
    ArithDone true rd y s (narrowArith rd x s) := by
  rw [h]
  exact narrowArith_done rd y s hrd

theorem narrowArith_aluAdd_done (hrd : Reg.isLow rd = true) (a b : Word) :
    ArithDone true rd (plainSum a b 0) s (narrowArith rd (aluAdd a b s.flagC) s) :=
  narrowArith_done_of_eq rd s hrd (aluAdd_eq a b s.flagC)

theorem narrowArith_aluSub_done (hrd : Reg.isLow rd = true) (a b : Word) :
    ArithDone true rd (plainDiff a b 0) s (narrowArith rd (aluSub a b s.flagC) s) :=
  narrowArith_done_of_eq rd s hrd (aluSub_eq a b s.flagC)

theorem narrowCompare_aluAdd_done (a b : Word) : CompareDone (plainSum a b 0) s (narrowCompare (aluAdd a b s.flagC) s) := by
  rw [aluAdd_eq]
  exact narrowCompare_done _ s

theorem narrowCompare_aluSub_done (a b : Word) : CompareDone (plainDiff a b 0) s (narrowCompare (aluSub a b s.flagC) s) := by
  rw [aluSub_eq]
  exact narrowCompare_done _ s

end Arithmetic

/-! ## The statements -/

/-- Settles O30: each is the shared narrow shift, of `Rs` by the immediate. -/
theorem narrowShiftsByImmediate : Obligations.NarrowShiftsByImmediate := by
  intro imm5 rs rd s _ hrd
  have hshift (ty : ShiftType) := narrowShift_done rd (shiftImm ty imm5.toNat (s.getReg rs) s.flagC) s hrd
  exact ⟨hshift .lsl, hshift .lsr, hshift .asr⟩

/-- Settles O31: a sum and a difference, on each of the three operand forms. -/
theorem narrowAddAndSubtract : Obligations.NarrowAddAndSubtract := by
  intro rs rd s _ hrd
  have hadd := narrowArith_aluAdd_done rd s hrd
  have hsub := narrowArith_aluSub_done rd s hrd
  simp only [BitVec.ofNat_toNat]
  exact ⟨fun rn _ => ⟨hadd _ _, hsub _ _⟩, fun imm3 => ⟨hadd _ _, hsub _ _⟩, fun imm8 => ⟨hadd _ _, hsub _ _⟩⟩

/-- Settles O32: a zero-extended byte has bit 31 clear and is 0 exactly where the byte is; the comparison is a difference. -/
theorem narrowMoveAndCompareImmediate : Obligations.NarrowMoveAndCompareImmediate := by
  intro rd imm8 s _
  rw [BitVec.ofNat_toNat]
  refine ⟨?move, narrowCompare_aluSub_done s _ _⟩
  case move =>
    obtain ⟨t, hnext, hreg, houtside, ⟨hn, hz⟩, hstatus⟩ := narrowLogical_next rd (imm8.setWidth 32) s
    refine ⟨t, hnext, hreg, houtside, ?_, ?_, hstatus⟩
    · rw [hn, getLsbD_31_setWidth imm8 (by decide)]
    · rw [hz, decide_eq_decide, setWidth_eq_zero_iff imm8 (by decide)]

/-- Settles O33: each is the shared narrow logical result, which leaves C and V. -/
theorem narrowLogic : Obligations.NarrowLogic := by
  intro rs rd s _ hrd
  have hlogical (r : Word) := narrowLogical_done rd r s hrd
  exact ⟨hlogical _, hlogical _, hlogical _, hlogical _, hlogical _⟩

/-- Settles O34: each is the shared narrow shift, of `Rd` by the low byte of `Rs`, which is `Rs` modulo 256. -/
theorem narrowShiftsByRegister : Obligations.NarrowShiftsByRegister := by
  rintro rs rd _ s _ hrd rfl
  rw [← lowByte_eq_mod]
  have hshift (ty : ShiftType) := narrowShift_done rd (shiftReg ty (lowByte (s.getReg rs)) (s.getReg rd) s.flagC) s hrd
  exact ⟨hshift .lsl, hshift .lsr, hshift .asr, hshift .ror⟩

/-- Settles O35: ADC is the sum with the carry, SBC the difference with the borrow, and NEG the difference from 0. -/
theorem narrowCarryArithmetic : Obligations.NarrowCarryArithmetic := by
  intro rs rd s _ hrd
  exact ⟨narrowArith_done_of_eq rd s hrd (aluAdc_eq _ _ s), narrowArith_done_of_eq rd s hrd (aluSbc_eq _ _ s),
    narrowArith_aluSub_done rd s hrd _ _⟩

/-- Settles O36: TST writes N and Z alone; CMP compares by a difference and CMN by a sum. -/
theorem narrowTests : Obligations.NarrowTests := by
  intro rs rd s _ _
  exact ⟨setNZ_testDone s _, narrowCompare_aluSub_done s _ _, narrowCompare_aluAdd_done s _ _⟩

/-- Settles O37: ADD and MOV are the write of a destination that may be R15; CMP is a comparison whatever `Rd` is. -/
theorem narrowHighRegisters : Obligations.NarrowHighRegisters := by
  intro rs rd s
  exact ⟨writeDest_done s rd _, writeDest_done s rd _, narrowCompare_aluSub_done s _ _⟩

end Sys2Proof.Machine
end

section
/-! PROOF. The statements of 45_narrow_branch_load_store.md: the narrow loads (R291, R293, R295) and stores (R292, R294), each the
shared transfer at the address of its form, and the narrow B and the two halves of narrow BL (R298 to R300). -/

namespace Sys2Proof.Machine

/-! ## Unsigned offsets as numbers (30_encoding.md R135) -/

/-- A left shift of a zero-extended field multiplies the value of the field, modulo 2 ^ 32. -/
theorem setWidth_shiftLeft_eq_ofNat {w : Nat} (x : BitVec w) (k : Nat) :
    x.setWidth 32 <<< k = BitVec.ofNat 32 (2 ^ k * x.toNat) := by
  apply BitVec.eq_of_toNat_eq
  rw [BitVec.toNat_shiftLeft, BitVec.toNat_setWidth, BitVec.toNat_ofNat, Nat.shiftLeft_eq, Nat.mod_mul_mod, Nat.mul_comm]

theorem literalAddress_eq (imm8 : BitVec 8) (s : State) :
    literalAddress imm8 s = (s.pc &&& 0xFFFFFFFC#32) + BitVec.ofNat 32 (4 * imm8.toNat) :=
  congrArg ((s.pc &&& 0xFFFFFFFC#32) + ·) (setWidth_shiftLeft_eq_ofNat imm8 2)

theorem narrowWordAddress_eq (imm5 : BitVec 5) (rb : Reg) (s : State) :
    narrowWordAddress imm5 rb s = s.getReg rb + BitVec.ofNat 32 (4 * imm5.toNat) :=
  congrArg (s.getReg rb + ·) (setWidth_shiftLeft_eq_ofNat imm5 2)

theorem narrowByteAddress_eq (imm5 : BitVec 5) (rb : Reg) (s : State) :
    narrowByteAddress imm5 rb s = s.getReg rb + BitVec.ofNat 32 imm5.toNat := by
  rw [narrowByteAddress, BitVec.ofNat_toNat]

/-! ## Branch offsets as numbers -/

theorem narrowBranchOffset_eq_ofInt (off11 : BitVec 11) : narrowBranchOffset off11 = BitVec.ofInt 32 (off11.toInt * 2) :=
  signExtend_shiftLeft_eq_ofInt off11 1

theorem blPrefixOffset_eq_ofInt (off11 : BitVec 11) : blPrefixOffset off11 = BitVec.ofInt 32 (off11.toInt * 4096) :=
  signExtend_shiftLeft_eq_ofInt off11 12

theorem blSuffixOffset_eq_ofNat (off11 : BitVec 11) : blSuffixOffset off11 = BitVec.ofNat 32 (2 * off11.toNat) :=
  setWidth_shiftLeft_eq_ofNat off11 1

/-! ## What each instruction does -/

theorem exec_nLdrPc (rd : Reg) (imm8 : BitVec 8) (s : State) :
    exec (.nLdrPc rd imm8) s = narrowLoad .word (literalAddress imm8 s) rd s := rfl

theorem exec_nLdrImm (imm5 : BitVec 5) (rb rd : Reg) (s : State) :
    exec (.nLdrImm imm5 rb rd) s = narrowLoad .word (narrowWordAddress imm5 rb s) rd s := rfl

theorem exec_nLdrbImm (imm5 : BitVec 5) (rb rd : Reg) (s : State) :
    exec (.nLdrbImm imm5 rb rd) s = narrowLoad .byte (narrowByteAddress imm5 rb s) rd s := rfl

theorem exec_nStrImm (imm5 : BitVec 5) (rb rd : Reg) (s : State) :
    exec (.nStrImm imm5 rb rd) s = narrowStore .word (narrowWordAddress imm5 rb s) rd s := rfl

theorem exec_nStrbImm (imm5 : BitVec 5) (rb rd : Reg) (s : State) :
    exec (.nStrbImm imm5 rb rd) s = narrowStore .byte (narrowByteAddress imm5 rb s) rd s := rfl

theorem exec_nB (off11 : BitVec 11) (s : State) :
    exec (.nB off11) s = .next (s.branchTo (s.pc + narrowBranchOffset off11)) := rfl

theorem exec_nBlPrefix (off11 : BitVec 11) (s : State) :
    exec (.nBlPrefix off11) s = .next (s.setReg Reg.lr (s.pc + blPrefixOffset off11)) := rfl

theorem exec_nBlSuffix (off11 : BitVec 11) (s : State) :
    exec (.nBlSuffix off11) s =
      .next ((s.setReg Reg.lr (s.pc ||| 1#32)).branchTo (s.getReg Reg.lr + blSuffixOffset off11)) := rfl

/-- A write of a register by its number changes the physical register it names in the current bank and nothing else. -/
theorem setReg_done (s : State) (r : Reg) (v : Word) : RegDone (phys s.bank r) v s (.next (s.setReg r v)) :=
  ⟨_, rfl, onlyReg_set s _ _ _ rfl, sameOutside_of_eq s _ rfl, rfl⟩

/-! ## The statements -/

/-- Settles O38: each is the shared narrow load, at the address of its form. -/
theorem narrowLoads : Obligations.NarrowLoads := by
  intro rb rd s _ hrd
  have hload (n : Width) (addr : Word) := narrowLoad_done n addr rd rb s hrd
  refine ⟨fun imm8 => ?literal, fun imm5 => ⟨?word, ?byte⟩⟩
  case literal =>
    rw [exec_nLdrPc, literalAddress_eq]
    exact hload .word _
  case word =>
    rw [exec_nLdrImm, narrowWordAddress_eq]
    exact hload .word _
  case byte =>
    rw [exec_nLdrbImm, narrowByteAddress_eq]
    exact hload .byte _

/-- Settles O39: each is the shared narrow store, at the address of its form. -/
theorem narrowStores : Obligations.NarrowStores := by
  intro imm5 rb rd s _ _
  rw [exec_nStrImm, exec_nStrbImm, narrowWordAddress_eq, narrowByteAddress_eq]
  exact ⟨narrowStore_done .word _ rd rb s, narrowStore_done .byte _ rd rb s⟩

/-- Settles O41: B is a branch, the prefix of BL a write of R14 alone, and the suffix a branch with link from the R14 it finds. -/
theorem narrowBranchesGoToTheirTargets : Obligations.NarrowBranchesGoToTheirTargets := by
  intro off11 s
  rw [exec_nB, exec_nBlPrefix, exec_nBlSuffix, narrowBranchOffset_eq_ofInt, blPrefixOffset_eq_ofInt, blSuffixOffset_eq_ofNat]
  exact ⟨branchTo_done s _, setReg_done s Reg.lr _, link_done s (s.pc ||| 1#32) _⟩

end Sys2Proof.Machine
end

section
/-! PROOF. The statement of 48_video_timing_unit.md: what one completed scanline leaves in each cell of the frame buffer (R316 to
R322). -/

namespace Sys2Proof.Machine

/-! ## The control value and the halfwords of a region as numbers (48_video_timing_unit.md R312, R317) -/

/-- The mode field of DISPCNT is its value modulo 8. -/
theorem mode_eq_ofNat_iff (ctl : Half) (k : Nat) (hk : k < 8) :
    ctl.extractLsb' 0 3 = BitVec.ofNat 3 k ↔ ctl.toNat % 8 = k := by
  rw [← BitVec.toNat_inj, BitVec.extractLsb'_toNat, BitVec.toNat_ofNat, Nat.shiftRight_zero, Nat.mod_eq_of_lt hk]

theorem regionHalf_toNat (m : Memory) (r : Region) (off : Nat) :
    (regionHalf m r off).toNat = (m.get (r.base + off)).toNat + 256 * (m.get (r.base + off + 1)).toNat :=
  toNat_append_byte _ _

/-! ## A cell by the mode of DISPCNT (48_video_timing_unit.md R318 to R321) -/

theorem renderPixel_blank (m : Memory) (ctl : Half) (y x : Nat) (h7 : ctl.getLsbD 7 = true) :
    renderPixel m ctl y x = blankPixel :=
  if_pos h7

theorem renderPixel_mode3 (m : Memory) (ctl : Half) (y x : Nat) (h7 : ¬ ctl.getLsbD 7 = true) (h3 : ctl.toNat % 8 = 3) :
    renderPixel m ctl y x = colour (regionHalf m .vram ((y * 240 + x) * 2)) := by
  rw [renderPixel, if_neg h7, if_pos ((mode_eq_ofNat_iff ctl 3 (by decide)).2 h3)]

theorem renderPixel_mode4 (m : Memory) (ctl : Half) (y x : Nat) (h7 : ¬ ctl.getLsbD 7 = true) (h4 : ctl.toNat % 8 = 4) :
    renderPixel m ctl y x =
      colour (regionHalf m .pal (2 * (m.get (Region.vram.base + pageBase ctl + y * 240 + x)).toNat)) := by
  have h3 : ¬ ctl.toNat % 8 = 3 := by omega
  have haddress : Region.key .vram (pageBase ctl + y * 240 + x) = Region.vram.base + pageBase ctl + y * 240 + x := by
    simp only [Region.key, Nat.add_assoc]
  rw [renderPixel, if_neg h7, if_neg ((mode_eq_ofNat_iff ctl 3 (by decide)).not.2 h3),
    if_pos ((mode_eq_ofNat_iff ctl 4 (by decide)).2 h4), haddress]

theorem renderPixel_otherMode (m : Memory) (ctl : Half) (y x : Nat) (h7 : ¬ ctl.getLsbD 7 = true)
    (h3 : ¬ ctl.toNat % 8 = 3) (h4 : ¬ ctl.toNat % 8 = 4) : renderPixel m ctl y x = diagPixel := by
  rw [renderPixel, if_neg h7, if_neg ((mode_eq_ofNat_iff ctl 3 (by decide)).not.2 h3),
    if_neg ((mode_eq_ofNat_iff ctl 4 (by decide)).not.2 h4)]

/-! ## An advance that completes one line (48_video_timing_unit.md R316, R317) -/

/-- With exactly one threshold crossed, the line left is the one rendered, where it is a visible one. -/
theorem advance_fb_of_one_line (c : Nat) (s : State) (hlow : 1232 ≤ s.vtu.acc + c) (hhigh : s.vtu.acc + c < 2464) :
    (advance c s).vtu.fb = if s.vtu.line < 160 then renderLine s.vtu.fb s.mem s.vtu.line else s.vtu.fb := by
  have hone : (s.vtu.acc + c) / 1232 = 1 := by omega
  show (advanceVtu c s.vtu s.mem).1.fb = _
  rw [advanceVtu_eq, hone]
  rfl

theorem advance_cell_of_one_line (c : Nat) (s : State) (hlow : 1232 ≤ s.vtu.acc + c) (hhigh : s.vtu.acc + c < 2464)
    (y x : Nat) (hy : y < 160) (hx : x < 240) :
    (((advance c s).vtu.fb)[y]'hy)[x]'hx =
      if y = s.vtu.line then renderPixel s.mem (dispcnt s.mem) y x else ((s.vtu.fb)[y]'hy)[x]'hx := by
  simp only [advance_fb_of_one_line c s hlow hhigh]
  by_cases hvisible : s.vtu.line < 160
  · simp only [if_pos hvisible, renderLine_get]
    split_ifs with hline
    · rw [hline]
    · rfl
  · have hother : y ≠ s.vtu.line := by omega
    simp only [if_neg hvisible, if_neg hother]

/-! ## The statement -/

/-- Settles O53: the one completed line renders its own row, and a cell of it is the one of the mode DISPCNT names. -/
theorem completedLineIsRendered : Obligations.CompletedLineIsRendered := by
  intro c s ctl colourOf hlow hhigh hctl hcolourOf y x hy hx
  have hdispcnt : dispcnt s.mem = ctl := hctl.symm
  have hcolour (h : Half) : colour h = colourOf h.toNat := (colour_eq h).trans (hcolourOf h.toNat).symm
  rw [advance_cell_of_one_line c s hlow hhigh y x hy hx, hdispcnt]
  by_cases hline : y = s.vtu.line
  case neg => rw [if_neg hline, if_pos hline]
  rw [if_pos hline, if_neg (not_not_intro hline)]
  by_cases h7 : ctl.getLsbD 7 = true
  · rw [if_pos h7, renderPixel_blank _ _ _ _ h7]
    rfl
  rw [if_neg h7]
  by_cases h3 : ctl.toNat % 8 = 3
  · rw [if_pos h3, renderPixel_mode3 _ _ _ _ h7 h3, hcolour, regionHalf_toNat]
    rfl
  rw [if_neg h3]
  by_cases h4 : ctl.toNat % 8 = 4
  · rw [if_pos h4, renderPixel_mode4 _ _ _ _ h7 h4, hcolour, regionHalf_toNat]
    rfl
  rw [if_neg h4, renderPixel_otherMode _ _ _ _ h7 h3 h4]
  rfl

end Sys2Proof.Machine
end

section
/-! PROOF. The statements of 49_input_latch_and_host.md: the button mask and its mirror in KEYINPUT (R341), and what each accessor of
the host reads, writes and refuses (R355 to R358). -/

namespace Sys2Proof.Machine

/-! ## The input latch (49_input_latch_and_host.md R341) -/

theorem setButton_of_known (id : Int) (pressed : Bool) (s : State) (hid : 0 ≤ id ∧ id ≤ 9) :
    setButton id pressed s =
      { s with
        buttons := pressButton id.toNat pressed s.buttons
        mem := mirrorButtons (pressButton id.toNat pressed s.buttons) s.mem } :=
  if_pos hid

theorem setButton_of_unknown (id : Int) (pressed : Bool) (s : State) (hid : ¬ (0 ≤ id ∧ id ≤ 9)) :
    setButton id pressed s = s :=
  if_neg hid

/-- Settles O58: a known identifier presses one bit of the mask and mirrors the mask into the two bytes of KEYINPUT; an unknown one
is ignored. -/
theorem setButtonMirrorsTheMask : Obligations.SetButtonMirrorsTheMask := by
  rintro id pressed s t rfl
  refine ⟨fun hlow hhigh => ?known, setButton_of_unknown id pressed s⟩
  case known =>
    have hbit : id.toNat < 16 := by omega
    rw [setButton_of_known id pressed s ⟨hlow, hhigh⟩]
    exact ⟨fun j => getLsbD_pressButton _ _ _ j hbit, keyinput_mirrorButtons _ _, get_mirrorButtons_of_ne _ _, rfl⟩

/-! ## Register access (49_input_latch_and_host.md R355, R358) -/

theorem regIndex?_of_mem (i : Int) (hi : 0 ≤ i ∧ i ≤ 15) : regIndex? i = some (BitVec.ofNat 4 i.toNat) :=
  if_pos hi

theorem regIndex?_of_not_mem (i : Int) (hi : ¬ (0 ≤ i ∧ i ≤ 15)) : regIndex? i = none :=
  if_neg hi

theorem portStep_getRegister (i : Int) (r : Reg) (s : State) (hi : regIndex? i = some r) :
    portStep (.getRegister i) s = .next (.word (s.getReg r), s) := by
  simp only [portStep, hi]

theorem portStep_setRegister (i : Int) (v : Nat) (r : Reg) (s : State) (hi : regIndex? i = some r) :
    portStep (.setRegister i v) s = .next (.unit, s.setReg r (BitVec.ofNat 32 v)) := by
  simp only [portStep, hi]

theorem portStep_register_refused (i : Int) (v : Nat) (s : State) (hi : regIndex? i = none) :
    portStep (.setRegister i v) s = .refused (.contractViolation "set_register") ∧
    portStep (.getRegister i) s = .refused (.contractViolation "get_register") := by
  simp only [portStep, hi, violates, and_self]

/-- A register reads back what was written to it; for R15 that is the unmasked value of `pc`. -/
theorem State.getReg_setReg_same (s : State) (r : Reg) (v : Word) : (s.setReg r v).getReg r = v := by
  rw [State.getReg_setReg, if_pos rfl]

theorem State.setReg_pc (s : State) (v : Word) : (s.setReg Reg.pc v).pc = v := by
  rw [← State.getReg_pc, State.getReg_setReg_same]

/-! ## The status register, its flags and its mode (49_input_latch_and_host.md R356, R357) -/

/-- A write of the status register changes no general register, no byte of memory and nothing else. -/
theorem cpsrWrite_frame (s : State) (w : Word) :
    SameRegs s { s with cpsr := w } ∧ SameOutside s { s with cpsr := w } :=
  ⟨fun _ => rfl, sameOutside_of_eq s _ rfl⟩

theorem StatusFlag.bit_lt (f : StatusFlag) : f.bit < 32 := by cases f <;> decide

theorem sameStatusBut_setBit (s : State) (i : Nat) (b : Bool) (hi : i < 32) :
    SameStatusBut [i] s { s with cpsr := setBit s.cpsr i b } := by
  intro j hj
  rw [List.mem_singleton] at hj
  rw [getLsbD_setBit _ _ _ _ hi, if_neg hj]

theorem sameStatusBut_setMode (m : BitVec 5) (s : State) : SameStatusBut [0, 1, 2, 3, 4] s (setMode m s) := by
  intro j hj
  have hoffField : ¬ j < 5 := by
    simp only [List.mem_cons, List.not_mem_nil, or_false] at hj
    omega
  rw [getLsbD_setMode, if_neg hoffField]

/-! ## The saved-status registers (49_input_latch_and_host.md R356, R358) -/

/-- Every bank but `usr` has a saved-status register, and a write of it leaves those of the other banks. -/
theorem SpsrFile.exists_set? (f : SpsrFile) (v : Word) (b : Bank) (hb : b ≠ .usr) :
    ∃ g, f.set? v b = some g ∧
      g.fiq = (if b = .fiq then v else f.fiq) ∧ g.irq = (if b = .irq then v else f.irq) ∧
      g.svc = (if b = .svc then v else f.svc) ∧ g.abt = (if b = .abt then v else f.abt) ∧
      g.und = (if b = .und then v else f.und) := by
  cases b
  case usr => exact absurd rfl hb
  all_goals exact ⟨_, rfl, rfl, rfl, rfl, rfl, rfl⟩

theorem portStep_getSavedStatus (b : Bank) (v : Word) (s : State) (h : s.spsr.get? b = some v) :
    portStep (.getSavedStatus b) s = .next (.word v, s) := by
  simp only [portStep, h]

theorem portStep_setSavedStatus (b : Bank) (v : Word) (g : SpsrFile) (s : State) (h : s.spsr.set? v b = some g) :
    portStep (.setSavedStatus b v) s = .next (.unit, { s with spsr := g }) := by
  simp only [portStep, h]

/-! ## The other domains of the host contract (49_input_latch_and_host.md R358) -/

theorem Width.ofNat?_of_ne (n : Nat) (h1 : n ≠ 1) (h2 : n ≠ 2) (h4 : n ≠ 4) : Width.ofNat? n = none := by
  unfold Width.ofNat?
  split
  · exact absurd rfl h1
  · exact absurd rfl h2
  · exact absurd rfl h4
  · rfl

theorem portStep_access_refused (a : Word) (v n : Nat) (s : State) (hn : Width.ofNat? n = none) :
    portStep (.read a n) s = .refused (.contractViolation "read") ∧
    portStep (.write a v n) s = .refused (.contractViolation "write") := by
  simp only [portStep, hn, violates, and_self]

theorem portStep_advance_refused (c : Int) (s : State) (hc : c < 0) :
    portStep (.advance c) s = .refused (.contractViolation "advance") :=
  if_neg (Int.not_le.2 hc)

/-! ## The statement -/

/-- Settles O60: a register access inside its domain is a read or a write through the banking rule; a write of a flag, of the mode or
of the whole status register changes its own bits; a saved-status access reads or writes the register of its bank; every call outside
its domain is refused. -/
theorem hostAccessAndItsContract : Obligations.HostAccessAndItsContract := by
  intro s
  refine ⟨?getRegister, ?setRegister, ?registerRefused, ?flag, rfl, ?setStatus, rfl, rfl, rfl, rfl, rfl, rfl, ?setSavedStatus,
    ?setMode, rfl, rfl, rfl, ?access, fun c => portStep_advance_refused c s, fun v => ⟨rfl, rfl⟩⟩
  case getRegister =>
    intro i hlow hhigh
    exact portStep_getRegister i _ s (regIndex?_of_mem i ⟨hlow, hhigh⟩)
  case setRegister =>
    intro i v hlow hhigh
    have hi := regIndex?_of_mem i ⟨hlow, hhigh⟩
    refine ⟨_, portStep_setRegister i v _ s hi, onlyReg_set s _ _ _ rfl, sameOutside_of_eq s _ rfl, rfl, ?readBack, ?pc⟩
    case readBack => rw [portStep_getRegister i _ _ hi, State.getReg_setReg_same]
    case pc =>
      rintro rfl
      exact State.setReg_pc s _
  case registerRefused =>
    intro i v hi
    exact portStep_register_refused i v s (regIndex?_of_not_mem i hi)
  case flag =>
    intro f k hk
    obtain rfl : k = f.bit := by rw [hk]; cases f <;> rfl
    have hbit := f.bit_lt
    refine ⟨rfl, fun b => ⟨_, rfl, ?_, sameStatusBut_setBit s _ b hbit, cpsrWrite_frame s _⟩⟩
    rw [getLsbD_setBit _ _ _ _ hbit, if_pos rfl]
  case setStatus => exact fun v => ⟨_, rfl, rfl, cpsrWrite_frame s v⟩
  case setSavedStatus =>
    intro b v hb
    obtain ⟨g, hset, hfiq, hirq, hsvc, habt, hund⟩ := s.spsr.exists_set? v b hb
    have hread : g.get? b = some v := by rw [SpsrFile.get?_of_set? _ _ _ _ b hset, if_pos rfl]
    exact ⟨_, portStep_setSavedStatus b v g s hset, rfl, hfiq, hirq, hsvc, habt, hund, portStep_getSavedStatus b v _ hread⟩
  case setMode =>
    intro m
    obtain ⟨hregs, houtside⟩ := cpsrWrite_frame s (setMode m s).cpsr
    exact ⟨_, rfl, mode_setMode m s, hregs, houtside, sameStatusBut_setMode m s⟩
  case access =>
    intro a v n h1 h2 h4
    exact portStep_access_refused a v n s (Width.ofNat?_of_ne n h1 h2 h4)

end Sys2Proof.Machine
end

section
/-! PROOF. The round trips of 30_encoding.md: the decoder reads back what the encoder writes, for every well-formed instruction; and
the encoder writes back what a pattern decodes to, up to the ignored bits (41_wide_data_processing.md R177;
45_narrow_branch_load_store.md R290). -/

namespace Sys2Proof.Machine

/-! ## What a decode result owes to its pattern -/

/-- An instruction that `u` decodes to is well formed, and its encoding is `u` with the bits it ignores cleared. -/
def ReadsBack (u : CodeUnit) (d : Decoded) : Prop :=
  ∀ i, d = .instr i → i.wellFormed = true ∧ encode i = clearIgnored i u

theorem readsBack_reserved (u : CodeUnit) (r : Reserved) : ReadsBack u (.reserved r) :=
  fun _ h => Decoded.noConfusion h

theorem readsBack_instr {u : CodeUnit} {i : Instr} (hwf : i.wellFormed = true) (h : encode i = clearIgnored i u) :
    ReadsBack u (.instr i) := by
  rintro _ ⟨⟩
  exact ⟨hwf, h⟩

theorem clearIgnored_of_nothing (i : Instr) (u : CodeUnit) (h : ignoredBits i = 0#32) : clearIgnored i u = u := by
  cases u with
  | wide w => rw [clearIgnored, h, BitVec.not_zero, BitVec.and_allOnes]
  | narrow x => rw [clearIgnored, h, BitVec.setWidth_zero, BitVec.not_zero, BitVec.and_allOnes]

/-- The encoding of a wide instruction, where it is the word with the ignored bits cleared. -/
theorem readsBack_wide {w v : Word} {i : Instr} (hwf : i.wellFormed = true) (hi : encode i = .wide v)
    (hv : w &&& ~~~ignoredBits i = v) : ReadsBack (.wide w) (.instr i) :=
  readsBack_instr hwf (by rw [hi, ← hv, clearIgnored])

/-- The encoding of an instruction that ignores no bit is its whole pattern. -/
theorem readsBack_whole {u v : CodeUnit} {i : Instr} (hwf : i.wellFormed = true) (hnone : ignoredBits i = 0#32)
    (hi : encode i = v) (hv : v = u) : ReadsBack u (.instr i) :=
  readsBack_instr hwf (by rw [hi, hv, clearIgnored_of_nothing i u hnone])

theorem readsBack_wholeWide {w v : Word} {i : Instr} (hwf : i.wellFormed = true) (hnone : ignoredBits i = 0#32)
    (hi : encode i = .wide v) (hv : v = w) : ReadsBack (.wide w) (.instr i) :=
  readsBack_whole hwf hnone hi (congrArg CodeUnit.wide hv)

theorem readsBack_wholeNarrow {h v : Half} {i : Instr} (hwf : i.wellFormed = true) (hnone : ignoredBits i = 0#32)
    (hi : encode i = .narrow v) (hv : v = h) : ReadsBack (.narrow h) (.instr i) :=
  readsBack_whole hwf hnone hi (congrArg CodeUnit.narrow hv)

/-! ## Fields of a pattern -/

theorem field_of_bit {W : Nat} (x : BitVec W) (k : Nat) : BitVec.ofBool (x.getLsbD k) = x.extractLsb' k 1 :=
  ((field_bit_iff x k _).2 rfl).symm

theorem field_of_clear_bit {W : Nat} (x : BitVec W) (k : Nat) (h : x.getLsbD k = false) : 0#1 = x.extractLsb' k 1 :=
  ((field_bit_iff x k false).2 h).symm

theorem field_of_set_bit {W : Nat} (x : BitVec W) (k : Nat) (h : x.getLsbD k = true) : 1#1 = x.extractLsb' k 1 :=
  ((field_bit_iff x k true).2 h).symm

theorem field_of_field {W : Nat} (x : BitVec W) (k w i n : Nat) (h : i + n ≤ w) :
    (x.extractLsb' k w).extractLsb' i n = x.extractLsb' (k + i) n := by
  ext j hj
  simp [show i + j < w by omega, Nat.add_assoc]

theorem three_bits_last (k : BitVec 3) (h0 : k.toNat ≠ 0) (h1 : k.toNat ≠ 1) (h2 : k.toNat ≠ 2) (h3 : k.toNat ≠ 3)
    (h4 : k.toNat ≠ 4) (h5 : k.toNat ≠ 5) (h6 : k.toNat ≠ 6) : k = 7#3 :=
  BitVec.eq_of_toNat_eq (show k.toNat = 7 by omega)

theorem two_bits_last (k : BitVec 2) (h0 : k.toNat ≠ 0) (h1 : k.toNat ≠ 1) (h2 : k.toNat ≠ 2) : k = 3#2 :=
  BitVec.eq_of_toNat_eq (show k.toNat = 3 by omega)

/-! ## Wide data processing: a word is its fields, and what clearing `Rn` or `Rd` makes of it (R113, R114, R177) -/

/-- Only a test with S = 1 is data processing: with S = 0 the pattern is a status transfer (R119, R140 item 2). -/
theorem bit_S_of_test (w : Word) (op : BitVec 4) (hstatus : ¬ isStatusTransfer w = true) (hop : fieldOpcode w = op.toNat)
    (htest : op.extractLsb' 2 2 = 2#2) : w.getLsbD 20 = true := by
  rw [← BitVec.eq_of_toNat_eq hop, field_of_field _ _ _ _ _ (by decide)] at htest
  simpa [isStatusTransfer, htest] using hstatus

theorem dpImmWord_of_fields (w : Word) (op : BitVec 4) (htop : w.extractLsb' 25 3 = 0b001#3) (hop : fieldOpcode w = op.toNat) :
    dpImmWord (condOf w) op (w.getLsbD 20) (fieldRn w) (fieldRd w) (w.extractLsb' 8 4) (w.extractLsb' 0 8) = w := by
  rw [dpImmWord, ← htop, ← BitVec.eq_of_toNat_eq hop]
  simp (disch := rfl) only [condOf, fieldRn, fieldRd, Cond.toBits_ofBits, field_of_bit,
    BitVec.extractLsb'_append_extractLsb'_eq_extractLsb', field_all]

theorem dpShiWord_of_fields (w : Word) (op : BitVec 4) (htop : w.extractLsb' 25 3 = 0b000#3) (h4 : w.getLsbD 4 = false)
    (hop : fieldOpcode w = op.toNat) :
    dpShiWord (condOf w) op (w.getLsbD 20) (fieldRn w) (fieldRd w) (fieldShamt w) (fieldType w) (fieldRm w) = w := by
  rw [dpShiWord, ← htop, ← BitVec.eq_of_toNat_eq hop, field_of_clear_bit w 4 h4]
  simp (disch := rfl) only [condOf, fieldRn, fieldRd, fieldShamt, fieldType, fieldRm, Cond.toBits_ofBits,
    ShiftType.toBits_ofBits, field_of_bit, BitVec.extractLsb'_append_extractLsb'_eq_extractLsb', field_all]

theorem dpShrWord_of_fields (w : Word) (op : BitVec 4) (htop : w.extractLsb' 25 3 = 0b000#3) (h4 : w.getLsbD 4 = true)
    (h7 : w.getLsbD 7 = false) (hop : fieldOpcode w = op.toNat) :
    dpShrWord (condOf w) op (w.getLsbD 20) (fieldRn w) (fieldRd w) (w.extractLsb' 8 4) (fieldType w) (fieldRm w) = w := by
  rw [dpShrWord, ← htop, ← BitVec.eq_of_toNat_eq hop, field_of_set_bit w 4 h4, field_of_clear_bit w 7 h7]
  simp (disch := rfl) only [condOf, fieldRn, fieldRd, fieldType, fieldRm, Cond.toBits_ofBits,
    ShiftType.toBits_ofBits, field_of_bit, BitVec.extractLsb'_append_extractLsb'_eq_extractLsb', field_all]

/-- Clearing the bits of `Rn` or of `Rd` in an encoded word writes that field 0. -/
theorem dpImmWord_clear (c : Cond) (op : BitVec 4) (sf : Bool) (rn rd : Reg) (rot : BitVec 4) (imm8 : BitVec 8) :
    dpImmWord c op sf rn rd rot imm8 &&& ~~~0x000F0000#32 = dpImmWord c op sf 0#4 rd rot imm8 ∧
    dpImmWord c op sf rn rd rot imm8 &&& ~~~0x0000F000#32 = dpImmWord c op sf rn 0#4 rot imm8 := by
  have hrn : ~~~0x000F0000#32 = BitVec.allOnes 4 ++ BitVec.allOnes 3 ++ BitVec.allOnes 4 ++ BitVec.allOnes 1 ++ 0#4 ++
    BitVec.allOnes 4 ++ BitVec.allOnes 4 ++ BitVec.allOnes 8 := rfl
  have hrd : ~~~0x0000F000#32 = BitVec.allOnes 4 ++ BitVec.allOnes 3 ++ BitVec.allOnes 4 ++ BitVec.allOnes 1 ++
    BitVec.allOnes 4 ++ 0#4 ++ BitVec.allOnes 4 ++ BitVec.allOnes 8 := rfl
  rw [hrn, hrd]
  constructor <;> refine BitVec.and_append.trans ?_ <;>
    simp only [dpImmWord, BitVec.and_append, BitVec.and_allOnes, BitVec.and_zero]

theorem dpShiWord_clear (c : Cond) (op : BitVec 4) (sf : Bool) (rn rd : Reg) (shamt : BitVec 5) (ty : ShiftType) (rm : Reg) :
    dpShiWord c op sf rn rd shamt ty rm &&& ~~~0x000F0000#32 = dpShiWord c op sf 0#4 rd shamt ty rm ∧
    dpShiWord c op sf rn rd shamt ty rm &&& ~~~0x0000F000#32 = dpShiWord c op sf rn 0#4 shamt ty rm := by
  have hrn : ~~~0x000F0000#32 = BitVec.allOnes 4 ++ BitVec.allOnes 3 ++ BitVec.allOnes 4 ++ BitVec.allOnes 1 ++ 0#4 ++
    BitVec.allOnes 4 ++ BitVec.allOnes 5 ++ BitVec.allOnes 2 ++ BitVec.allOnes 1 ++ BitVec.allOnes 4 := rfl
  have hrd : ~~~0x0000F000#32 = BitVec.allOnes 4 ++ BitVec.allOnes 3 ++ BitVec.allOnes 4 ++ BitVec.allOnes 1 ++
    BitVec.allOnes 4 ++ 0#4 ++ BitVec.allOnes 5 ++ BitVec.allOnes 2 ++ BitVec.allOnes 1 ++ BitVec.allOnes 4 := rfl
  rw [hrn, hrd]
  constructor <;> refine BitVec.and_append.trans ?_ <;>
    simp only [dpShiWord, BitVec.and_append, BitVec.and_allOnes, BitVec.and_zero]

theorem dpShrWord_clear (c : Cond) (op : BitVec 4) (sf : Bool) (rn rd rs : Reg) (ty : ShiftType) (rm : Reg) :
    dpShrWord c op sf rn rd rs ty rm &&& ~~~0x000F0000#32 = dpShrWord c op sf 0#4 rd rs ty rm ∧
    dpShrWord c op sf rn rd rs ty rm &&& ~~~0x0000F000#32 = dpShrWord c op sf rn 0#4 rs ty rm := by
  have hrn : ~~~0x000F0000#32 = BitVec.allOnes 4 ++ BitVec.allOnes 3 ++ BitVec.allOnes 4 ++ BitVec.allOnes 1 ++ 0#4 ++
    BitVec.allOnes 4 ++ BitVec.allOnes 4 ++ BitVec.allOnes 1 ++ BitVec.allOnes 2 ++ BitVec.allOnes 1 ++ BitVec.allOnes 4 := rfl
  have hrd : ~~~0x0000F000#32 = BitVec.allOnes 4 ++ BitVec.allOnes 3 ++ BitVec.allOnes 4 ++ BitVec.allOnes 1 ++
    BitVec.allOnes 4 ++ 0#4 ++ BitVec.allOnes 4 ++ BitVec.allOnes 1 ++ BitVec.allOnes 2 ++ BitVec.allOnes 1 ++
    BitVec.allOnes 4 := rfl
  rw [hrn, hrd]
  constructor <;> refine BitVec.and_append.trans ?_ <;>
    simp only [dpShrWord, BitVec.and_append, BitVec.and_allOnes, BitVec.and_zero]

/-! ## The other wide formats: a word is its fields (R115 to R117) -/

theorem sdtImmWord_of_fields (w : Word) (b l : Bool) (htop : w.extractLsb' 25 3 = 0b010#3) (hl : w.getLsbD 20 = l)
    (hb : w.getLsbD 22 = b) :
    sdtImmWord (condOf w) (w.getLsbD 24) (w.getLsbD 23) b (w.getLsbD 21) l (fieldRn w) (fieldRd w) (w.extractLsb' 0 12) = w := by
  rw [sdtImmWord, ← htop, ← hl, ← hb]
  simp (disch := rfl) only [condOf, fieldRn, fieldRd, Cond.toBits_ofBits, field_of_bit,
    BitVec.extractLsb'_append_extractLsb'_eq_extractLsb', field_all]

theorem sdtRegWord_of_fields (w : Word) (b l : Bool) (htop : w.extractLsb' 25 3 = 0b011#3) (h4 : w.getLsbD 4 = false)
    (hl : w.getLsbD 20 = l) (hb : w.getLsbD 22 = b) :
    sdtRegWord (condOf w) (w.getLsbD 24) (w.getLsbD 23) b (w.getLsbD 21) l (fieldRn w) (fieldRd w) (fieldShamt w) (fieldType w)
      (fieldRm w) = w := by
  rw [sdtRegWord, ← htop, ← hl, ← hb, field_of_clear_bit w 4 h4]
  simp (disch := rfl) only [condOf, fieldRn, fieldRd, fieldShamt, fieldType, fieldRm, Cond.toBits_ofBits,
    ShiftType.toBits_ofBits, field_of_bit, BitVec.extractLsb'_append_extractLsb'_eq_extractLsb', field_all]

theorem branchWord_of_fields (w : Word) (l : Bool) (htop : w.extractLsb' 25 3 = 0b101#3) (hl : w.getLsbD 24 = l) :
    branchWord (condOf w) l (w.extractLsb' 0 24) = w := by
  rw [branchWord, ← htop, ← hl]
  simp (disch := rfl) only [condOf, Cond.toBits_ofBits, field_of_bit, BitVec.extractLsb'_append_extractLsb'_eq_extractLsb',
    field_all]

theorem swiWord_of_fields (w : Word) (htop : w.extractLsb' 24 4 = 0b1111#4) : swiWord (condOf w) (w.extractLsb' 0 24) = w := by
  rw [swiWord, ← htop]
  simp (disch := rfl) only [condOf, Cond.toBits_ofBits, BitVec.extractLsb'_append_extractLsb'_eq_extractLsb', field_all]

/-- The BX pattern fixes bits 27:4 (R115). -/
theorem bxWord_of_pattern (w : Word) (h : w &&& 0x0FFFFFF0#32 = 0x012FFF10#32) : bxWord (condOf w) (fieldRm w) = w := by
  have hmid : w.extractLsb' 4 24 = 0x12FFF1#24 := by
    have hand : (w &&& 0x0FFFFFF0#32).extractLsb' 4 24 = w.extractLsb' 4 24 &&& BitVec.allOnes 24 := BitVec.extractLsb'_and
    rw [← BitVec.and_allOnes (x := w.extractLsb' 4 24), ← hand, h]
    rfl
  rw [bxWord, ← hmid]
  simp (disch := rfl) only [condOf, fieldRm, Cond.toBits_ofBits, BitVec.extractLsb'_append_extractLsb'_eq_extractLsb', field_all]

/-! ## The narrow formats: a halfword is its fields (R121 to R127) -/

@[simp] theorem Reg.low_ofLow (b : BitVec 3) : (Reg.ofLow b).low = b := BitVec.extractLsb'_append_eq_right

theorem n1Half_of_fields (h : Half) (op : BitVec 2) (htop : h.extractLsb' 13 3 = 0b000#3)
    (hop : (h.extractLsb' 11 2).toNat = op.toNat) : n1Half op (h.extractLsb' 6 5) (low3 h) (low0 h) = h := by
  rw [n1Half, ← htop, ← BitVec.eq_of_toNat_eq hop]
  simp (disch := rfl) only [low3, low0, Reg.low_ofLow, BitVec.extractLsb'_append_extractLsb'_eq_extractLsb', field_all]

/-- The middle field of N2 is a register or a number (R122). -/
theorem n2Half_of_fields (h : Half) (i op : BitVec 1) (f : BitVec 3) (htop : h.extractLsb' 11 5 = 0b00011#5)
    (hi : BitVec.ofBool (h.getLsbD 10) = i) (hop : BitVec.ofBool (h.getLsbD 9) = op) (hf : h.extractLsb' 6 3 = f) :
    n2Half i op f (low3 h) (low0 h) = h := by
  rw [n2Half, ← htop, ← hi, ← hop, ← hf]
  simp (disch := rfl) only [low3, low0, Reg.low_ofLow, field_of_bit, BitVec.extractLsb'_append_extractLsb'_eq_extractLsb',
    field_all]

theorem n3Half_of_fields (h : Half) (op : BitVec 2) (htop : h.extractLsb' 13 3 = 0b001#3)
    (hop : (h.extractLsb' 11 2).toNat = op.toNat) : n3Half op (low8 h) (h.extractLsb' 0 8) = h := by
  rw [n3Half, ← htop, ← BitVec.eq_of_toNat_eq hop]
  simp (disch := rfl) only [low8, Reg.low_ofLow, BitVec.extractLsb'_append_extractLsb'_eq_extractLsb', field_all]

theorem n4Half_of_fields (h : Half) (op : BitVec 4) (htop : h.extractLsb' 10 6 = 0b010000#6)
    (hop : (h.extractLsb' 6 4).toNat = op.toNat) : n4Half op (low3 h) (low0 h) = h := by
  rw [n4Half, ← htop, ← BitVec.eq_of_toNat_eq hop]
  simp (disch := rfl) only [low3, low0, Reg.low_ofLow, BitVec.extractLsb'_append_extractLsb'_eq_extractLsb', field_all]

/-- The top bit of `highRd` is H1, the others are the field in bits 2:0 (R125). -/
theorem highRd_fields (h : Half) :
    (highRd h).extractLsb' 3 1 = h.extractLsb' 7 1 ∧ (highRd h).extractLsb' 0 3 = h.extractLsb' 0 3 :=
  ⟨BitVec.extractLsb'_append_eq_left, BitVec.extractLsb'_append_eq_right⟩

theorem n5Half_of_fields (h : Half) (op : BitVec 2) (htop : h.extractLsb' 10 6 = 0b010001#6)
    (hop : (h.extractLsb' 8 2).toNat = op.toNat) : n5Half op (highRs h) (highRd h) = h := by
  rw [n5Half, (highRd_fields h).1, (highRd_fields h).2, ← htop, ← BitVec.eq_of_toNat_eq hop]
  simp (disch := rfl) only [highRs, BitVec.extractLsb'_append_extractLsb'_eq_extractLsb', field_all]

/-- Clearing bits 2:0 of an N5 halfword with H1 = 0 writes its `Rd` 0. -/
theorem n5Half_clear (op : BitVec 2) (rs rd : Reg) (hhigh : rd.extractLsb' 3 1 = 0#1) :
    n5Half op rs rd &&& ~~~7#16 = n5Half op rs 0#4 := by
  have hmask : ~~~7#16 = BitVec.allOnes 6 ++ BitVec.allOnes 2 ++ BitVec.allOnes 1 ++ BitVec.allOnes 4 ++ 0#3 := rfl
  rw [n5Half, hhigh, hmask]
  refine BitVec.and_append.trans ?_
  simp only [BitVec.and_append, BitVec.and_allOnes, BitVec.and_zero]
  rfl

theorem n6Half_of_fields (h : Half) (htop : h.extractLsb' 11 5 = 0b01001#5) : n6Half (low8 h) (h.extractLsb' 0 8) = h := by
  rw [n6Half, ← htop]
  simp (disch := rfl) only [low8, Reg.low_ofLow, BitVec.extractLsb'_append_extractLsb'_eq_extractLsb', field_all]

theorem n9Half_of_fields (h : Half) (b l : BitVec 1) (htop : h.extractLsb' 13 3 = 0b011#3)
    (hb : BitVec.ofBool (h.getLsbD 12) = b) (hl : BitVec.ofBool (h.getLsbD 11) = l) :
    n9Half b l (h.extractLsb' 6 5) (low3 h) (low0 h) = h := by
  rw [n9Half, ← htop, ← hb, ← hl]
  simp (disch := rfl) only [low3, low0, Reg.low_ofLow, field_of_bit, BitVec.extractLsb'_append_extractLsb'_eq_extractLsb',
    field_all]

theorem n16Half_of_fields (h : Half) (cond : BitVec 4) (htop : h.extractLsb' 12 4 = 0b1101#4)
    (hcond : (h.extractLsb' 8 4).toNat = cond.toNat) : n16Half cond (h.extractLsb' 0 8) = h := by
  rw [n16Half, ← htop, ← BitVec.eq_of_toNat_eq hcond]
  simp (disch := rfl) only [BitVec.extractLsb'_append_extractLsb'_eq_extractLsb', field_all]

theorem n18Half_of_fields (h : Half) (hi : BitVec 2) (htop : h.extractLsb' 13 3 = 0b111#3)
    (hhi : (h.extractLsb' 11 2).toNat = hi.toNat) : n18Half (0b111#3 ++ hi) (h.extractLsb' 0 11) = h := by
  rw [n18Half, ← htop, ← BitVec.eq_of_toNat_eq hhi]
  simp (disch := rfl) only [BitVec.extractLsb'_append_extractLsb'_eq_extractLsb', field_all]

/-! ## The wide decoder reads back, format by format (R113 to R119) -/

theorem readsBack_decodeDpImm (w : Word) (htop : w.extractLsb' 25 3 = 0b001#3)
    (hstatus : ¬ isStatusTransfer w = true) : ReadsBack (.wide w) (.instr (decodeDpImm w)) := by
  have whole (op : BitVec 4) := dpImmWord_of_fields w op htop
  have clear (op : BitVec 4) := dpImmWord_clear (condOf w) op (w.getLsbD 20) (fieldRn w) (fieldRd w) (w.extractLsb' 8 4)
    (w.extractLsb' 0 8)
  have move (op : BitVec 4) (hop : fieldOpcode w = op.toNat) := whole op hop ▸ (clear op).1
  have test (op : BitVec 4) (hop : fieldOpcode w = op.toNat) (h : op.extractLsb' 2 2 = 2#2) :=
    bit_S_of_test w op hstatus hop h ▸ whole op hop ▸ (clear op).2
  fun_cases decodeDpImm w
  case case9 hop | case10 hop | case11 hop | case12 hop => exact readsBack_wide rfl rfl (test _ hop rfl)
  case case14 hop => exact readsBack_wide rfl rfl (move _ hop)
  case case16 =>
    have hop : fieldOpcode w = 15 := by
      have hlt : fieldOpcode w < 16 := BitVec.isLt _
      simp only [imp_false] at *
      omega
    exact readsBack_wide rfl rfl (move _ hop)
  all_goals exact readsBack_wholeWide rfl rfl rfl (whole _ ‹_›)

theorem readsBack_decodeDpShi (w : Word) (htop : w.extractLsb' 25 3 = 0b000#3) (h4 : w.getLsbD 4 = false)
    (hstatus : ¬ isStatusTransfer w = true) : ReadsBack (.wide w) (.instr (decodeDpShi w)) := by
  have whole (op : BitVec 4) := dpShiWord_of_fields w op htop h4
  have clear (op : BitVec 4) := dpShiWord_clear (condOf w) op (w.getLsbD 20) (fieldRn w) (fieldRd w) (fieldShamt w)
    (fieldType w) (fieldRm w)
  have move (op : BitVec 4) (hop : fieldOpcode w = op.toNat) := whole op hop ▸ (clear op).1
  have test (op : BitVec 4) (hop : fieldOpcode w = op.toNat) (h : op.extractLsb' 2 2 = 2#2) :=
    bit_S_of_test w op hstatus hop h ▸ whole op hop ▸ (clear op).2
  fun_cases decodeDpShi w
  case case9 hop | case10 hop | case11 hop | case12 hop => exact readsBack_wide rfl rfl (test _ hop rfl)
  case case14 hop => exact readsBack_wide rfl rfl (move _ hop)
  case case16 =>
    have hop : fieldOpcode w = 15 := by
      have hlt : fieldOpcode w < 16 := BitVec.isLt _
      simp only [imp_false] at *
      omega
    exact readsBack_wide rfl rfl (move _ hop)
  all_goals exact readsBack_wholeWide rfl rfl rfl (whole _ ‹_›)

theorem readsBack_decodeDpShr (w : Word) (htop : w.extractLsb' 25 3 = 0b000#3) (h4 : w.getLsbD 4 = true)
    (h7 : w.getLsbD 7 = false)
    (hstatus : ¬ isStatusTransfer w = true) : ReadsBack (.wide w) (.instr (decodeDpShr w)) := by
  have whole (op : BitVec 4) := dpShrWord_of_fields w op htop h4 h7
  have clear (op : BitVec 4) := dpShrWord_clear (condOf w) op (w.getLsbD 20) (fieldRn w) (fieldRd w) (w.extractLsb' 8 4)
    (fieldType w) (fieldRm w)
  have move (op : BitVec 4) (hop : fieldOpcode w = op.toNat) := whole op hop ▸ (clear op).1
  have test (op : BitVec 4) (hop : fieldOpcode w = op.toNat) (h : op.extractLsb' 2 2 = 2#2) :=
    bit_S_of_test w op hstatus hop h ▸ whole op hop ▸ (clear op).2
  fun_cases decodeDpShr w
  case case9 hop | case10 hop | case11 hop | case12 hop => exact readsBack_wide rfl rfl (test _ hop rfl)
  case case14 hop => exact readsBack_wide rfl rfl (move _ hop)
  case case16 =>
    have hop : fieldOpcode w = 15 := by
      have hlt : fieldOpcode w < 16 := BitVec.isLt _
      simp only [imp_false] at *
      omega
    exact readsBack_wide rfl rfl (move _ hop)
  all_goals exact readsBack_wholeWide rfl rfl rfl (whole _ ‹_›)

theorem readsBack_decodeSdtImm (w : Word) (htop : w.extractLsb' 25 3 = 0b010#3) :
    ReadsBack (.wide w) (.instr (decodeSdtImm w)) := by
  fun_cases decodeSdtImm w <;> exact readsBack_wholeWide rfl rfl rfl (sdtImmWord_of_fields w _ _ htop ‹_› ‹_›)

theorem readsBack_decodeSdtReg (w : Word) (htop : w.extractLsb' 25 3 = 0b011#3) (h4 : w.getLsbD 4 = false) :
    ReadsBack (.wide w) (.instr (decodeSdtReg w)) := by
  fun_cases decodeSdtReg w <;> exact readsBack_wholeWide rfl rfl rfl (sdtRegWord_of_fields w _ _ htop h4 ‹_› ‹_›)

/-- The lines of R119, in their order. -/
theorem readsBack_decodeWide (w : Word) : ReadsBack (.wide w) (decodeWide w) := by
  fun_cases decodeWide w
  case case1 hbx => exact readsBack_wholeWide rfl rfl rfl (bxWord_of_pattern w hbx)
  case case4 htop hmul hstatus h4 =>
    have h7 : w.getLsbD 7 = false := by simpa [h4] using hmul
    exact readsBack_decodeDpShr w (BitVec.eq_of_toNat_eq htop) h4 h7 hstatus
  case case5 htop _ hstatus h4 =>
    exact readsBack_decodeDpShi w (BitVec.eq_of_toNat_eq htop) (eq_false_of_ne_true h4) hstatus
  case case7 htop hstatus => exact readsBack_decodeDpImm w (BitVec.eq_of_toNat_eq htop) hstatus
  case case8 htop => exact readsBack_decodeSdtImm w (BitVec.eq_of_toNat_eq htop)
  case case10 htop h4 => exact readsBack_decodeSdtReg w (BitVec.eq_of_toNat_eq htop) (eq_false_of_ne_true h4)
  case case12 htop hl => exact readsBack_wholeWide rfl rfl rfl (branchWord_of_fields w true (BitVec.eq_of_toNat_eq htop) hl)
  case case13 htop hl =>
    exact readsBack_wholeWide rfl rfl rfl
      (branchWord_of_fields w false (BitVec.eq_of_toNat_eq htop) (eq_false_of_ne_true hl))
  case case15 h24 h0 h1 h2 h3 h4 h5 h6 =>
    have htop : w.extractLsb' 25 3 = 0b111#3 := three_bits_last _ h0 h1 h2 h3 h4 h5 h6
    exact readsBack_wholeWide rfl rfl rfl (swiWord_of_fields w ((field_append_bit_iff w 24 3 0b111#3 true).2 ⟨htop, h24⟩))
  all_goals exact readsBack_reserved _ _

/-! ## The narrow decoder reads back, format by format (R120 to R131) -/

theorem isLow_low0 (h : Half) : Reg.isLow (low0 h) = true := Reg.isLow_ofLow _
theorem isLow_low3 (h : Half) : Reg.isLow (low3 h) = true := Reg.isLow_ofLow _
theorem isLow_low6 (h : Half) : Reg.isLow (low6 h) = true := Reg.isLow_ofLow _
theorem isLow_low8 (h : Half) : Reg.isLow (low8 h) = true := Reg.isLow_ofLow _

/-- Two registers in 3-bit fields, which is what N1, N2, N4 and N9 have. -/
theorem isLow_low3_low0 (h : Half) : (Reg.isLow (low3 h) && Reg.isLow (low0 h)) = true := by
  rw [isLow_low3, isLow_low0, Bool.and_self]

theorem isLow_low6_low3_low0 (h : Half) : (Reg.isLow (low6 h) && Reg.isLow (low3 h) && Reg.isLow (low0 h)) = true := by
  rw [isLow_low6, isLow_low3, isLow_low0, Bool.and_self, Bool.and_self]

theorem readsBack_decodeN1N2 (h : Half) (htop : h.extractLsb' 13 3 = 0b000#3) : ReadsBack (.narrow h) (decodeN1N2 h) := by
  have n1 (op : BitVec 2) := n1Half_of_fields h op htop
  have n2 (i op : BitVec 1) (f : BitVec 3) (hop : h.extractLsb' 11 2 = 0b11#2) :=
    n2Half_of_fields h i op f ((field_append_iff h 11 3 2 0b000#3 0b11#2).2 ⟨htop, hop⟩)
  have hrn : h.extractLsb' 6 3 = (low6 h).low := (Reg.low_ofLow _).symm
  fun_cases decodeN1N2 h
  case case1 hop | case2 hop | case3 hop => exact readsBack_wholeNarrow (isLow_low3_low0 h) rfl rfl (n1 _ hop)
  case case4 hop hi h0 h1 h2 | case5 hop hi h0 h1 h2 =>
    exact readsBack_wholeNarrow (isLow_low6_low3_low0 h) rfl rfl
      (n2 _ _ _ (two_bits_last _ h0 h1 h2) (congrArg BitVec.ofBool hi) (congrArg BitVec.ofBool hop) hrn)
  case case6 hop hi h0 h1 h2 | case7 hop hi h0 h1 h2 =>
    exact readsBack_wholeNarrow (isLow_low3_low0 h) rfl rfl
      (n2 _ _ _ (two_bits_last _ h0 h1 h2) (congrArg BitVec.ofBool hi) (congrArg BitVec.ofBool hop) rfl)

theorem readsBack_decodeN3 (h : Half) (htop : h.extractLsb' 13 3 = 0b001#3) : ReadsBack (.narrow h) (decodeN3 h) := by
  have n3 (op : BitVec 2) := n3Half_of_fields h op htop
  fun_cases decodeN3 h
  case case4 h0 h1 h2 =>
    exact readsBack_wholeNarrow (isLow_low8 h) rfl rfl (n3 3#2 (congrArg BitVec.toNat (two_bits_last _ h0 h1 h2)))
  all_goals exact readsBack_wholeNarrow (isLow_low8 h) rfl rfl (n3 _ ‹_›)

theorem readsBack_decodeN4 (h : Half) (htop : h.extractLsb' 10 6 = 0b010000#6) : ReadsBack (.narrow h) (decodeN4 h) := by
  have n4 (op : BitVec 4) := n4Half_of_fields h op htop
  fun_cases decodeN4 h
  case case14 => exact readsBack_reserved _ _
  case case16 =>
    have hop : (h.extractLsb' 6 4).toNat = 15 := by
      have hlt := (h.extractLsb' 6 4).isLt
      simp only [imp_false] at *
      omega
    exact readsBack_wholeNarrow (isLow_low3_low0 h) rfl rfl (n4 _ hop)
  all_goals exact readsBack_wholeNarrow (isLow_low3_low0 h) rfl rfl (n4 _ ‹_›)

theorem readsBack_decodeN5 (h : Half) (htop : h.extractLsb' 10 6 = 0b010001#6) : ReadsBack (.narrow h) (decodeN5 h) := by
  have n5 (op : BitVec 2) := n5Half_of_fields h op htop
  fun_cases decodeN5 h
  case case4 => exact readsBack_reserved _ _
  case case5 hhigh h0 h1 h2 =>
    have hd : (highRd h).extractLsb' 3 1 = 0#1 :=
      (highRd_fields h).1.trans (field_of_clear_bit h 7 (eq_false_of_ne_true hhigh)).symm
    have hclear := n5Half_clear 3#2 (highRs h) (highRd h) hd
    rw [n5 3#2 (congrArg BitVec.toNat (two_bits_last _ h0 h1 h2))] at hclear
    exact readsBack_instr rfl (congrArg CodeUnit.narrow hclear.symm)
  all_goals exact readsBack_wholeNarrow rfl rfl rfl (n5 _ ‹_›)

theorem readsBack_decodeN9 (h : Half) (htop : h.extractLsb' 13 3 = 0b011#3) : ReadsBack (.narrow h) (decodeN9 h) := by
  have n9 (b l : BitVec 1) := n9Half_of_fields h b l htop
  fun_cases decodeN9 h
  case case1 hl hb | case2 hl hb | case3 hl hb | case4 hl hb =>
    exact readsBack_wholeNarrow (isLow_low3_low0 h) rfl rfl (n9 _ _ (congrArg BitVec.ofBool hb) (congrArg BitVec.ofBool hl))

theorem readsBack_decodeN16N17 (h : Half) (htop : h.extractLsb' 12 4 = 0b1101#4) : ReadsBack (.narrow h) (decodeN16N17 h) := by
  have n16 (cond : BitVec 4) := n16Half_of_fields h cond htop
  fun_cases decodeN16N17 h
  case case15 => exact readsBack_reserved _ _
  case case16 =>
    have hcond : (h.extractLsb' 8 4).toNat = 15 := by
      have hlt := (h.extractLsb' 8 4).isLt
      simp only [imp_false] at *
      omega
    exact readsBack_wholeNarrow rfl rfl rfl (n16 _ hcond)
  all_goals exact readsBack_wholeNarrow rfl rfl rfl (n16 _ ‹_›)

theorem readsBack_decodeN18N19 (h : Half) (htop : h.extractLsb' 13 3 = 0b111#3) : ReadsBack (.narrow h) (decodeN18N19 h) := by
  have n18 (hi : BitVec 2) := n18Half_of_fields h hi htop
  fun_cases decodeN18N19 h
  case case1 hhi => exact readsBack_wholeNarrow rfl rfl rfl (n18 0#2 hhi)
  case case2 => exact readsBack_reserved _ _
  case case3 hhi => exact readsBack_wholeNarrow rfl rfl rfl (n18 2#2 hhi)
  case case4 h0 h1 h2 =>
    exact readsBack_wholeNarrow rfl rfl rfl (n18 3#2 (congrArg BitVec.toNat (two_bits_last _ h0 h1 h2)))

/-- The lines of R131, in their order. -/
theorem readsBack_decodeNarrow (h : Half) : ReadsBack (.narrow h) (decodeNarrow h) := by
  fun_cases decodeNarrow h
  case case1 htop => exact readsBack_decodeN1N2 h (BitVec.eq_of_toNat_eq htop)
  case case2 htop => exact readsBack_decodeN3 h (BitVec.eq_of_toNat_eq htop)
  case case4 htop h12 h11 =>
    have hfixed : h.extractLsb' 11 5 = 0b01001#5 := (field_append_bit_iff h 11 4 0b0100#4 true).2
      ⟨(field_append_bit_iff h 12 3 0b010#3 false).2 ⟨BitVec.eq_of_toNat_eq htop, eq_false_of_ne_true h12⟩, h11⟩
    exact readsBack_wholeNarrow (isLow_low8 h) rfl rfl (n6Half_of_fields h hfixed)
  case case5 htop h12 h11 h10 =>
    exact readsBack_decodeN5 h ((registerFormats_iff h true).2
      ⟨⟨⟨BitVec.eq_of_toNat_eq htop, eq_false_of_ne_true h12⟩, eq_false_of_ne_true h11⟩, h10⟩)
  case case6 htop h12 h11 h10 =>
    exact readsBack_decodeN4 h ((registerFormats_iff h false).2
      ⟨⟨⟨BitVec.eq_of_toNat_eq htop, eq_false_of_ne_true h12⟩, eq_false_of_ne_true h11⟩, eq_false_of_ne_true h10⟩)
  case case7 htop => exact readsBack_decodeN9 h (BitVec.eq_of_toNat_eq htop)
  case case10 htop h12 =>
    exact readsBack_decodeN16N17 h ((field_append_bit_iff h 12 3 0b110#3 true).2 ⟨BitVec.eq_of_toNat_eq htop, h12⟩)
  case case12 h0 h1 h2 h3 h4 h5 h6 => exact readsBack_decodeN18N19 h (three_bits_last _ h0 h1 h2 h3 h4 h5 h6)
  all_goals exact readsBack_reserved _ _

/-! ## The statements -/

open Sys2Proof.Laws in
/-- Settles O1: the round trip of every instruction's own format. -/
theorem decodeReadsBackEveryEncoding : Obligations.DecodeReadsBackEveryEncoding := by
  intro i
  cases i with
  | wAndImm => exact EncodingRoundTrip.wAndImm _ _ _ _ _ _
  | wAndShi => exact EncodingRoundTrip.wAndShi _ _ _ _ _ _ _
  | wAndShr => exact EncodingRoundTrip.wAndShr _ _ _ _ _ _ _
  | wEorImm => exact EncodingRoundTrip.wEorImm _ _ _ _ _ _
  | wEorShi => exact EncodingRoundTrip.wEorShi _ _ _ _ _ _ _
  | wEorShr => exact EncodingRoundTrip.wEorShr _ _ _ _ _ _ _
  | wSubImm => exact EncodingRoundTrip.wSubImm _ _ _ _ _ _
  | wSubShi => exact EncodingRoundTrip.wSubShi _ _ _ _ _ _ _
  | wSubShr => exact EncodingRoundTrip.wSubShr _ _ _ _ _ _ _
  | wRsbImm => exact EncodingRoundTrip.wRsbImm _ _ _ _ _ _
  | wRsbShi => exact EncodingRoundTrip.wRsbShi _ _ _ _ _ _ _
  | wRsbShr => exact EncodingRoundTrip.wRsbShr _ _ _ _ _ _ _
  | wAddImm => exact EncodingRoundTrip.wAddImm _ _ _ _ _ _
  | wAddShi => exact EncodingRoundTrip.wAddShi _ _ _ _ _ _ _
  | wAddShr => exact EncodingRoundTrip.wAddShr _ _ _ _ _ _ _
  | wAdcImm => exact EncodingRoundTrip.wAdcImm _ _ _ _ _ _
  | wAdcShi => exact EncodingRoundTrip.wAdcShi _ _ _ _ _ _ _
  | wAdcShr => exact EncodingRoundTrip.wAdcShr _ _ _ _ _ _ _
  | wSbcImm => exact EncodingRoundTrip.wSbcImm _ _ _ _ _ _
  | wSbcShi => exact EncodingRoundTrip.wSbcShi _ _ _ _ _ _ _
  | wSbcShr => exact EncodingRoundTrip.wSbcShr _ _ _ _ _ _ _
  | wRscImm => exact EncodingRoundTrip.wRscImm _ _ _ _ _ _
  | wRscShi => exact EncodingRoundTrip.wRscShi _ _ _ _ _ _ _
  | wRscShr => exact EncodingRoundTrip.wRscShr _ _ _ _ _ _ _
  | wTstImm => exact EncodingRoundTrip.wTstImm _ _ _ _
  | wTstShi => exact EncodingRoundTrip.wTstShi _ _ _ _ _
  | wTstShr => exact EncodingRoundTrip.wTstShr _ _ _ _ _
  | wTeqImm => exact EncodingRoundTrip.wTeqImm _ _ _ _
  | wTeqShi => exact EncodingRoundTrip.wTeqShi _ _ _ _ _
  | wTeqShr => exact EncodingRoundTrip.wTeqShr _ _ _ _ _
  | wCmpImm => exact EncodingRoundTrip.wCmpImm _ _ _ _
  | wCmpShi => exact EncodingRoundTrip.wCmpShi _ _ _ _ _
  | wCmpShr => exact EncodingRoundTrip.wCmpShr _ _ _ _ _
  | wCmnImm => exact EncodingRoundTrip.wCmnImm _ _ _ _
  | wCmnShi => exact EncodingRoundTrip.wCmnShi _ _ _ _ _
  | wCmnShr => exact EncodingRoundTrip.wCmnShr _ _ _ _ _
  | wOrrImm => exact EncodingRoundTrip.wOrrImm _ _ _ _ _ _
  | wOrrShi => exact EncodingRoundTrip.wOrrShi _ _ _ _ _ _ _
  | wOrrShr => exact EncodingRoundTrip.wOrrShr _ _ _ _ _ _ _
  | wMovImm => exact EncodingRoundTrip.wMovImm _ _ _ _ _
  | wMovShi => exact EncodingRoundTrip.wMovShi _ _ _ _ _ _
  | wMovShr => exact EncodingRoundTrip.wMovShr _ _ _ _ _ _
  | wBicImm => exact EncodingRoundTrip.wBicImm _ _ _ _ _ _
  | wBicShi => exact EncodingRoundTrip.wBicShi _ _ _ _ _ _ _
  | wBicShr => exact EncodingRoundTrip.wBicShr _ _ _ _ _ _ _
  | wMvnImm => exact EncodingRoundTrip.wMvnImm _ _ _ _ _
  | wMvnShi => exact EncodingRoundTrip.wMvnShi _ _ _ _ _ _
  | wMvnShr => exact EncodingRoundTrip.wMvnShr _ _ _ _ _ _
  | wB => exact EncodingRoundTrip.wB _ _
  | wBl => exact EncodingRoundTrip.wBl _ _
  | wBx => exact EncodingRoundTrip.wBx _ _
  | wSwi => exact EncodingRoundTrip.wSwi _ _
  | wLdrImm => exact EncodingRoundTrip.wLdrImm _ _ _ _ _ _ _
  | wLdrReg => exact EncodingRoundTrip.wLdrReg _ _ _ _ _ _ _ _ _
  | wStrImm => exact EncodingRoundTrip.wStrImm _ _ _ _ _ _ _
  | wStrReg => exact EncodingRoundTrip.wStrReg _ _ _ _ _ _ _ _ _
  | wLdrbImm => exact EncodingRoundTrip.wLdrbImm _ _ _ _ _ _ _
  | wLdrbReg => exact EncodingRoundTrip.wLdrbReg _ _ _ _ _ _ _ _ _
  | wStrbImm => exact EncodingRoundTrip.wStrbImm _ _ _ _ _ _ _
  | wStrbReg => exact EncodingRoundTrip.wStrbReg _ _ _ _ _ _ _ _ _
  | nLslImm => exact EncodingRoundTrip.nLslImm _ _ _
  | nLsrImm => exact EncodingRoundTrip.nLsrImm _ _ _
  | nAsrImm => exact EncodingRoundTrip.nAsrImm _ _ _
  | nAddReg => exact EncodingRoundTrip.nAddReg _ _ _
  | nSubReg => exact EncodingRoundTrip.nSubReg _ _ _
  | nAddImm3 => exact EncodingRoundTrip.nAddImm3 _ _ _
  | nSubImm3 => exact EncodingRoundTrip.nSubImm3 _ _ _
  | nMovImm8 => exact EncodingRoundTrip.nMovImm8 _ _
  | nCmpImm8 => exact EncodingRoundTrip.nCmpImm8 _ _
  | nAddImm8 => exact EncodingRoundTrip.nAddImm8 _ _
  | nSubImm8 => exact EncodingRoundTrip.nSubImm8 _ _
  | nAnd => exact EncodingRoundTrip.nAnd _ _
  | nEor => exact EncodingRoundTrip.nEor _ _
  | nLslReg => exact EncodingRoundTrip.nLslReg _ _
  | nLsrReg => exact EncodingRoundTrip.nLsrReg _ _
  | nAsrReg => exact EncodingRoundTrip.nAsrReg _ _
  | nAdc => exact EncodingRoundTrip.nAdc _ _
  | nSbc => exact EncodingRoundTrip.nSbc _ _
  | nRorReg => exact EncodingRoundTrip.nRorReg _ _
  | nTst => exact EncodingRoundTrip.nTst _ _
  | nNeg => exact EncodingRoundTrip.nNeg _ _
  | nCmpReg => exact EncodingRoundTrip.nCmpReg _ _
  | nCmn => exact EncodingRoundTrip.nCmn _ _
  | nOrr => exact EncodingRoundTrip.nOrr _ _
  | nBic => exact EncodingRoundTrip.nBic _ _
  | nMvn => exact EncodingRoundTrip.nMvn _ _
  | nAddHigh => exact EncodingRoundTrip.nAddHigh _ _
  | nCmpHigh => exact EncodingRoundTrip.nCmpHigh _ _
  | nMovHigh => exact EncodingRoundTrip.nMovHigh _ _
  | nBx => exact EncodingRoundTrip.nBx _
  | nLdrPc => exact EncodingRoundTrip.nLdrPc _ _
  | nStrImm => exact EncodingRoundTrip.nStrImm _ _ _
  | nLdrImm => exact EncodingRoundTrip.nLdrImm _ _ _
  | nStrbImm => exact EncodingRoundTrip.nStrbImm _ _ _
  | nLdrbImm => exact EncodingRoundTrip.nLdrbImm _ _ _
  | nBeq => exact EncodingRoundTrip.nBeq _
  | nBne => exact EncodingRoundTrip.nBne _
  | nBcs => exact EncodingRoundTrip.nBcs _
  | nBcc => exact EncodingRoundTrip.nBcc _
  | nBmi => exact EncodingRoundTrip.nBmi _
  | nBpl => exact EncodingRoundTrip.nBpl _
  | nBvs => exact EncodingRoundTrip.nBvs _
  | nBvc => exact EncodingRoundTrip.nBvc _
  | nBhi => exact EncodingRoundTrip.nBhi _
  | nBls => exact EncodingRoundTrip.nBls _
  | nBge => exact EncodingRoundTrip.nBge _
  | nBlt => exact EncodingRoundTrip.nBlt _
  | nBgt => exact EncodingRoundTrip.nBgt _
  | nBle => exact EncodingRoundTrip.nBle _
  | nSwi => exact EncodingRoundTrip.nSwi _
  | nB => exact EncodingRoundTrip.nB _
  | nBlPrefix => exact EncodingRoundTrip.nBlPrefix _
  | nBlSuffix => exact EncodingRoundTrip.nBlSuffix _

/-- Settles O2: every line of either decoder reads back, format by format. -/
theorem encodeReadsBackEveryPattern : Obligations.EncodeReadsBackEveryPattern := by
  intro u
  cases u with
  | wide w => exact readsBack_decodeWide w
  | narrow h => exact readsBack_decodeNarrow h

/-- Settles O5: the decoder evaluates to the instruction on each of the words. -/
theorem fixedWordsDecode : Obligations.FixedWordsDecode := by
  unfold Obligations.FixedWordsDecode
  decide

end Sys2Proof.Machine
end

section
/-! PROOF. The whole step (40_step_and_conditions.md R150, R157, R158, R162): what one step keeps, its cost, the invariant of the
machine, and the reset state that meets it (10_state.md). -/

namespace Sys2Proof.Machine

/-! ## What the processor step keeps -/

/-- What the processor step from `s` to `t` keeps: memory changes by one bus write at most, the status word in its flags and in T
only, and of the registers those of the bank the mode selects; it charges one step's cost. -/
structure StepKept (s t : State) : Prop where
  mem : t.mem = s.mem ∨ ∃ a n v, t.mem = (memWrite a n v s).mem
  spsr : t.spsr = s.spsr
  cycles : t.cycles = s.cycles + Config.stepCycles
  cartLen : t.cartLen = s.cartLen
  vtu : t.vtu = s.vtu
  buttons : t.buttons = s.buttons
  status : SameStatusBut [31, 30, 29, 28, 5] s t
  banks : ∀ q, (∀ r, phys s.bank r ≠ q) → t.regs.get q = s.regs.get q
  pc : s.PcAligned → t.PcAligned

theorem flagT_congr (s t : State) (h : t.cpsr.getLsbD 5 = s.cpsr.getLsbD 5) : t.flagT = s.flagT := h

theorem pcAligned_congr (s t : State) (hpc : t.pc = s.pc) (hT : t.flagT = s.flagT) (h : s.PcAligned) : t.PcAligned := by
  unfold State.PcAligned at h ⊢
  rw [hpc, hT]
  exact h

/-- What a bus write leaves in memory depends on the memory, the address map and the line only. -/
theorem memWrite_mem_congr (s t : State) (hm : t.mem = s.mem) (hl : t.cartLen = s.cartLen) (hv : t.vtu = s.vtu) (a : Word)
    (n : Width) (v : Word) : (memWrite a n v t).mem = (memWrite a n v s).mem := by
  rw [memWrite_state, memWrite_state, hm, hl, hv]

/-- R15 is `pc` in every bank (10_state.md R23). -/
theorem ne_pc_of_unselected {b : Bank} {q : PhysReg} (hq : ∀ r, phys b r ≠ q) : q ≠ .pc := Ne.symm (hq 15#4)

/-- An instruction leaves T alone or is the branch-and-exchange. -/
theorem flagT_of_kept {ok : Prop} {s t : State} (h : Kept ok s t) : t.flagT = s.flagT :=
  flagT_congr s t (h.status 5 (by decide))

theorem pcAligned_of_kept {ok : Prop} {s t : State} (h : Kept ok s t) (hok : ok) (hs : s.PcAligned) : t.PcAligned := by
  rcases h.pc hok with hpc | ⟨v, hpc⟩
  · exact pcAligned_congr s t hpc (flagT_of_kept h) hs
  · exact pcAligned_of_target t v (by rw [flagT_of_kept h, hpc])

/-- What an instruction keeps, `pc` kept aligned included. -/
theorem stepKept_of_kept {s t : State} (h : Kept True s t) : StepKept s t.charge := by
  obtain ⟨hspsr, hcycles, hcart, hvtu, hbuttons⟩ := h.rest
  exact
    { mem := h.mem, spsr := hspsr, cycles := congrArg (· + Config.stepCycles) hcycles, cartLen := hcart, vtu := hvtu
      buttons := hbuttons, banks := h.banks
      status := fun j hj => h.status j (fun hmem => hj (List.mem_append_left [5] hmem))
      pc := fun hs => pcAligned_congr t _ rfl rfl (pcAligned_of_kept h trivial hs) }

theorem stepKept_charge (s : State) : StepKept s s.charge :=
  stepKept_of_kept
    { mem := Or.inl rfl, rest := ⟨rfl, rfl, rfl, rfl, rfl⟩, status := fun _ _ => rfl, banks := fun _ _ => rfl
      pc := fun _ => Or.inl rfl }

theorem stepKept_branchExchange (s : State) (v : Word) : StepKept s (s.branchExchange v).charge := by
  refine
    { mem := Or.inl rfl, spsr := rfl, cycles := rfl, cartLen := rfl, vtu := rfl, buttons := rfl, status := fun j hj => ?_
      banks := fun q hq => ?_, pc := fun _ => pcAligned_of_target (s.branchExchange v).charge v (branchExchange_pc s v) }
  · have h5 : j ≠ 5 := fun e => hj (by simp [e])
    show (s.setT (v.getLsbD 0)).cpsr.getLsbD j = _
    rw [State.setT_cpsr, getLsbD_setBit _ _ _ _ (by decide), if_neg h5]
  · show ((s.setT (v.getLsbD 0)).branchTo v).regs.get q = _
    rw [State.branchTo_regs, RegFile.get_set, if_neg (ne_pc_of_unselected hq)]
    rfl

/-- The fetch moves `pc` and records warnings; whatever executes after it is judged from the state before. -/
theorem stepKept_of_fetch {s t : State} (h : StepKept (fetchInstr s).2 t) : StepKept s t := by
  have hs := fetchInstr_state_eq s
  have hcpsr := fetchInstr_cpsr s
  have hbank : (fetchInstr s).2.bank = s.bank := (flags_congr _ _ hcpsr).2.2.2.2.2
  have hmem : (fetchInstr s).2.mem = s.mem := by rw [hs]; rfl
  have hcart : (fetchInstr s).2.cartLen = s.cartLen := by rw [hs]; rfl
  have hvtu : (fetchInstr s).2.vtu = s.vtu := by rw [hs]; rfl
  refine
    { mem := ?_, spsr := h.spsr.trans (by rw [hs]; rfl), cycles := h.cycles.trans (by rw [hs]; rfl), cartLen := h.cartLen.trans hcart
      vtu := h.vtu.trans hvtu, buttons := h.buttons.trans (by rw [hs]; rfl), status := fun j hj => ?_, banks := fun q hq => ?_
      pc := fun ha => h.pc ?_ }
  · rcases h.mem with e | ⟨a, n, v, e⟩
    · exact Or.inl (e.trans hmem)
    · exact Or.inr ⟨a, n, v, e.trans (memWrite_mem_congr _ _ hmem hcart hvtu a n v)⟩
  · rw [h.status j hj, hcpsr]
  · rw [h.banks q (by rw [hbank]; exact hq), fetchInstr_onlyReg s q, if_neg (ne_pc_of_unselected hq)]
  · exact pcAligned_congr s.advancePc _ (by rw [hs]; rfl) (flagT_congr _ _ (by rw [hcpsr]; rfl)) (pcAligned_advancePc s ha)

/-- A decoded instruction is well formed (O2), so the fields that hold even displacements hold them, and `pc` stays aligned. -/
theorem procStep_kept (s : State) : ∃ t, procStep s = .next t ∧ StepKept s t := by
  rcases procStep_next s with ⟨i, t, hi, _, hp, hk | ⟨_, v, rfl⟩⟩ | ⟨r, _, hp⟩
  · have hwf : i.wellFormed = true := (encodeReadsBackEveryPattern (fetch s).1 i hi).1
    rw [hwf] at hk
    exact ⟨_, hp, stepKept_of_fetch (stepKept_of_kept { hk with pc := fun _ => hk.pc rfl })⟩
  · exact ⟨_, hp, stepKept_of_fetch (stepKept_branchExchange _ v)⟩
  · exact ⟨_, hp, stepKept_of_fetch (stepKept_charge _)⟩

/-- The step is the processor step, then the advance of the video unit. -/
theorem step_kept (s : State) : ∃ t, step s = .next (advance Config.stepCycles t) ∧ StepKept s t := by
  obtain ⟨t, hp, hk⟩ := procStep_kept s
  exact ⟨t, step_of_procStep s t hp, hk⟩

theorem advance_of_step {s t : State} (h : step s = .next t) : ∃ u, t = advance Config.stepCycles u ∧ StepKept s u := by
  obtain ⟨u, hu, hk⟩ := step_kept s
  rw [h] at hu
  injection hu with hu
  exact ⟨u, hu, hk⟩

/-! ## What follows of a step -/

theorem inv_of_stepKept {s t : State} (h : StepKept s t) (hs : s.Inv) : t.Inv := by
  rcases h.mem with hm | ⟨a, n, v, hm⟩
  · exact inv_congr s t hm h.cartLen h.vtu h.buttons hs
  · obtain ⟨-, -, -, -, hcart, hvtu, hbuttons⟩ := memWrite_frame a n v s
    exact inv_congr (memWrite a n v s) t hm (h.cartLen.trans hcart.symm) (h.vtu.trans hvtu.symm) (h.buttons.trans hbuttons.symm)
      (inv_memWrite a n v s hs)

/-- No region that a bus write can hit lies in the boot region or the cartridge window. -/
theorem memWrite_mem_readOnly (a : Word) (n : Width) (v : Word) (s : State) (b : Nat)
    (hb : b < 0x4000 ∨ (0x08000000 ≤ b ∧ b < 0x0A000000)) : (memWrite a n v s).mem.get b = s.mem.get b := by
  rcases memWrite_mem_cases a n v s with hm | ⟨r, off, hhit, hboot, hcart, hm⟩
  · rw [hm]
  · obtain ⟨-, -, hfit⟩ := mapAddr_hit _ _ _ _ _ hhit
    have hout : ¬ (r.base + off ≤ b ∧ b < r.base + off + n.bytes) := by
      cases r <;> simp only [Region.base, Region.length, ne_eq, not_true_eq_false] at * <;> omega
    have hdisp : b ≠ 0x04000004 ∧ b ≠ 0x04000006 ∧ b ≠ 0x04000007 := by omega
    rw [hm]
    by_cases hio : r = .io
    · subst hio
      rw [storeHit_io, apply_ite (Memory.get · b), get_vtuRefresh, if_neg hdisp.1, if_neg hdisp.2.2, if_neg hdisp.2.1, ite_self,
        get_storeIo, if_neg hout]
    · rw [storeHit_of_ne_io _ _ _ _ _ _ hio, Memory.get_store, if_neg hout]

theorem run_succ_of_step (M : Host.Core) {s t : M.State} (h : M.step s = .next t) (k : Nat) : M.run (k + 1) s = M.run k t := by
  rw [Host.Core.run, h]

theorem safeRun_of_step (h : ∀ s : State, ∃ t, step s = .next t) (s : State) : SafeRun s := by
  intro k
  induction k generalizing s with
  | zero => exact ⟨s, rfl⟩
  | succ k ih =>
    obtain ⟨t, ht⟩ := h s
    obtain ⟨u, hu⟩ := ih t
    exact ⟨u, (run_succ_of_step Sys2Proof.core ht k).trans hu⟩

/-! ## The instruction a step runs -/

/-- A fetch of width `n` at an aligned `pc` inside a region warns of nothing. -/
theorem fetch_warnings (s : State) (n : Width) (r : Region) (off : Nat) (ha : alignTo s.pc n = s.pc)
    (hmap : mapAddr s.cartLen s.pc n = .hit r off) :
    s.warnings ++ alignWarnings s.pc n ++ readWarnings s.cartLen (alignTo s.pc n) n = s.warnings := by
  rw [alignWarnings, if_pos ((alignTo_eq_iff s.pc n).1 ha), readWarnings, ha, hmap, List.append_nil, List.append_nil]

/-- A step from an aligned hit runs what the fetched unit decodes to, with `pc` advanced and no warning recorded. -/
theorem step_of_fetch (s : State) (u : CodeUnit) (n : Width) (k : Word) (i : Instr) (r : Region) (off : Nat)
    (hu : (fetch s).1 = u) (hn : s.fetchWidth = n) (hk : s.instrBytes = k) (ha : alignTo s.pc n = s.pc)
    (hmap : mapAddr s.cartLen s.pc n = .hit r off) (hi : decode u = .instr i) :
    step s = thenDo (advance Config.stepCycles) (thenDo State.charge (exec i (s.setPc (s.pc + k)))) := by
  rw [step, systemStep, procStep_of_fetch s u n k hu hn hk, fetch_warnings s n r off ha hmap, hi]
  rfl

/-! ## The statements -/

/-- Settles O9: every processor step returns, and charges the one cost, whatever it fetched. -/
theorem everyStepCompletesAtOneCost : Obligations.EveryStepCompletesAtOneCost := by
  refine ⟨stepCycles_pos, fun s => ?_, fun s => ?_, safeRun_of_step fun s => ?_⟩
  · obtain ⟨t, ht, hk⟩ := procStep_kept s
    exact ⟨t, ht, hk.cycles⟩
  · obtain ⟨t, ht, hk⟩ := step_kept s
    exact ⟨_, ht, hk.cycles⟩
  · obtain ⟨t, ht, _⟩ := step_kept s
    exact ⟨_, ht⟩

/-- Settles O7: an aligned fetch that hits reads the bytes at `pc` with no rotation and no warning, in either width. -/
theorem stepRunsTheDecodedInstruction : Obligations.StepRunsTheDecodedInstruction := by
  intro s i r off
  constructor
  · intro hT hpc hmap hi
    have ha : alignTo s.pc .word = s.pc := (alignTo_eq_iff s.pc .word).2 hpc
    have hu := fetch_wide s hT
    rw [ha, hmap, hpc, rotateRight_of_mod_eq_zero _ _ (by decide)] at hu
    exact step_of_fetch s _ .word _ i r off hu (by simp [State.fetchWidth, hT]) (by simp [State.instrBytes, hT]) ha hmap hi
  · intro hT hpc hmap hi
    have ha : alignTo s.pc .half = s.pc := (alignTo_eq_iff s.pc .half).2 hpc
    have hu := fetch_narrow s hT
    rw [ha, hmap] at hu
    exact step_of_fetch s _ .half _ i r off hu (by simp [State.fetchWidth, hT]) (by simp [State.instrBytes, hT]) ha hmap hi

/-- Settles O44: any other instruction changes no bit of the status word but the four flags. -/
theorem onlyBranchExchangeWritesT : Obligations.OnlyBranchExchangeWritesT := by
  intro i s t ht hT
  obtain ⟨u, hu, hk⟩ := exec_kept i s
  obtain rfl : u = t := by
    rw [hu] at ht
    injection ht
  rcases hk with hk | ⟨hbx, _⟩
  · exact absurd (flagT_of_kept hk) hT
  · exact hbx

/-- Settles O45: the status bits a step can change are the flags and T, and the registers those of the current bank. -/
theorem stepLeavesModeAndShadows : Obligations.StepLeavesModeAndShadows := by
  intro s t h
  obtain ⟨u, rfl, hk⟩ := advance_of_step h
  refine ⟨mode_congr s _ fun j hj => hk.status j ?_, fun j h6 h27 => hk.status j ?_, hk.spsr, hk.cartLen, hk.buttons, hk.banks⟩
  · simp only [List.mem_cons, List.not_mem_nil, or_false]
    omega
  · simp only [List.mem_cons, List.not_mem_nil, or_false]
    omega

/-- Settles O46: a bus write leaves both windows, and the video unit writes in the `IO` region only. -/
theorem stepLeavesReadOnlyRegions : Obligations.StepLeavesReadOnlyRegions := by
  intro s t a h ha
  obtain ⟨u, rfl, hk⟩ := advance_of_step h
  rw [get_advance_of_ne _ _ _ (by omega) (by omega) (by omega)]
  rcases hk.mem with hm | ⟨b, n, v, hm⟩
  · rw [hm]
  · rw [hm, memWrite_mem_readOnly b n v s a ha]

/-- Settles O54: the processor step keeps the invariant by its one bus write, and the advance keeps it by its own law. -/
theorem stepKeepsTheInvariant : Obligations.StepKeepsTheInvariant := by
  intro s t h
  obtain ⟨u, rfl, hk⟩ := advance_of_step h
  exact ⟨fun hs => inv_advance _ u (inv_of_stepKept hk hs), fun hs => pcAligned_congr u _ rfl rfl (hk.pc hs)⟩

/-- Settles O55: the empty memory and the zero counters meet each part. -/
theorem resetMeetsTheInvariant : Obligations.ResetMeetsTheInvariant := by
  unfold Obligations.ResetMeetsTheInvariant
  decide

end Sys2Proof.Machine
end

section
/-! PROOF. The two spellings of the overflow of `AddWithCarry` (00_scope.md R17), and the order of the operands that the conditions
read after a comparison (41_wide_data_processing.md section 3, the derived sentence of R190). -/

namespace Sys2Proof.Machine

/-! ## The overflow of a sum, from the top bits -/

/-- The top bit of `~(a ^ b) & (a ^ r)`: the operands have one sign and the result has the other. -/
theorem getLsbD_31_overflowBits (a b r : Word) :
    (~~~(a ^^^ b) &&& (a ^^^ r)).getLsbD 31 =
      (decide (2 ^ 31 ≤ a.toNat) == decide (2 ^ 31 ≤ b.toNat) && decide (2 ^ 31 ≤ a.toNat) != decide (2 ^ 31 ≤ r.toNat)) := by
  rw [BitVec.getLsbD_and, BitVec.getLsbD_not, BitVec.getLsbD_xor, BitVec.getLsbD_xor, getLsbD_31_eq_decide_le,
    getLsbD_31_eq_decide_le, getLsbD_31_eq_decide_le]
  cases decide (2 ^ 31 ≤ a.toNat) <;> cases decide (2 ^ 31 ≤ b.toNat) <;> rfl

theorem addWithCarry_ovf_bits (a b : Word) (cin : Bool) :
    (addWithCarry a b cin).ovf = (~~~(a ^^^ b) &&& (a ^^^ (addWithCarry a b cin).r)).getLsbD 31 := by
  have ha := a.isLt
  have hb := b.isLt
  have hc := cin.toNat_le
  rw [getLsbD_31_overflowBits, addWithCarry_r_toNat, addWithCarry_eq_plainSum, Bool.eq_iff_iff]
  simp only [plainSum, decide_eq_true_eq, Bool.and_eq_true, beq_iff_eq, bne_iff_ne, ne_eq, decide_eq_decide,
    BitVec.toInt_eq_toNat_cond]
  omega

/-! ## The order of the operands, from the flags of their difference -/

theorem plainDiff_r (a b : Word) : (plainDiff a b 0).r = a - b := BitVec.sub_zero (a - b)

theorem plainDiff_zero (a b : Word) : decide ((plainDiff a b 0).r = 0#32) = decide (a = b) := by
  rw [plainDiff_r, decide_eq_decide]
  exact sub_eq_zero

/-- N equals V exactly where the difference of the unbounded integers is not negative. -/
theorem plainDiff_sign (a b : Word) :
    ((plainDiff a b 0).r.getLsbD 31 == (plainDiff a b 0).ovf) = decide (b.toInt ≤ a.toInt) := by
  have haLt := a.toInt_lt
  have haLe := a.le_toInt
  have hbLt := b.toInt_lt
  have hbLe := b.le_toInt
  rw [plainDiff_r, getLsbD_31_eq_decide_neg, BitVec.toInt_sub, Int.bmod_def, Bool.eq_iff_iff]
  simp only [plainDiff, beq_iff_eq, decide_eq_decide, decide_eq_true_eq]
  omega

theorem decide_lt_toNat (a b : Word) : (decide (b.toNat ≤ a.toNat) && !decide (a = b)) = decide (b.toNat < a.toNat) := by
  rw [← decide_not, ← Bool.decide_and, decide_eq_decide, ← BitVec.toNat_inj]
  omega

theorem decide_lt_toInt (a b : Word) : (!decide (a = b) && decide (b.toInt ≤ a.toInt)) = decide (b.toInt < a.toInt) := by
  rw [← decide_not, ← Bool.decide_and, decide_eq_decide, ← BitVec.toInt_inj]
  omega

/-- The five conditions after a comparison, whatever instruction did it. -/
theorem conditions_of_compareDone {a b : Word} {s : State} {o : Outcome} (h : CompareDone (plainDiff a b 0) s o) :
    ∃ t, o = .next t ∧
      condHolds .eq t = decide (a = b) ∧ condHolds .cs t = decide (b.toNat ≤ a.toNat) ∧
      condHolds .hi t = decide (b.toNat < a.toNat) ∧ condHolds .ge t = decide (b.toInt ≤ a.toInt) ∧
      condHolds .gt t = decide (b.toInt < a.toInt) := by
  obtain ⟨t, ht, -, -, ⟨hn, hz⟩, hc, hv, -⟩ := h
  have heq : condHolds .eq t = decide (a = b) := hz.trans (plainDiff_zero a b)
  have hcs : condHolds .cs t = decide (b.toNat ≤ a.toNat) := hc
  have hge : condHolds .ge t = decide (b.toInt ≤ a.toInt) := by rw [condHolds, hn, hv, plainDiff_sign]
  refine ⟨t, ht, heq, hcs, ?_, hge, ?_⟩
  · exact (congrArg₂ (· && !·) hcs heq).trans (decide_lt_toNat a b)
  · exact (congrArg₂ (!· && ·) heq hge).trans (decide_lt_toInt a b)

/-! ## The statements -/

/-- Settles O16: the overflow is that of the plain sum, and the same by the top bits. -/
theorem addWithCarryFlags : Obligations.AddWithCarryFlags := by
  intro a b cin
  refine ⟨addWithCarry_r_toNat a b cin, decide_eq_true_iff, ?_, addWithCarry_ovf_bits a b cin⟩
  rw [addWithCarry_eq_plainSum]
  exact decide_eq_true_iff

/-- Settles O23: each of the six forms is a comparison that leaves the flags of `a - b`. -/
theorem comparisonsOrderTheirOperands : Obligations.ComparisonsOrderTheirOperands := by
  rintro i a b s (⟨c, rn, rot, imm8, rfl, hc, rfl, rfl⟩ | ⟨c, rn, shamt, ty, rm, rfl, hc, rfl, rfl⟩ |
    ⟨c, rn, rs, ty, rm, rfl, hc, rfl, rfl⟩ | ⟨rd, imm8, rfl, rfl, rfl⟩ | ⟨rs, rd, rfl, rfl, rfl⟩ | ⟨rs, rd, rfl, rfl, rfl⟩)
  · exact conditions_of_compareDone (compareOperations_done c rn s hc (.imm rot imm8) _ _ rfl).1
  · exact conditions_of_compareDone (compareOperations_done c rn s hc (.shi shamt ty rm) _ _ rfl).1
  · exact conditions_of_compareDone (compareOperations_done c rn s hc (.shr rs ty rm) _ _ rfl).1
  · rw [BitVec.ofNat_toNat]
    exact conditions_of_compareDone (narrowCompare_aluSub_done s _ _)
  · exact conditions_of_compareDone (narrowCompare_aluSub_done s _ _)
  · exact conditions_of_compareDone (narrowCompare_aluSub_done s _ _)

end Sys2Proof.Machine
end

section
/-! PROOF. BX in both widths (42_wide_branch_and_system.md R212; 45_narrow_branch_load_store.md R290), the fourteen narrow conditional
branches (R296), and the narrow call as a pair (R299, R300). -/

namespace Sys2Proof.Machine

/-! ## `pc` is R15 -/

theorem State.setPc_eq_setReg (s : State) (v : Word) : s.setPc v = s.setReg Reg.pc v := rfl

theorem State.getReg_setPc_of_ne (s : State) (v : Word) (r : Reg) (h : r ≠ Reg.pc) : (s.setPc v).getReg r = s.getReg r := by
  rw [State.setPc_eq_setReg, State.getReg_setReg, if_neg h]

theorem State.pc_setReg_of_ne (s : State) (v : Word) (r : Reg) (h : r ≠ Reg.pc) : (s.setReg r v).pc = s.pc := by
  rw [← State.getReg_pc, State.getReg_setReg, if_neg (Ne.symm h), State.getReg_pc]

theorem State.getReg_branchTo_of_ne (s : State) (v : Word) (r : Reg) (h : r ≠ Reg.pc) : (s.branchTo v).getReg r = s.getReg r :=
  State.getReg_setPc_of_ne s _ r h

/-! ## The narrow conditional branches -/

theorem narrowCondOffset_eq_ofInt (soff8 : BitVec 8) : narrowCondOffset soff8 = BitVec.ofInt 32 (soff8.toInt * 2) :=
  signExtend_shiftLeft_eq_ofInt soff8 1

/-- A narrow branch under the condition `c`, which is met exactly where `taken` holds. -/
theorem narrowBranchIf_taken (c : Cond) (soff8 : BitVec 8) (s : State) (taken : Prop) (h : taken ↔ condHolds c s = true) :
    (taken → BranchDone (s.pc + BitVec.ofInt 32 (soff8.toInt * 2)) s (narrowBranchIf c soff8 s)) ∧
    (¬ taken → narrowBranchIf c soff8 s = .next s) := by
  rw [narrowBranchIf, h, narrowCondOffset_eq_ofInt]
  constructor
  · intro hc
    rw [if_pos hc]
    exact branchTo_done s _
  · intro hc
    rw [if_neg hc]

/-! ## The narrow call -/

/-- A narrow branch to an even target needs no alignment. -/
theorem State.branchTo_pc_of_even (s : State) (v : Word) (hT : s.flagT = true) (hv : v.toNat % 2 = 0) : (s.branchTo v).pc = v := by
  rw [State.branchTo_pc, if_pos hT]
  exact (alignTo_eq_iff v .half).2 hv

/-- The suffix adds its part of the displacement to what the prefix left, from an even base to an even target. -/
theorem callPair_target (p : Word) (hi11 lo11 : BitVec 11) (hp : p.toNat % 2 = 0) :
    p + BitVec.ofInt 32 (hi11.toInt * 4096) + BitVec.ofNat 32 (2 * lo11.toNat) =
      p + BitVec.ofInt 32 (hi11.toInt * 4096 + 2 * lo11.toNat) ∧
    (p + BitVec.ofInt 32 (hi11.toInt * 4096 + 2 * lo11.toNat)).toNat % 2 = 0 := by
  constructor
  · rw [BitVec.ofInt_add, ← BitVec.ofInt_natCast, BitVec.add_assoc]
    norm_cast
  · rw [BitVec.toNat_add, BitVec.toNat_ofInt]
    omega

/-! ## The statements -/

/-- Settles O25: both instructions are the branch-and-exchange to the register's value. -/
theorem branchExchangeSelectsTheWidth : Obligations.BranchExchangeSelectsTheWidth := by
  intro r s
  constructor
  · intro c hc
    show ExchangeDone _ s (execWBx c r s)
    rw [execWBx, whenCond_of_holds c _ s hc]
    exact branchExchange_done s (s.getReg r)
  · exact branchExchange_done s (s.getReg r)

/-- Settles O40: each branch is the branch under its condition, and the table gives the condition's flags. -/
theorem narrowConditionalBranches : Obligations.NarrowConditionalBranches := by
  intro soff8 s i taken h
  obtain ⟨eq, ne, cs, cc, mi, pl, vs, vc, hi, ls, ge, lt, gt, le, -⟩ := conditionTable s
  rcases h with ⟨rfl, h⟩ | ⟨rfl, h⟩ | ⟨rfl, h⟩ | ⟨rfl, h⟩ | ⟨rfl, h⟩ | ⟨rfl, h⟩ | ⟨rfl, h⟩ | ⟨rfl, h⟩ | ⟨rfl, h⟩ | ⟨rfl, h⟩ |
    ⟨rfl, h⟩ | ⟨rfl, h⟩ | ⟨rfl, h⟩ | ⟨rfl, h⟩
  · exact narrowBranchIf_taken .eq soff8 s taken (h.trans eq.symm)
  · exact narrowBranchIf_taken .ne soff8 s taken (h.trans ne.symm)
  · exact narrowBranchIf_taken .cs soff8 s taken (h.trans cs.symm)
  · exact narrowBranchIf_taken .cc soff8 s taken (h.trans cc.symm)
  · exact narrowBranchIf_taken .mi soff8 s taken (h.trans mi.symm)
  · exact narrowBranchIf_taken .pl soff8 s taken (h.trans pl.symm)
  · exact narrowBranchIf_taken .vs soff8 s taken (h.trans vs.symm)
  · exact narrowBranchIf_taken .vc soff8 s taken (h.trans vc.symm)
  · exact narrowBranchIf_taken .hi soff8 s taken (h.trans hi.symm)
  · exact narrowBranchIf_taken .ls soff8 s taken (h.trans ls.symm)
  · exact narrowBranchIf_taken .ge soff8 s taken (h.trans ge.symm)
  · exact narrowBranchIf_taken .lt soff8 s taken (h.trans lt.symm)
  · exact narrowBranchIf_taken .gt soff8 s taken (h.trans gt.symm)
  · exact narrowBranchIf_taken .le soff8 s taken (h.trans le.symm)

/-- Settles O42: the suffix branches from the link register the prefix wrote, and leaves the address after itself there. -/
theorem narrowCallPair : Obligations.NarrowCallPair := by
  intro hi11 lo11 pfx s hT hpc hpfx
  have hlr : Reg.lr ≠ Reg.pc := by decide
  have hbase : (pfx + 2#32).toNat % 2 = 0 := by
    rw [BitVec.toNat_add, BitVec.toNat_ofNat]
    omega
  obtain ⟨hsum, heven⟩ := callPair_target (pfx + 2#32) hi11 lo11 hbase
  refine ⟨_, _, exec_nBlPrefix hi11 s, exec_nBlSuffix lo11 _, ?target, ?link, rfl, sameOutside_of_eq s _ rfl⟩
  case target =>
    rw [State.getReg_setPc_of_ne _ _ _ hlr, State.getReg_setReg_same, hpc, blPrefixOffset_eq_ofInt, blSuffixOffset_eq_ofNat, hsum]
    exact State.branchTo_pc_of_even _ _ hT heven
  case link =>
    rw [State.getReg_branchTo_of_ne _ _ _ hlr, State.getReg_setReg_same, State.setPc_pc, State.pc_setReg_of_ne _ _ _ hlr, hpc,
      BitVec.add_assoc]
    rfl

end Sys2Proof.Machine
end

section
/-! PROOF. The banking law (10_state.md R22 to R25) and the idempotence of `reset()` (70_reset_and_hazards.md R404). -/

namespace Sys2Proof.Machine

/-! ## Which banks share a register (10_state.md R23) -/

/-- Two banks have one register under one index. -/
theorem phys_eq_phys_iff (b1 b2 : Bank) (r : Reg) :
    phys b2 r = phys b1 r ↔
      (r.toNat ≤ 7 ∨ r.toNat = 15) ∨ (8 ≤ r.toNat ∧ r.toNat ≤ 12 ∧ (b1 = .fiq ↔ b2 = .fiq)) ∨
        ((r.toNat = 13 ∨ r.toNat = 14) ∧ b1 = b2) := by
  revert r
  cases b1 <;> cases b2 <;> decide

theorem bankOf_eq_fiq_iff : ∀ m : BitVec 5, bankOf m = .fiq ↔ m = 0b10001#5 := by decide

theorem getReg_setMode (m : BitVec 5) (s : State) (r : Reg) : (setMode m s).getReg r = s.regs.get (phys (bankOf m) r) := by
  rw [State.getReg, State.bank, mode_setMode]
  rfl

theorem regs_setReg_setMode (m : BitVec 5) (s : State) (r : Reg) (v : Word) :
    ((setMode m s).setReg r v).regs = s.regs.set (phys (bankOf m) r) v := by
  rw [State.setReg_regs, State.bank, mode_setMode]
  rfl

/-! ## A second reset (70_reset_and_hazards.md R404) -/

/-- The second reset finds the control bits of DISPSTAT and `compare` as the first one did, and so every byte it writes. -/
theorem resetMachine_mem_get_twice (s : State) (a : Nat) :
    (resetMachine (resetMachine s)).mem.get a = (resetMachine s).mem.get a := by
  by_cases h : a ∈ [0x04000004, 0x04000006, 0x04000007, 0x04000130, 0x04000131]
  · obtain ⟨hcount, hcountHigh, hstatus⟩ := resetMachine_display s
    obtain ⟨hcount', hcountHigh', hstatus'⟩ := resetMachine_display (resetMachine s)
    simp only [List.mem_cons, List.not_mem_nil, or_false] at h
    rcases h with rfl | rfl | rfl | rfl | rfl
    · have hcompare : (resetMachine s).mem.get 0x04000005 = s.mem.get 0x04000005 := resetMachine_mem_frame s _ (by decide)
      have hbit : (if s.mem.get 0x04000005 = 0#8 then 4#8 else 0#8) &&& 0xF8#8 = 0#8 := by split <;> rfl
      rw [hstatus', hcompare, hstatus, byte_refresh_high _ _ hbit]
    · rw [hcount', hcount]
    · rw [hcountHigh', hcountHigh]
    · rw [resetMachine_mem, resetMachine_mem, get_mirrorButtons, get_mirrorButtons]
      rfl
    · rw [resetMachine_mem, resetMachine_mem, get_mirrorButtons, get_mirrorButtons]
      rfl
  · exact resetMachine_mem_frame (resetMachine s) a h

theorem wf_resetMachine (s : State) (h : s.mem.wf = true) : (resetMachine s).mem.wf = true :=
  wf_mirrorButtons s.buttons _ (wf_vtuRefresh 0 s.mem h)

/-! ## The statements -/

/-- Settles O43: in one mode different indices are different registers, and across two modes the banks decide. -/
theorem bankingLaw : Obligations.BankingLaw := by
  refine ⟨by decide, fun r q v s => State.getReg_setReg s r q v, fun m1 m2 r v s => ?_⟩
  rw [getReg_setMode, getReg_setMode, regs_setReg_setMode, RegFile.get_set]
  exact if_congr (by rw [phys_eq_phys_iff, bankOf_eq_fiq_iff, bankOf_eq_fiq_iff]) rfl rfl

/-- Settles O57: canonical memories that agree at every address are equal, and nothing but memory depends on the state before. -/
theorem resetIsIdempotent : Obligations.ResetIsIdempotent := by
  intro s hs
  have hwf : (resetMachine s).mem.wf = true := wf_resetMachine s hs
  have hmem : (resetMachine (resetMachine s)).mem = (resetMachine s).mem :=
    Memory.eq_of_get _ _ (wf_resetMachine _ hwf) hwf (resetMachine_mem_get_twice s)
  exact congrArg (fun m => { resetMachine s with mem := m }) hmem

end Sys2Proof.Machine
end

section
/-! PROOF. The round trip of an aligned write through plain storage (20_memory.md R83), and the address rule of the wide loads and
stores (43_wide_load_store.md R220, R221). -/

namespace Sys2Proof.Machine

/-! ## A word as its bytes -/

theorem byteOf_toNat (v : Word) (i : Nat) : (byteOf v i).toNat = v.toNat / 256 ^ i % 256 := by
  rw [byteOf_eq_ofNat, BitVec.toNat_ofNat]

/-- A load from bytes that hold those of `v` is `v` truncated to the width. -/
theorem load_of_bytes (m : Memory) (a : Nat) (n : Width) (v : Word) (h : ∀ i, i < n.bytes → m.get (a + i) = byteOf v i) :
    m.load a n = BitVec.ofNat 32 (v.toNat % 2 ^ (8 * n.bytes)) := by
  have hv := v.isLt
  apply BitVec.eq_of_toNat_eq
  cases n with
  | byte =>
    have h0 : m.get a = byteOf v 0 := h 0 (by decide)
    rw [load_byte_toNat, h0, byteOf_toNat, BitVec.toNat_ofNat]
    simp only [Width.bytes]
    omega
  | half =>
    have h0 : m.get a = byteOf v 0 := h 0 (by decide)
    rw [load_half_toNat, h0, h 1 (by decide), byteOf_toNat, byteOf_toNat, BitVec.toNat_ofNat]
    simp only [Width.bytes]
    omega
  | word =>
    have h0 : m.get a = byteOf v 0 := h 0 (by decide)
    rw [load_word_toNat, h0, h 1 (by decide), h 2 (by decide), h 3 (by decide), byteOf_toNat, byteOf_toNat, byteOf_toNat,
      byteOf_toNat, BitVec.toNat_ofNat]
    simp only [Width.bytes]
    omega

/-! ## The bytes an aligned write leaves (20_memory.md R83) -/

/-- A byte whose mask is full takes the byte written, and is none of the bytes a refresh of the display status writes. -/
theorem get_storeHit_io (off : Nat) (n : Width) (v : Word) (line : Nat) (m : Memory) (i : Nat) (hi : i < n.bytes)
    (hmask : ioMask (off + i) = 0xFF#8) : (storeHit .io off n v line m).get (0x04000000 + off + i) = byteOf v i := by
  have hstore : (Memory.storeWith Memory.putIo m (Region.base .io + off) v n).get (0x04000000 + off + i) = byteOf v i := by
    have hoff : 0x04000000 + off + i - 0x04000000 = off + i := by omega
    have hidx : 0x04000000 + off + i - (0x04000000 + off) = i := by omega
    have hfull : ∀ x y : Byte, (x &&& ~~~0xFF#8) ||| (y &&& 0xFF#8) = y := fun x y => by
      rw [show (~~~0xFF#8 : Byte) = 0#8 from rfl, BitVec.and_zero, BitVec.zero_or]
      exact BitVec.and_allOnes
    rw [get_storeIo, Region.base, if_pos ⟨by omega, by omega⟩, hoff, hidx, hmask, hfull]
  have hne : off + i ≠ 4 ∧ off + i ≠ 6 ∧ off + i ≠ 7 := by
    refine ⟨fun e => ?_, fun e => ?_, fun e => ?_⟩ <;> rw [e] at hmask <;> exact absurd hmask (by decide)
  rw [storeHit_io]
  split
  · rw [get_vtuRefresh_of_ne _ _ _ (by omega) (by omega) (by omega), hstore]
  · exact hstore

theorem get_storeHit (r : Region) (off : Nat) (n : Width) (v : Word) (line : Nat) (m : Memory) (i : Nat) (hi : i < n.bytes)
    (hmask : r = .io → ioMask (off + i) = 0xFF#8) : (storeHit r off n v line m).get (r.base + off + i) = byteOf v i := by
  by_cases hio : r = .io
  · subst hio
    exact get_storeHit_io off n v line m i hi (hmask rfl)
  · rw [storeHit_of_ne_io _ _ _ _ _ _ hio, Memory.get_store, if_pos ⟨by omega, by omega⟩, Nat.add_sub_cancel_left]

/-- An aligned read does not rotate. -/
theorem rotateRead_of_aligned (a v : Word) (n : Width) (h : a.toNat % n.bytes = 0) : rotateRead a v n = v := by
  cases n with
  | byte => rfl
  | half => rfl
  | word =>
    have h4 : a.toNat % 4 = 0 := h
    rw [rotateRead_word, h4, rotateRight_of_mod_eq_zero _ _ (by decide)]

/-! ## The statements -/

/-- Settles O49: the write leaves the bytes of `v` where the read, which hits the same region, finds them. -/
theorem writeThenReadRoundTrip : Obligations.WriteThenReadRoundTrip := by
  intro a n v s r off ha hmap hboot hcart hmask
  have hal : alignTo a n = a := (alignTo_eq_iff a n).2 ha
  have hhit : mapAddr s.cartLen (alignTo a n) n = .hit r off := by rw [hal, hmap]
  obtain ⟨-, -, -, -, hlen, -, -⟩ := memWrite_frame a n v s
  obtain ⟨-, hbase, -⟩ := mapAddr_hit _ _ _ _ _ hmap
  rw [memRead_value_of_hit a n _ r off (by rw [hlen, hhit]), rotateRead_of_aligned _ _ _ ha, hal,
    memWrite_mem_of_hit a n v s r off hhit hboot hcart]
  refine load_of_bytes _ _ n v fun i hi => ?_
  rw [hbase]
  exact get_storeHit r off n v s.vtu.line s.mem i hi fun hio => hmask hio i hi

/-- Settles O27: the three functions, with the 12-bit field as its value. -/
theorem transferAddressRule : Obligations.TransferAddressRule := by
  intro p u w rn s
  refine ⟨fun imm12 => ?_, fun _ _ _ => rfl, fun _ => rfl, ?_⟩
  · rw [BitVec.ofNat_toNat]
    rfl
  · rw [writesBack, Bool.and_eq_true, Bool.or_eq_true, Bool.not_eq_true', bne_iff_ne]

end Sys2Proof.Machine
end

section
/-! PROOF. The scanline clock: what `advance` leaves (48_video_timing_unit.md R316), and that it depends on the sum of the cycles
only (R310). -/

namespace Sys2Proof.Machine

/-! ## The advance as the completed lines (48_video_timing_unit.md R316) -/

theorem advance_vtu (c : Nat) (s : State) :
    (advance c s).vtu = (completeLines ((s.vtu.acc + c) / 1232) (addAcc c (s.vtu, s.mem))).1 :=
  congrArg Prod.fst (advanceVtu_eq c s.vtu s.mem)

theorem advance_mem (c : Nat) (s : State) :
    (advance c s).mem = (completeLines ((s.vtu.acc + c) / 1232) (addAcc c (s.vtu, s.mem))).2 :=
  congrArg Prod.snd (advanceVtu_eq c s.vtu s.mem)

/-- The lines of the sum are those the first advance completes, then those the second completes from what is left. -/
theorem advanceVtu_advanceVtu (c d : Nat) (v : Vtu) (m : Memory) :
    advanceVtu d (advanceVtu c v m).1 (advanceVtu c v m).2 = advanceVtu (c + d) v m := by
  have hlines : (v.acc + c) / 1232 * 1232 ≤ v.acc + c := Nat.div_mul_le_self _ _
  have hsum : (v.acc + c) / 1232 + ((v.acc + c) % 1232 + d) / 1232 = (v.acc + (c + d)) / 1232 := by omega
  rw [advanceVtu_eq d, advanceVtu_acc, Prod.mk.eta, advanceVtu_eq c, advanceVtu_eq (c + d),
    ← completeLines_addAcc _ d (addAcc c (v, m)) hlines, addAcc_add, ← completeLines_add, hsum]

/-! ## The statements -/

/-- Settles O51: an advance completes one line per threshold crossed, and each line is accounted for. -/
theorem advanceDrivesTheScanlineClock : Obligations.AdvanceDrivesTheScanlineClock := by
  rintro c k s hline rfl
  refine ⟨advanceVtu_acc c s.vtu s.mem, ?line, ?frame, ?idle, ?status, fun b => get_advance_of_ne c s b, ?control, rfl⟩
  case line => rw [advance_vtu, completeLines_line _ _ hline]; rfl
  case frame => rw [advance_vtu, completeLines_frame _ _ hline]; rfl
  case idle =>
    intro hk
    rw [advance_vtu, advance_mem, hk]
    exact ⟨rfl, rfl⟩
  case status =>
    intro hk
    unfold State.DisplayStatusConsistent
    rw [advance_vtu, advance_mem]
    exact completeLines_consistent _ _ hk
  case control => rw [advance_mem, completeLines_control]; rfl

/-- Settles O52: `advanceVtu_advanceVtu` is the law on the unit's state and memory, which are all that `advance` writes. -/
theorem advanceIsAFunctionOfTheSum : Obligations.AdvanceIsAFunctionOfTheSum := by
  intro c d s
  have h := advanceVtu_advanceVtu c d s.vtu s.mem
  exact congrArg (fun p : Vtu × Memory => { s with vtu := p.1, mem := p.2 }) h

end Sys2Proof.Machine
end

section
/-! PROOF. The three image loads: the bytes they write, what they truncate and record, and what they leave
(49_input_latch_and_host.md R348, R349, R350). -/

namespace Sys2Proof.Machine

/-! ## What an image load records and leaves (49_input_latch_and_host.md R348, R349, R350) -/

theorem loadOutcome_of_pos (name : String) (bytes : List Byte) (t : State) (h : 1 ≤ bytes.length) :
    loadOutcome name bytes t = .next (.unit, t) := if_neg (by omega)

theorem State.warnOversize_eq (s : State) (which : Image) (given capacity : Nat) :
    s.warnOversize which given capacity =
      { s with warnings := s.warnings ++ if capacity < given then [Warning.oversizeImage which given capacity] else [] } := by
  unfold State.warnOversize
  split
  · rfl
  · rw [List.append_nil]

/-- An image loaded at `a`, cut to its capacity: its own bytes there, and no other byte changes. -/
theorem get_loadBytes_take (bytes : List Byte) (k : Nat) (m : Memory) (a b : Nat) :
    (m.loadBytes a (bytes.take k)).get b =
      if a ≤ b ∧ b < a + min bytes.length k then bytes.getD (b - a) 0#8 else m.get b := by
  rw [get_loadBytes, List.length_take, Nat.min_comm k]
  split
  · rw [List.getD_eq_getElem?_getD, List.getD_eq_getElem?_getD, List.getElem?_take_of_lt (by omega)]
  · rfl

/-- Above the `IO` region an unlisted address reads 0. -/
theorem unlistedByte_of_ge (b : Nat) (h : 0x08000000 ≤ b) : unlistedByte b = 0#8 := by
  rw [unlistedByte, if_neg (by omega), if_neg (by omega), if_neg (by omega)]

theorem loadBootImage_get (bytes : List Byte) (s : State) (b : Nat) :
    (loadBootImage bytes s).mem.get b = if b < min bytes.length 0x4000 then bytes.getD b 0#8 else s.mem.get b := by
  rw [loadBootImage, State.warnOversize_eq]
  show (s.mem.loadBytes 0 (bytes.take 0x4000)).get b = _
  rw [get_loadBytes_take]
  simp only [Nat.zero_le, true_and, Nat.zero_add, Nat.sub_zero]

theorem loadCartridgeImage_get (bytes : List Byte) (s : State) (b : Nat) :
    (loadCartridgeImage bytes s).mem.get b =
      if 0x08000000 ≤ b ∧ b < 0x08000000 + min bytes.length 0x02000000 then bytes.getD (b - 0x08000000) 0#8
      else if 0x08000000 ≤ b ∧ b < 0x0A000000 then 0#8 else s.mem.get b := by
  rw [loadCartridgeImage, State.warnOversize_eq]
  show ((s.mem.clearRange 0x08000000 0x0A000000).loadBytes 0x08000000 (bytes.take 0x02000000)).get b = _
  rw [get_loadBytes_take, get_clearRange]
  split
  · rfl
  · split
    · exact unlistedByte_of_ge b (by omega)
    · rfl

/-- Past the end of the image its list gives the default 0, which is what the cleared region reads. -/
theorem loadSave_get (bytes : List Byte) (s : State) (b : Nat) :
    (loadSave bytes s).mem.get b =
      if 0x0E000000 ≤ b ∧ b < 0x0E010000 then (bytes.take 0x10000).getD (b - 0x0E000000) 0#8 else s.mem.get b := by
  rw [loadSave, State.warnOversize_eq]
  show ((s.mem.clearRange 0x0E000000 0x0E010000).loadBytes 0x0E000000 (bytes.take 0x10000)).get b = _
  have hlen : (bytes.take 0x10000).length ≤ 0x10000 := List.length_take_le _ _
  rw [get_loadBytes, get_clearRange]
  by_cases hin : 0x0E000000 ≤ b ∧ b < 0x0E010000
  · rw [if_pos hin, if_pos hin]
    split
    · rfl
    · rw [unlistedByte_of_ge b (by omega), List.getD_eq_default _ _ (by omega)]
  · rw [if_neg hin, if_neg hin, if_neg (by omega)]

/-! ## The statements -/

/-- Settles O59: each load writes memory, the log and, for the cartridge, its length. -/
theorem imageLoadsWriteTheirRegions : Obligations.ImageLoadsWriteTheirRegions := by
  intro bytes s h
  refine ⟨⟨loadBootImage bytes s, loadOutcome_of_pos _ _ _ h, loadBootImage_get bytes s, ?_, ?_⟩,
    ⟨loadCartridgeImage bytes s, loadOutcome_of_pos _ _ _ h, ?_, loadCartridgeImage_get bytes s, ?_, ?_⟩,
    ⟨loadSave bytes s, loadOutcome_of_pos _ _ _ h, loadSave_get bytes s, ?_, ?_⟩⟩
  · rw [loadBootImage, State.warnOversize_eq]
  · rw [loadBootImage, State.warnOversize_eq]
  · rw [loadCartridgeImage, State.warnOversize_eq]; rfl
  · rw [loadCartridgeImage, State.warnOversize_eq]; rfl
  · rw [loadCartridgeImage, State.warnOversize_eq]
  · rw [loadSave, State.warnOversize_eq]
  · rw [loadSave, State.warnOversize_eq]

end Sys2Proof.Machine
end
